-- ==== Sys2Proof/Word.lean ====
section
/-! DEFINITION. The word types of niimctl CORE (00_scope.md R7): every value is unsigned, a byte is 8 bits,
a two-byte field is 16 bits. -/

namespace Sys2Proof

/-- `u8`, 00_scope.md R7. -/
abbrev Byte := BitVec 8

/-- `u16`, 00_scope.md R7. -/
abbrev Half := BitVec 16

/-- The first four bytes of a frame taken as one number, 30_encoding.md R87. -/
abbrev Word := BitVec 32

end Sys2Proof
end

