-- ==== Sys2Proof/Config.lean ====
section
/-! DEFINITION. The constants the document fixes (00_scope.md R5), in one place, because the numeric literals are
unaudited (93_implementation_defined.md U9; log 20). The parameters of 00_scope.md R6 are fields of `State.par`. -/

namespace Sys2Proof.Config

/-- PRE: each of the two preamble bytes. -/
abbrev pre : Byte := 0x55

/-- TRL: each of the two trailer bytes. -/
abbrev trl : Byte := 0xAA

/-- MAX_LEN: the largest payload length. -/
abbrev maxLen : Nat := 255

/-- COLS: pixels per row. -/
abbrev cols : Nat := 400

/-- ROWS: rows per bitmap. -/
abbrev rows : Nat := 240

/-- ROW_BYTES: packed bytes per row. -/
abbrev rowBytes : Nat := 50

/-- INK_RED_VALUE: the red value that means ink. -/
abbrev inkRed : Nat := 0

/-- REPEAT: the repeat count of every PixelRow. -/
abbrev repeatCount : Half := 1

/-- PAGE_COUNT: pages per job. -/
abbrev pageCount : Nat := 1

/-- COPIES: the copies field of set-page-size. -/
abbrev copies : Half := 1

/-- STATUS_POLL_BOUND: status-poll iterations. -/
abbrev statusPollBound : Nat := 100

/-- The payload byte of page-start, page-end and print-end; its meaning is not in the source (93 U18). -/
abbrev one : Byte := 0x01

abbrev cmdPrintStart : Byte := 0x01
abbrev cmdPageStart : Byte := 0x03
abbrev cmdSetPageSize : Byte := 0x13
abbrev cmdSetDensity : Byte := 0x21
abbrev cmdSetLabelType : Byte := 0x23
abbrev cmdBlankRows : Byte := 0x84
abbrev cmdPixelRow : Byte := 0x85
abbrev cmdStatusPoll : Byte := 0xA3
abbrev cmdPageEnd : Byte := 0xE3
abbrev cmdPrintEnd : Byte := 0xF3

end Sys2Proof.Config
end

