-- ==== Sys2Proof/Syntax.lean ====
section
/-! DEFINITION. The instructions: one constructor per row of spec/opcode_table.json (30_encoding.md R80, R81, R87). -/

namespace Sys2Proof

/-- A request to the transmit framer: one of the ten protocol commands, or the generic frame. Every payload byte is an
operand, the reserved and the fixed ones too: TXF "frames any opcode with any payload of legal length"
(40_framer_tx.md R101), so no byte of a payload is dropped or judged here (log 18). -/
inductive Instr where
  /-- `print-start`, 44_commands.md R189: page count, four reserved bytes, one reserved byte. -/
  | printStart (pages : Half) (r0 r1 r2 r3 r4 : Byte)
  /-- `page-start`, 44_commands.md R190. -/
  | pageStart (one : Byte)
  /-- `set-page-size`, 44_commands.md R191. -/
  | setPageSize (rows cols copies : Half)
  /-- `set-density`, 44_commands.md R187. -/
  | setDensity (density : Byte)
  /-- `set-label-type`, 44_commands.md R188. -/
  | setLabelType (labelType : Byte)
  /-- `blank-rows`, 44_commands.md R192. -/
  | blankRows (startRow : Half) (count : Byte)
  /-- `pixel-row`, 44_commands.md R193. -/
  | pixelRow (row setBits repeatCount : Half) (packed : List Byte)
  /-- `status-poll`, 44_commands.md R195. -/
  | statusPoll
  /-- `page-end`, 44_commands.md R194. -/
  | pageEnd (one : Byte)
  /-- `print-end`, 44_commands.md R196. -/
  | printEnd (one : Byte)
  /-- `frame`, 30_encoding.md R70, R81: any opcode with any payload. -/
  | frame (cmd : Byte) (payload : List Byte)
  deriving DecidableEq, Repr

/-- Why a byte sequence is not a request or not a well-formed frame (30_encoding.md R73, R83). -/
inductive DecodeError where
  /-- The first two bytes are not 0x55 0x55. -/
  | badPreamble
  /-- Fewer than four bytes. -/
  | truncatedHeader
  /-- Fewer payload bytes than `len` says. -/
  | truncatedPayload
  /-- The checksum or a trailer byte is missing. -/
  | truncatedEnd
  /-- The checksum byte is not `csum(cmd, len, payload)`. -/
  | badChecksum
  /-- A trailer byte is not 0xAA. -/
  | badTrailer
  deriving DecidableEq, Repr

end Sys2Proof
end

