-- ==== Sys2Proof/Machine/Operands.lean ====
section
/-! DEFINITION. Operand forms: big-endian fields, the payload layout of each command, the fields of the responses, and
the place of a pixel in the bitmap. -/

namespace Sys2Proof.Machine

/-- The most significant byte of a two-byte field: `v div 256` (00_scope.md R8). -/
def hiByte (v : Half) : Byte := BitVec.ofNat 8 (v.toNat / 256)

/-- The least significant byte of a two-byte field: `v mod 256` (00_scope.md R8). -/
def loByte (v : Half) : Byte := BitVec.ofNat 8 (v.toNat % 256)

/-- `be16`, most significant byte first (00_scope.md R8, 20_memory.md R53). -/
def be16 (v : Half) : List Byte := [hiByte v, loByte v]

/-- `from_be16([h, l]) = 256 * h + l` (00_scope.md R8). -/
def fromBe16 (h l : Byte) : Half := BitVec.ofNat 16 (256 * h.toNat + l.toNat)

/-- `from_be32` of 30_encoding.md R87. -/
def fromBe32 (a b c d : Byte) : Word :=
  BitVec.ofNat 32 (16777216 * a.toNat + 65536 * b.toNat + 256 * c.toNat + d.toNat)

/-- The payload of `print-start`, 44_commands.md R189: "big-endian 2-byte page count", then five reserved bytes. -/
def printStartPayload (pages : Half) (r0 r1 r2 r3 r4 : Byte) : List Byte := be16 pages ++ [r0, r1, r2, r3, r4]

/-- The payload of `set-page-size`, 44_commands.md R191: "three 2-byte fields", rows before columns. -/
def setPageSizePayload (rows cols copies : Half) : List Byte := be16 rows ++ be16 cols ++ be16 copies

/-- The payload of `blank-rows`, 44_commands.md R192: "big-endian 2-byte start row + 1-byte count". -/
def blankRowsPayload (startRow : Half) (count : Byte) : List Byte := be16 startRow ++ [count]

/-- The six header bytes of `pixel-row`, 44_commands.md R193 in the split of 92_eei_decisions.md D16: three big-endian
two-byte fields. In one function, so that an audit can replace it (93_implementation_defined.md G2; log 19). -/
def pixelRowHeader (row setBits repeatCount : Half) : List Byte := be16 row ++ be16 setBits ++ be16 repeatCount

/-- The payload of `pixel-row`, 44_commands.md R193: the header, then the packed bytes. -/
def pixelRowPayload (row setBits repeatCount : Half) (packed : List Byte) : List Byte :=
  pixelRowHeader row setBits repeatCount ++ packed

/-- The five fields of a status-poll response, 44_commands.md R195. -/
structure StatusFields where
  s0 : Half
  s1 : Half
  s2 : Half
  s3 : Half
  s4 : Half
  deriving DecidableEq, Repr

/-- The five big-endian fields, which exist only when the payload is exactly ten bytes long (92_eei_decisions.md D27). -/
def statusFields : List Byte → Option StatusFields
  | [a, b, c, d, e, f, g, h, i, j] =>
    some ⟨fromBe16 a b, fromBe16 c d, fromBe16 e f, fromBe16 g h, fromBe16 i j⟩
  | _ => none

/-- The ok/error byte of a one-byte response (44_commands.md R187, R197 (b)): 1 is ok, 0 is error. -/
def ackByte : List Byte → Option Byte
  | [b] => some b
  | _ => none

/-- The byte of its row that holds column `x`: `x div 8` (20_memory.md R54). -/
def pixelByte (x : Nat) : Nat := x / 8

/-- The bit of that byte: `7 - (x mod 8)`, bit 7 the leftmost pixel (20_memory.md R54). -/
def pixelBit (x : Nat) : Nat := 7 - x % 8

/-- The address of byte `i` of row `y` in the bitmap store (20_memory.md R50), as one number. -/
def bmpAddr (y i : Nat) : Nat := Config.rowBytes * y + i

end Sys2Proof.Machine
end

