-- ==== Sys2Proof/Machine/Flags.lean ====
section
/-! DEFINITION. The values that play the part of flags (10_state.md R26): the checksum and its comparison, the ink test,
the blank test of a row, the set-bit count. -/

namespace Sys2Proof.Machine

/-- The running XOR over bytes, from a start value (00_scope.md R11). -/
def xorAll (acc : Byte) (bytes : List Byte) : Byte := bytes.foldl (fun a b => a ^^^ b) acc

/-- `csum(c, l, p)`: the XOR of `cmd`, `len` and every payload byte, in that order (00_scope.md R11). -/
def csum (c l : Byte) (p : List Byte) : Byte := xorAll (c ^^^ l) p

/-- `len` as the byte sent (30_encoding.md R71), used only where the payload's length is known to be at most 255
(40_framer_tx.md R102). -/
def lenByte (p : List Byte) : Byte := BitVec.ofNat 8 p.length

/-- The ink rule, 42_packer.md R152: a pixel is ink exactly when its red value is 0. -/
def isInk (red : Nat) : Bool := red == Config.inkRed

/-- The weight pixel column `x` adds to its byte (42_packer.md R150): `2^(7 - k)` when ink, else 0. -/
def inkWeight (red x : Nat) : Byte := if isInk red then BitVec.ofNat 8 (2 ^ pixelBit x) else 0

/-- The blank test, 43_rle.md R166: every packed byte is zero. -/
def rowBlank (row : List Byte) : Bool := row.all (fun b => b == 0)

/-- `popcount(b)`: the number of 1 bits of a byte, 0..8 (00_scope.md R9). -/
def popcount (b : Byte) : Nat := (List.range 8).countP (fun k => b.getLsbD k)

/-- `bits(row)`, 43_rle.md R170: the total count of set bits of the row. -/
def setBitCount (row : List Byte) : Nat := (row.map popcount).sum

end Sys2Proof.Machine
end

