-- ==== Sys2Proof/WellFormed.lean ====
section
/-! DEFINITION. Which instructions are well formed, and which of them the protocol's own host uses. -/

namespace Sys2Proof

/-- The pairs (cmd, len) of the ten command rows of the opcode table (30_encoding.md R80). -/
def commandHeaders : List (Byte × Nat) :=
  [(Config.cmdPrintStart, 7), (Config.cmdPageStart, 1), (Config.cmdSetPageSize, 6), (Config.cmdSetDensity, 1),
   (Config.cmdSetLabelType, 1), (Config.cmdBlankRows, 3), (Config.cmdPixelRow, 56), (Config.cmdStatusPoll, 0),
   (Config.cmdPageEnd, 1), (Config.cmdPrintEnd, 1)]

/-- Well-formed instructions: a pixel row has its 50 packed bytes (44_commands.md R193); a generic frame has at most 255
payload bytes (40_framer_tx.md R102) and is the fallback only (30_encoding.md R87: "when no command row matches"). -/
def Instr.wf : Instr → Bool
  | .pixelRow _ _ _ packed => packed.length == Config.rowBytes
  | .frame cmd payload => decide (payload.length ≤ Config.maxLen) && !commandHeaders.contains (cmd, payload.length)
  | .printStart .. => true
  | .pageStart _ => true
  | .setPageSize .. => true
  | .setDensity _ => true
  | .setLabelType _ => true
  | .blankRows .. => true
  | .statusPoll => true
  | .pageEnd _ => true
  | .printEnd _ => true

/-- The operand values the protocol uses: the columns `value` and `range` of the opcode table (44_commands.md R187 to
R196). Keeping to them is the host's duty (45_session.md R232); the block checks none of them. -/
def Instr.inProtocol : Instr → Bool
  | .printStart pages r0 r1 r2 r3 r4 => pages == 1 && [r0, r1, r2, r3, r4] == [0, 0, 0, 0, 0]
  | .pageStart one => one == Config.one
  | .setPageSize rows cols copies => rows == 240 && cols == 400 && copies == Config.copies
  | .setDensity d => decide (1 ≤ d.toNat ∧ d.toNat ≤ 5)
  | .setLabelType t => decide (1 ≤ t.toNat ∧ t.toNat ≤ 3)
  | .blankRows start count => decide (start.toNat ≤ 239 ∧ 1 ≤ count.toNat ∧ count.toNat ≤ 240)
  | .pixelRow row bits rep packed =>
      decide (row.toNat ≤ 239 ∧ 1 ≤ bits.toNat ∧ bits.toNat ≤ 400) && rep == Config.repeatCount
        && packed.length == Config.rowBytes
  | .statusPoll => true
  | .pageEnd one => one == Config.one
  | .printEnd one => one == Config.one
  | .frame .. => false

end Sys2Proof
end

