-- ==== Sys2Proof/Decode.lean ====
section
/-! DEFINITION. Decoding and encoding. A request is written as the first `4 + len` bytes of its frame, `55 55 cmd len
payload`: what `tx_req` carries (92_eei_decisions.md D12), the checksum and the trailer being TXF's to make (log 1). A
whole frame on the wire adds them (30_encoding.md R71). -/

namespace Sys2Proof

open Machine

/-- The opcode of an instruction (30_encoding.md R80). -/
def Instr.cmd : Instr → Byte
  | .printStart .. => Config.cmdPrintStart
  | .pageStart _ => Config.cmdPageStart
  | .setPageSize .. => Config.cmdSetPageSize
  | .setDensity _ => Config.cmdSetDensity
  | .setLabelType _ => Config.cmdSetLabelType
  | .blankRows .. => Config.cmdBlankRows
  | .pixelRow .. => Config.cmdPixelRow
  | .statusPoll => Config.cmdStatusPoll
  | .pageEnd _ => Config.cmdPageEnd
  | .printEnd _ => Config.cmdPrintEnd
  | .frame cmd _ => cmd

/-- The payload bytes of an instruction (44_commands.md R187 to R196, 30_encoding.md R88). -/
def Instr.payload : Instr → List Byte
  | .printStart pages r0 r1 r2 r3 r4 => printStartPayload pages r0 r1 r2 r3 r4
  | .pageStart one => [one]
  | .setPageSize rows cols copies => setPageSizePayload rows cols copies
  | .setDensity d => [d]
  | .setLabelType t => [t]
  | .blankRows start count => blankRowsPayload start count
  | .pixelRow row bits rep packed => pixelRowPayload row bits rep packed
  | .statusPoll => []
  | .pageEnd one => [one]
  | .printEnd one => [one]
  | .frame _ payload => payload

/-- The instruction that a pair (cmd, payload) is: a command row when opcode and length are that row's, else `frame`
(30_encoding.md R81, R87). -/
def ofRequest (cmd : Byte) (payload : List Byte) : Instr :=
  if cmd = Config.cmdPrintStart then
    match payload with
    | [a, b, r0, r1, r2, r3, r4] => .printStart (fromBe16 a b) r0 r1 r2 r3 r4
    | _ => .frame cmd payload
  else if cmd = Config.cmdPageStart then
    match payload with
    | [one] => .pageStart one
    | _ => .frame cmd payload
  else if cmd = Config.cmdSetPageSize then
    match payload with
    | [a, b, c, d, e, f] => .setPageSize (fromBe16 a b) (fromBe16 c d) (fromBe16 e f)
    | _ => .frame cmd payload
  else if cmd = Config.cmdSetDensity then
    match payload with
    | [d] => .setDensity d
    | _ => .frame cmd payload
  else if cmd = Config.cmdSetLabelType then
    match payload with
    | [t] => .setLabelType t
    | _ => .frame cmd payload
  else if cmd = Config.cmdBlankRows then
    match payload with
    | [a, b, count] => .blankRows (fromBe16 a b) count
    | _ => .frame cmd payload
  else if cmd = Config.cmdPixelRow then
    match payload with
    | a :: b :: c :: d :: e :: f :: packed =>
      if packed.length = Config.rowBytes then .pixelRow (fromBe16 a b) (fromBe16 c d) (fromBe16 e f) packed
      else .frame cmd payload
    | _ => .frame cmd payload
  else if cmd = Config.cmdStatusPoll then
    match payload with
    | [] => .statusPoll
    | _ => .frame cmd payload
  else if cmd = Config.cmdPageEnd then
    match payload with
    | [one] => .pageEnd one
    | _ => .frame cmd payload
  else if cmd = Config.cmdPrintEnd then
    match payload with
    | [one] => .printEnd one
    | _ => .frame cmd payload
  else .frame cmd payload

/-- Decode one request from the front of a byte sequence: the instruction, and the bytes after it. "A decoder learns
the length from the `len` byte at offset 3 and from nothing else" (30_encoding.md R72). -/
def decode : List Byte → Except DecodeError (Instr × List Byte)
  | p1 :: p2 :: cmd :: len :: body =>
    if p1 = Config.pre ∧ p2 = Config.pre then
      if len.toNat ≤ body.length then .ok (ofRequest cmd (body.take len.toNat), body.drop len.toNat)
      else .error .truncatedPayload
    else .error .badPreamble
  | _ => .error .truncatedHeader

/-- Decode one whole frame from the wire: the request, then the checksum and the two trailer bytes, in that order of
checks (30_encoding.md R71, R73; 60_exceptions.md R246). -/
def decodeWire (bytes : List Byte) : Except DecodeError (Instr × List Byte) :=
  match decode bytes with
  | .error e => .error e
  | .ok (i, c :: t1 :: t2 :: rest) =>
    if c = csum i.cmd (lenByte i.payload) i.payload then
      if t1 = Config.trl ∧ t2 = Config.trl then .ok (i, rest) else .error .badTrailer
    else .error .badChecksum
  | .ok (_, _) => .error .truncatedEnd

/-- A request's words with a given length byte: the first `4 + len` bytes of its frame (30_encoding.md R71). -/
def requestLayout (cmd len : Byte) (payload : List Byte) : List Byte := [Config.pre, Config.pre, cmd, len] ++ payload

/-- A frame with a given length byte (30_encoding.md R70, R71). -/
def frameLayout (cmd len : Byte) (payload : List Byte) : List Byte :=
  requestLayout cmd len payload ++ [csum cmd len payload, Config.trl, Config.trl]

/-- `Encode(cmd, payload)`, 40_framer_tx.md R100: the whole frame; none for a payload of more than 255 bytes, to which
Encode gives no meaning (R102). -/
def encodeFrame (cmd : Byte) (payload : List Byte) : Option (List Byte) :=
  if payload.length ≤ Config.maxLen then some (frameLayout cmd (lenByte payload) payload) else none

/-- The frames of several requests, one after the other; none when one of them has none. -/
def encodeFrames : List (Byte × List Byte) → Option (List Byte)
  | [] => some []
  | f :: fs =>
    match encodeFrame f.1 f.2, encodeFrames fs with
    | some a, some b => some (a ++ b)
    | _, _ => none

/-- The words of an instruction as the host's program holds them; none for a payload of more than 255 bytes (R102). -/
def encode (i : Instr) : Option (List Byte) :=
  if i.payload.length ≤ Config.maxLen then some (requestLayout i.cmd (lenByte i.payload) i.payload) else none

/-- The frame of an instruction as the wire sees it. -/
def encodeWire (i : Instr) : Option (List Byte) := encodeFrame i.cmd i.payload

/-- A row of the opcode table (30_encoding.md R87). -/
structure TableRow where
  mnemonic : String
  matchBits : Word
  maskBits : Word
  deriving DecidableEq, Repr

/-- spec/opcode_table.json, the command rows first and the fallback last (30_encoding.md R87). -/
def opcodeTable : List TableRow :=
  [⟨"print-start", 0x55550107, 0xFFFFFFFF⟩, ⟨"page-start", 0x55550301, 0xFFFFFFFF⟩,
   ⟨"set-page-size", 0x55551306, 0xFFFFFFFF⟩, ⟨"set-density", 0x55552101, 0xFFFFFFFF⟩,
   ⟨"set-label-type", 0x55552301, 0xFFFFFFFF⟩, ⟨"blank-rows", 0x55558403, 0xFFFFFFFF⟩,
   ⟨"pixel-row", 0x55558538, 0xFFFFFFFF⟩, ⟨"status-poll", 0x5555A300, 0xFFFFFFFF⟩,
   ⟨"page-end", 0x5555E301, 0xFFFFFFFF⟩, ⟨"print-end", 0x5555F301, 0xFFFFFFFF⟩,
   ⟨"frame", 0x55550000, 0xFFFF0000⟩]

/-- The first row of the table that a header matches. -/
def tableLookup (h : Word) : Option TableRow := opcodeTable.find? (fun row => h &&& row.maskBits == row.matchBits)

/-- The row's name of an instruction. -/
def Instr.mnemonic : Instr → String
  | .printStart .. => "print-start"
  | .pageStart _ => "page-start"
  | .setPageSize .. => "set-page-size"
  | .setDensity _ => "set-density"
  | .setLabelType _ => "set-label-type"
  | .blankRows .. => "blank-rows"
  | .pixelRow .. => "pixel-row"
  | .statusPoll => "status-poll"
  | .pageEnd _ => "page-end"
  | .printEnd _ => "print-end"
  | .frame .. => "frame"

/-- The `n` low bytes of a number, most significant first: a word in the table's byte order (30_encoding.md R87: frame
byte 0 is bits 31..24). -/
def wordBytes (n w : Nat) : List Byte := (List.range n).map (fun k => BitVec.ofNat 8 (w / 256 ^ (n - 1 - k)))

/-- An instruction's bytes from a number: the first word is 32 bits, big-endian, as spec/opcode_table.json numbers it
(30_encoding.md R87). R87 numbers no bit above it; that payload byte `k` is bits `32 + 8 * k` and up is the model's choice
(log 1). -/
def givenBytes (nbits w : Nat) : List Byte :=
  wordBytes (min nbits 32 / 8) (w % 2 ^ min nbits 32)
    ++ (List.range ((nbits - 32) / 8)).map (fun k => BitVec.ofNat 8 (w / 2 ^ (32 + 8 * k)))

/-- The whole instruction: every bit it has above those given is 0. Its length is 4 plus its `len` byte (30_encoding.md
R72). -/
def tableWordBytes (nbits w : Nat) : List Byte :=
  givenBytes nbits w
    ++ List.replicate (4 + ((givenBytes nbits w).getD 3 0).toNat - (givenBytes nbits w).length) 0

/-- The instruction the decoder reads from a word numbered as spec/opcode_table.json numbers it. -/
def decodeTableWord (nbits w : Nat) : Option Instr :=
  match decode (tableWordBytes nbits w) with
  | .ok (i, _) => some i
  | .error _ => none

end Sys2Proof
end

