-- ==== Sys2Proof/Machine/State.lean ====
section
/-! DEFINITION. The state of the machine: the registers of the five units, the two stores, the held offers, the streams,
the transport, the image source, the host's program and parameters, and the schedule (10_state.md; 45_session.md). -/

namespace Sys2Proof.Machine

/-- The values of `tx.state`, 10_state.md R28: which byte of the frame is offered next. -/
inductive TxState where
  | txIdle | txPre1 | txPre2 | txCmd | txLen | txPayload | txCsum | txTrl1 | txTrl2
  deriving DecidableEq, Repr

/-- TXF's registers, 10_state.md R28. -/
structure Txf where
  state : TxState
  cmd : Byte
  len : Byte
  /-- The payload of the frame in progress (log 11). -/
  pay : List Byte
  idx : Nat
  acc : Byte
  /-- A power-on reset has cut short the frame accepted last: `TxIdle` is then no sign that it was handed over whole
  (70_reset_and_hazards.md R265, R286). The model's own bit (log 21). -/
  cut : Bool
  deriving DecidableEq, Repr

/-- The values of `rx.state`, 10_state.md R30. -/
inductive RxState where
  | rest | idle | started | readCmd | readLen | readPayload | readChecksum | readTrailer1 | readTrailer2 | done | failed
  deriving DecidableEq, Repr

/-- The error kinds, 60_exceptions.md R235; a closed enumeration without numbers (R243). -/
inductive ErrorKind where
  | transportTimeout | framingError | checksumMismatch | imageDimensionError
  /-- Reserved by the document; nothing raises it (60_exceptions.md R240). -/
  | protocolSequenceError
  deriving DecidableEq, Repr

/-- The register `rx.result`, 10_state.md R29. -/
inductive RxStatus where
  | none | ok | fail (kind : ErrorKind)
  deriving DecidableEq, Repr

/-- RXF's registers, 10_state.md R29; `buf` is the RX payload buffer of 20_memory.md R51. The host has `result` and the
payload through `rx_result` (R26). -/
structure Rxf where
  state : RxState
  cmd : Byte
  len : Byte
  cnt : Nat
  acc : Byte
  buf : List Byte
  result : RxStatus
  deriving DecidableEq, Repr

/-- An item of the stream RX, 20_memory.md R52. -/
inductive RxItem where
  | byte (b : Byte) | timeout
  deriving DecidableEq, Repr

/-- A value of the channel `rx_result`, 10_state.md R21. -/
inductive RxResult where
  | ok (cmd : Byte) (payload : List Byte) | fail (kind : ErrorKind)
  deriving DecidableEq, Repr

/-- A pulse of the channel `rx_event`, 10_state.md R21. -/
inductive RxEvent where
  | malformedPreamble
  deriving DecidableEq, Repr

/-- The values of `pack.state`, 10_state.md R31. -/
inductive PackState where
  | pkIdle | pkFill
  deriving DecidableEq, Repr

/-- PACK's registers, 10_state.md R31. -/
structure Pack where
  state : PackState
  x : Nat
  y : Nat
  deriving DecidableEq, Repr

/-- A value of the channel `pack_result`, 10_state.md R21. -/
inductive PackResult where
  | ok | fail (kind : ErrorKind)
  deriving DecidableEq, Repr

/-- The values of `rle.state`, 10_state.md R32. -/
inductive RleState where
  | rlIdle | rlScan
  deriving DecidableEq, Repr

/-- RLE's registers, 10_state.md R32. -/
structure Rle where
  state : RleState
  r : Nat
  runOpen : Bool
  runStart : Nat
  runCount : Nat
  deriving DecidableEq, Repr

/-- A RowRecord, 30_encoding.md R84 and R85, in the widths of 92_eei_decisions.md D15. -/
inductive Record where
  | blankRun (startRow : Half) (count : Byte)
  | pixelRow (rowNumber setBits repeatCount : Half) (packed : List Byte)
  deriving DecidableEq, Repr

/-- What the environment has seen and given: the streams of 20_memory.md R52 and the values of the result channels of
10_state.md R21, oldest first. The receiver of a result channel is always ready, so a value is received in the step that
emits it and is never lost; the host reads it here in its own turn. The model's own logs (log 12). -/
structure Streams where
  /-- Stream TX: the bytes the transport has taken. -/
  tx : List Byte
  /-- Stream RX: the items RXF has taken. -/
  rx : List RxItem
  /-- Stream REC: the records taken from `rec_out`. -/
  records : List Record
  rxResults : List RxResult
  rxEvents : List RxEvent
  packResults : List PackResult
  rleDones : Nat
  deriving DecidableEq, Repr

/-- The transport, 10_state.md R22 and R35. -/
structure Transport where
  /-- The receive FIFO: bytes arrived and not yet taken by RXF, oldest first. -/
  fifo : List Byte
  /-- The host has acquired the transport (log 16). -/
  isOpen : Bool
  deriving DecidableEq, Repr

/-- The phases of a session, 45_session.md R210; `none` is no session begun (log 15). -/
inductive Phase where
  | none | precheck | setup | printStart | pageStart | pageSize | rowStream | pageEndHandshake | statusPoll | printEnd
  deriving DecidableEq, Repr

/-- What the host reads out of the response it awaits, 45_session.md R212, R220 and R232. -/
inductive Expect where
  /-- The result is not examined. -/
  | any
  /-- The ok/error byte of set-density and set-label-type. -/
  | ack
  /-- The five fields of status-poll. -/
  | status
  deriving DecidableEq, Repr

/-- One operation of the host's program (30_encoding.md R88, 45_session.md). An operation whose channel is not ready
stays at the head of the program: the offer is held (10_state.md R21). -/
inductive HostOp where
  /-- Acquire and release the transport, 70_reset_and_hazards.md R268. -/
  | openPort | closePort
  /-- Offer on `tx_req` the requests these words spell, one after the other (log 1). -/
  | send (words : List Byte)
  /-- Offer on `tx_req` the (cmd, payload) of an instruction, of any length (40_framer_tx.md R102). -/
  | offer (i : Instr)
  /-- Wait until TXF has sent its frame whole, 45_session.md R221. -/
  | txWait
  /-- Offer `rx_start`. -/
  | rxStart
  /-- One decode attempt, 45_session.md R222; `awaiting` is its second half, waiting on `rx_result`, with the number of
  results there were before. -/
  | await (expect : Expect) | awaiting (expect : Expect) (seen : Nat)
  /-- Offer `pack_start(W, H)`. -/
  | packStart (width height : Nat)
  /-- The precheck, 45_session.md R211: `pack_start`, then wait on `pack_result`; `packing` is its second half, with the
  number of results there were before. -/
  | pack (width height : Nat) | packing (seen : Nat)
  /-- Offer `rle_start`. -/
  | rleStart
  /-- The row stream, 45_session.md R217: `rle_start`, then wait on `rle_done` while SER sends the records; `streaming` is
  its second half, with the number of pulses there were before. -/
  | stream | streaming (seen : Nat)
  /-- Take one record from `rec_out` in SER's place, 10_state.md R21 ("SER (or Host)"). -/
  | takeRecord
  /-- The poll pause, 45_session.md R220. -/
  | pause
  /-- Enter a phase, 45_session.md R210. -/
  | enter (phase : Phase)
  /-- Begin a session on an image of this size, 45_session.md. -/
  | session (width height : Nat)
  /-- Step S10's frame has been accepted: wait until it has been handed over whole, and note the end of the session
  (45_session.md R221, 70_reset_and_hazards.md R286). -/
  | finish
  deriving DecidableEq, Repr

/-- How a session ended, 70_reset_and_hazards.md R286. -/
inductive SessionEnd where
  /-- Step S10's frame has been handed to the transport whole. -/
  | complete
  /-- Ended early by ImageDimensionError. -/
  | imageDimensionError
  /-- Ended early by ON_ERROR = Abort. -/
  | abort
  deriving DecidableEq, Repr

/-- The host, PrintSession: its remaining program and what it has read. That the session is over shows before the host's
turn notes it: `sessionOver` (log 15). -/
structure HostSide where
  prog : List HostOp
  phase : Phase
  /-- The ok/error byte last read (45_session.md R232). -/
  ack : Option Byte
  /-- The status fields last read (45_session.md R220). -/
  status : Option StatusFields
  /-- How the session ended, as the host has noted it; none while it goes on and before any. -/
  ended : Option SessionEnd
  deriving DecidableEq, Repr

/-- ON_ERROR, 45_session.md R224. -/
inductive OnError where
  | continue | abort
  deriving DecidableEq, Repr

/-- The values of DENSITY, 1..5 (00_scope.md R6), which the host must keep (45_session.md R232). -/
abbrev Density := { d : Byte // 1 ≤ d.toNat ∧ d.toNat ≤ 5 }

/-- The values of LABEL_TYPE, 1..3 (00_scope.md R6), which the host must keep (45_session.md R232). -/
abbrev LabelType := { t : Byte // 1 ≤ t.toNat ∧ t.toNat ≤ 3 }

/-- The bounded values of RX_FIFO_DEPTH, a positive integer (00_scope.md R6). -/
abbrev Depth := { n : Nat // 0 < n }

/-- The parameters of 00_scope.md R6 that a rule depends on. -/
structure Params where
  density : Density
  labelType : LabelType
  onError : OnError
  /-- RX_FIFO_DEPTH; `none` is unbounded (92_eei_decisions.md D6). -/
  fifoDepth : Option Depth
  deriving DecidableEq, Repr

/-- Whose turn it is to make one move (92_eei_decisions.md D1; log 3). -/
inductive Turn where
  /-- The host performs the operation at the head of its program. -/
  | host
  /-- The transport takes the byte offered on `tx_byte`. -/
  | takeTx
  /-- A byte from the remote printer arrives in the FIFO. -/
  | arrive (b : Byte)
  /-- The transport delivers the oldest byte of the FIFO on `rx_byte`. -/
  | deliver
  /-- The transport delivers `rx_timeout`. -/
  | timeout
  /-- The image source delivers the next pixel on `pix_in`. -/
  | pixel
  /-- RLE makes one step of its scan. -/
  | scan
  /-- SER hands the record offered on `rec_out` to `tx_req`. -/
  | ser
  /-- Power-on reset of the block (70_reset_and_hazards.md R265). -/
  | powerOn
  deriving DecidableEq, Repr

/-- The machine's state. -/
structure State where
  tx : Txf
  rx : Rxf
  pack : Pack
  rle : Rle
  /-- The bitmap store, 20_memory.md R50: cells in rising address order, none of them zero. -/
  bmp : List Host.Cell
  /-- A pack has ended with `Ok` and none has begun since (20_memory.md R65; log 6). -/
  bmpValid : Bool
  /-- The records of RLE's unfinished step, offered on `rec_out` and not yet taken, first one first (log 8). -/
  recOut : List Record
  out : Streams
  line : Transport
  /-- The red values the image source has not yet delivered, in raster order. -/
  pixels : List Nat
  host : HostSide
  par : Params
  /-- The coming turns. -/
  turns : List Turn
  /-- The turns that repeat for ever once `turns` is used up (41_framer_rx.md R134; log 3). -/
  cycle : List Turn
  deriving DecidableEq, Repr

/-- Why the machine stops with a fault: an access to an address the spec says does not exist. No rule forms one
(20_memory.md R50, R51), so no state that meets the invariant raises one; all are safe. -/
inductive Fault where
  /-- Raised by PACK's write when (y, i) is outside the bitmap store (20_memory.md R50). Safe. -/
  | bitmapAddress
  /-- Raised by RXF in `ReadPayload` when `rx.cnt` is past the 255 bytes of the buffer (20_memory.md R51). Safe. -/
  | rxBufferIndex
  /-- Raised by TXF in `TxPayload` when `tx.idx` is past the payload (10_state.md R28). Safe. -/
  | txPayloadIndex
  deriving DecidableEq, Repr

/-- Why the model gives no meaning to a move. -/
inductive Refusal where
  /-- Raised by `exec` for an instruction without a meaning yet; none is left. Safe. -/
  | notModelled (mnemonic : String)
  /-- Raised by a request of more than 255 payload bytes (40_framer_tx.md R102). Safe. -/
  | payloadTooLong
  /-- Raised by the host's turn when the words at the head of its program are no request. Safe. -/
  | badRequest (why : DecodeError)
  /-- Raised by `rle_start` on a bitmap store that no successful pack has filled (93_implementation_defined.md U11).
  Safe. -/
  | rleOnUndefinedBitmap
  /-- Raised by `pack_start` while RLE is scanning (70_reset_and_hazards.md R279). Safe. -/
  | packDuringScan
  /-- Raised by an arriving byte when a bounded FIFO is full (93_implementation_defined.md U15). Safe. -/
  | rxFifoOverflow
  deriving DecidableEq, Repr

/-- Every step's answer. -/
abbrev Answer := Host.Outcome State Fault Refusal

/-- TXF after reset, 10_state.md R36; the unspecified registers hold 0 (log 4). -/
def Txf.reset : Txf := ⟨.txIdle, 0, 0, [], 0, 0, false⟩

/-- RXF after reset, 10_state.md R36; the unspecified registers hold 0 (log 4). -/
def Rxf.reset : Rxf := ⟨.rest, 0, 0, 0, 0, List.replicate 255 0, .none⟩

/-- PACK after reset, 10_state.md R36; the unspecified registers hold 0 (log 4). -/
def Pack.reset : Pack := ⟨.pkIdle, 0, 0⟩

/-- RLE after reset, 10_state.md R36; the unspecified registers hold 0 (log 4). -/
def Rle.reset : Rle := ⟨.rlIdle, 0, false, 0, 0⟩

/-- The machine after power-on reset (10_state.md R36, 70_reset_and_hazards.md R265): every unit idle or resting, nothing
offered, nothing sent or received; the parameters at the reference values of 00_scope.md R6 (logs 4, 5, 12 to 16). -/
def State.reset : State where
  tx := Txf.reset
  rx := Rxf.reset
  pack := Pack.reset
  rle := Rle.reset
  bmp := []
  bmpValid := false
  recOut := []
  out := ⟨[], [], [], [], [], [], 0⟩
  line := ⟨[], false⟩
  pixels := []
  host := ⟨[], .none, none, none, none⟩
  par := ⟨⟨3, by decide⟩, ⟨1, by decide⟩, .continue, none⟩
  turns := []
  cycle := []

end Sys2Proof.Machine
end

