-- ==== Sys2Proof/Machine/Ops.lean ====
section
/-! DEFINITION. The shared operations: the updates of the state, the bitmap store, the request to TXF, the failure of a
decode attempt (the analogue of taking an exception, 60_exceptions.md R247) and the new attempt (the analogue of the
return, R248). -/

namespace Sys2Proof.Machine

/-! ### Updates of the state -/

def State.withTx (s : State) (t : Txf) : State := { s with tx := t }
def State.withRx (s : State) (r : Rxf) : State := { s with rx := r }
def State.withPack (s : State) (p : Pack) : State := { s with pack := p }
def State.withRle (s : State) (r : Rle) : State := { s with rle := r }
def State.withBmp (s : State) (m : List Host.Cell) : State := { s with bmp := m }
def State.withBmpValid (s : State) (v : Bool) : State := { s with bmpValid := v }
def State.withRecOut (s : State) (rs : List Record) : State := { s with recOut := rs }
def State.withOut (s : State) (o : Streams) : State := { s with out := o }
def State.withLine (s : State) (l : Transport) : State := { s with line := l }
def State.withPixels (s : State) (ps : List Nat) : State := { s with pixels := ps }
def State.withHost (s : State) (h : HostSide) : State := { s with host := h }
def State.withTurns (s : State) (ts : List Turn) : State := { s with turns := ts }

/-- The host's remaining program. -/
def State.withProg (s : State) (prog : List HostOp) : State := s.withHost { s.host with prog := prog }

/-! ### The bitmap store (20_memory.md R50) -/

/-- One byte of the store; an unlisted byte reads as 0 (log 5). -/
def Memory.get : List Host.Cell → Nat → Byte
  | [], _ => 0
  | c :: m, a => if c.1 = a then c.2 else Memory.get m a

/-- Write one byte and keep the canonical form: rising addresses, no zero byte listed. -/
def Memory.set : List Host.Cell → Nat → Byte → List Host.Cell
  | [], a, b => if b = 0 then [] else [(a, b)]
  | c :: m, a, b =>
    if a < c.1 then (if b = 0 then c :: m else (a, b) :: c :: m)
    else if a = c.1 then (if b = 0 then m else (a, b) :: m)
    else c :: Memory.set m a b

/-- The number of bytes of the store: 240 * 50 (20_memory.md R50). -/
def bmpSize : Nat := Config.rows * Config.rowBytes

/-- The canonical form: addresses strictly rising and inside the store, no byte zero. -/
def Memory.wf (m : List Host.Cell) : Bool :=
  decide (m.Pairwise (fun c d => c.1 < d.1)) && m.all (fun c => decide (c.1 < bmpSize) && c.2 != 0)

/-- `MemRead((y, i), 1)`: none outside the store. -/
def bmpRead (s : State) (y i : Nat) : Option Byte :=
  if y < Config.rows ∧ i < Config.rowBytes then some (Memory.get s.bmp (bmpAddr y i)) else none

/-- `MemWrite((y, i), 1, v)`: none outside the store. -/
def bmpWrite (s : State) (y i : Nat) (v : Byte) : Option State :=
  if y < Config.rows ∧ i < Config.rowBytes then some (s.withBmp (Memory.set s.bmp (bmpAddr y i) v)) else none

/-- `MemRead((y, 0), 50)`: the packed row `y`. -/
def bmpRow (m : List Host.Cell) (y : Nat) : List Byte :=
  (List.range Config.rowBytes).map (fun i => Memory.get m (bmpAddr y i))

/-! ### The request channel of TXF (40_framer_tx.md R102, R105, R106) -/

/-- TXF's registers after it has accepted a request in `TxIdle`, 40_framer_tx.md R105; `tx.acc` is not written. -/
def txLatch (t : Txf) (cmd : Byte) (payload : List Byte) : Txf :=
  { t with cmd := cmd, len := lenByte payload, pay := payload, idx := 0, state := .txPre1, cut := false }

/-- The frame accepted last has been handed to the transport whole: TXF is in `TxIdle` and no power-on reset has cut the
frame short (45_session.md R221, 70_reset_and_hazards.md R265, R286; log 21). -/
def Txf.handedOver (t : Txf) : Bool := t.state == .txIdle && !t.cut

/-- A value offered on `tx_req`. In `TxIdle` it is accepted (R105); in any other state TXF is not ready and the offer is
held, nothing changes (10_state.md R21; R106); with more than 255 payload bytes it is refused (R102). -/
def txRequest (cmd : Byte) (payload : List Byte) (s : State) : Answer :=
  if Config.maxLen < payload.length then .refused .payloadTooLong
  else match s.tx.state with
    | .txIdle => .next (s.withTx (txLatch s.tx cmd payload))
    | _ => .next s

/-! ### Failing an attempt and beginning one -/

/-- `raise K` in RXF, 41_framer_rx.md R129: the result and the state are written; the other registers are kept. -/
def rxFail (kind : ErrorKind) (r : Rxf) : Rxf := { r with result := .fail kind, state := .failed }

/-- `rx_start` in a resting state, 41_framer_rx.md R118: nothing else is cleared. -/
def rxBegin (r : Rxf) : Rxf := { r with result := .none, state := .idle }

/-- The three resting states, 10_state.md R30. -/
def RxState.resting : RxState → Bool
  | .rest | .done | .failed => true
  | .idle | .started | .readCmd | .readLen | .readPayload | .readChecksum | .readTrailer1 | .readTrailer2 => false

/-- The eight active states, 10_state.md R30. -/
def RxState.active (st : RxState) : Bool := !st.resting

end Sys2Proof.Machine
end

