-- ==== Sys2Proof/Machine/Frame.lean ====
section
/-! DEFINITION. The generic frame (30_encoding.md R81; 40_framer_tx.md R101). -/

namespace Sys2Proof.Machine

/-- `frame`, 40_framer_tx.md R100 and R101: any opcode with any payload of at most 255 bytes. -/
def execFrame (cmd : Byte) (payload : List Byte) (s : State) : Answer := txRequest cmd payload s

end Sys2Proof.Machine
end

