-- ==== Sys2Proof/Machine/Page.lean ====
section
/-! DEFINITION. The commands of a page: page-start, set-page-size, page-end (44_commands.md R190, R191, R194). -/

namespace Sys2Proof.Machine

/-- `page-start`, 44_commands.md R190: `cmd = 0x03`, one payload byte. -/
def execPageStart (one : Byte) (s : State) : Answer := txRequest Config.cmdPageStart [one] s

/-- `set-page-size`, 44_commands.md R191: `cmd = 0x13`, rows, columns and copies as three two-byte fields. -/
def execSetPageSize (rows cols copies : Half) (s : State) : Answer :=
  txRequest Config.cmdSetPageSize (setPageSizePayload rows cols copies) s

/-- `page-end`, 44_commands.md R194: `cmd = 0xE3`, one payload byte. -/
def execPageEnd (one : Byte) (s : State) : Answer := txRequest Config.cmdPageEnd [one] s

end Sys2Proof.Machine
end

