-- ==== Sys2Proof/Machine/RowRuns.lean ====
section
/-! DEFINITION. RLE (43_rle.md): the stepwise realisation of R176 and the function of R165. -/

namespace Sys2Proof.Machine

/-- The BlankRun record of a run of rows, 30_encoding.md R84. -/
def blankRunRecord (start count : Nat) : Record := .blankRun (BitVec.ofNat 16 start) (BitVec.ofNat 8 count)

/-- The PixelRow record of a row, 30_encoding.md R85: its number, its set-bit count, the repeat count 1, its bytes. -/
def pixelRowRecord (r : Nat) (row : List Byte) : Record :=
  .pixelRow (BitVec.ofNat 16 r) (BitVec.ofNat 16 (setBitCount row)) Config.repeatCount row

/-- The record of RLE's open run, if one is open. -/
def openRun (r : Rle) : List Record := if r.runOpen then [blankRunRecord r.runStart r.runCount] else []

/-- RLE's registers after the step that examines a row, 43_rle.md R176. -/
def rleExamine (row : List Byte) (r : Rle) : Rle :=
  if rowBlank row then
    if r.runOpen then { r with runCount := r.runCount + 1, r := r.r + 1 }
    else { r with runOpen := true, runStart := r.r, runCount := 1, r := r.r + 1 }
  else { r with runOpen := false, r := r.r + 1 }

/-- The records of that step, in order, 43_rle.md R168: a BlankRun that the row closes comes before its PixelRow. -/
def rleRecords (row : List Byte) (r : Rle) : List Record :=
  if rowBlank row then [] else openRun r ++ [pixelRowRecord r.r row]

/-- `rle_start` in `RlIdle`, 43_rle.md R176. -/
def rleBegin (r : Rle) : Rle := { r with r := 0, runOpen := false, state := .rlScan }

/-- The records the step at the row `rle.r` emits, in order, 43_rle.md R176; at `rle.r = 240` the open run's. -/
def stepRecords (m : List Host.Cell) (r : Rle) : List Record :=
  if r.r < Config.rows then rleRecords (bmpRow m r.r) r else openRun r

/-- RLE's registers at the end of that step (43_rle.md R176). -/
def rleAfterStep (m : List Host.Cell) (r : Rle) : Rle :=
  match r.state with
  | .rlIdle => r
  | .rlScan => if r.r < Config.rows then rleExamine (bmpRow m r.r) r else { r with runOpen := false, state := .rlIdle }

/-- The pulses of `rle_done` at the end of that step. -/
def donePulses (r : Rle) : Nat := if r.state = .rlScan ∧ Config.rows ≤ r.r then 1 else 0

/-- The end of RLE's step, where its register writes take effect (00_scope.md R9). -/
def rleEndStep (s : State) : State :=
  (s.withRle (rleAfterStep s.bmp s.rle)).withOut { s.out with rleDones := s.out.rleDones + donePulses s.rle }

/-- RLE's turn. A step that emits no record ends at once; one that emits records offers them and ends when the consumer
has taken them, so while one is held nothing moves (43_rle.md R176, R177). -/
def turnScan (s : State) : Answer :=
  match s.rle.state with
  | .rlIdle => .next s
  | .rlScan =>
    if s.recOut ≠ [] then .next s
    else if Config.rows < s.rle.r then .fault .bitmapAddress
    else if stepRecords s.bmp s.rle = [] then .next (rleEndStep s)
    else .next (s.withRecOut (stepRecords s.bmp s.rle))

/-- A record leaves `rec_out`; with the last one of RLE's step the step ends (43_rle.md R176). -/
def takeRecord (s : State) : State :=
  match s.recOut with
  | [] => s
  | [record] => rleEndStep ((s.withRecOut []).withOut { s.out with records := s.out.records ++ [record] })
  | record :: rest => (s.withRecOut rest).withOut { s.out with records := s.out.records ++ [record] }

/-- The loop of `compress`, 43_rle.md R165, over the rows from number `r` on; `run` is the open run's start and count. -/
def compressFrom (r : Nat) (run : Option (Nat × Nat)) : List (List Byte) → List Record
  | [] => match run with
    | none => []
    | some (start, count) => [blankRunRecord start count]
  | row :: rows =>
    if rowBlank row then
      match run with
      | none => compressFrom (r + 1) (some (r, 1)) rows
      | some (start, count) => compressFrom (r + 1) (some (start, count + 1)) rows
    else
      match run with
      | none => pixelRowRecord r row :: compressFrom (r + 1) none rows
      | some (start, count) => blankRunRecord start count :: pixelRowRecord r row :: compressFrom (r + 1) none rows

/-- `compress(bitmap)`, 43_rle.md R165. -/
def compress (rows : List (List Byte)) : List Record := compressFrom 0 none rows

/-- The rows of the bitmap store. -/
def bmpRows (m : List Host.Cell) : List (List Byte) := (List.range Config.rows).map (bmpRow m)

/-- The rows a record stands for, 30_encoding.md R86: row numbers with their bytes. -/
def expandRecord : Record → List (Nat × List Byte)
  | .blankRun start count =>
    (List.range count.toNat).map (fun k => (start.toNat + k, List.replicate Config.rowBytes 0))
  | .pixelRow row _ _ packed => [(row.toNat, packed)]

/-- The expansion of a record sequence, 30_encoding.md R86. -/
def expandRecords (records : List Record) : List (Nat × List Byte) := records.flatMap expandRecord

/-- The row a record begins at: `start_row` or `row_number` (43_rle.md R172). -/
def Record.row : Record → Nat
  | .blankRun start _ => start.toNat
  | .pixelRow row _ _ _ => row.toNat

/-- The record is a BlankRun. -/
def Record.isBlank : Record → Bool
  | .blankRun .. => true
  | .pixelRow .. => false

end Sys2Proof.Machine
end

