-- ==== Sys2Proof/Machine/RowStream.lean ====
section
/-! DEFINITION. The commands of the row stream, blank-rows and pixel-row (44_commands.md R192, R193), and SER, which makes
them from records (R185). -/

namespace Sys2Proof.Machine

/-- `blank-rows`, 44_commands.md R192: `cmd = 0x84`, start row and count. -/
def execBlankRows (startRow : Half) (count : Byte) (s : State) : Answer :=
  txRequest Config.cmdBlankRows (blankRowsPayload startRow count) s

/-- `pixel-row`, 44_commands.md R193: `cmd = 0x85`, the six header bytes and the packed bytes. -/
def execPixelRow (row setBits repeatCount : Half) (packed : List Byte) (s : State) : Answer :=
  txRequest Config.cmdPixelRow (pixelRowPayload row setBits repeatCount packed) s

/-- `serialise(record)`, 44_commands.md R185. -/
def serialise : Record → Byte × List Byte
  | .blankRun start count => (Config.cmdBlankRows, blankRowsPayload start count)
  | .pixelRow row setBits repeatCount packed => (Config.cmdPixelRow, pixelRowPayload row setBits repeatCount packed)

/-- SER's turn: it offers the pair of the record on `rec_out`; the record is taken when TXF takes the pair, until then
both are held (10_state.md R21, R33; log 9). -/
def turnSer (s : State) : Answer :=
  match s.recOut with
  | [] => .next s
  | record :: _ =>
    if s.tx.state = .txIdle then txRequest (serialise record).1 (serialise record).2 (takeRecord s) else .next s

end Sys2Proof.Machine
end

