-- ==== Sys2Proof/Machine/Setup.lean ====
section
/-! DEFINITION. The commands of the session's setup: set-density, set-label-type, print-start (44_commands.md R187 to
R189). The block frames a command, it does not execute it: each meaning is the offer of its (cmd, payload) on `tx_req`. -/

namespace Sys2Proof.Machine

/-- `set-density`, 44_commands.md R187: `cmd = 0x21`, payload byte 0 the density; any byte is framed. -/
def execSetDensity (density : Byte) (s : State) : Answer := txRequest Config.cmdSetDensity [density] s

/-- `set-label-type`, 44_commands.md R188: `cmd = 0x23`, payload byte 0 the label type; any byte is framed. -/
def execSetLabelType (labelType : Byte) (s : State) : Answer := txRequest Config.cmdSetLabelType [labelType] s

/-- `print-start`, 44_commands.md R189: `cmd = 0x01`, the page count, then five reserved bytes. -/
def execPrintStart (pages : Half) (r0 r1 r2 r3 r4 : Byte) (s : State) : Answer :=
  txRequest Config.cmdPrintStart (printStartPayload pages r0 r1 r2 r3 r4) s

end Sys2Proof.Machine
end

