-- ==== Sys2Proof/Machine/Status.lean ====
section
/-! DEFINITION. The commands that close a session: status-poll and print-end (44_commands.md R195, R196). -/

namespace Sys2Proof.Machine

/-- `status-poll`, 44_commands.md R195: `cmd = 0xA3`, empty payload. -/
def execStatusPoll (s : State) : Answer := txRequest Config.cmdStatusPoll [] s

/-- `print-end`, 44_commands.md R196: `cmd = 0xF3`, one payload byte. -/
def execPrintEnd (one : Byte) (s : State) : Answer := txRequest Config.cmdPrintEnd [one] s

end Sys2Proof.Machine
end

