-- ==== Sys2Proof/Machine/Dispatch.lean ====
section
/-! DEFINITION. The meaning of each instruction: the request the host makes of the transmit framer. -/

namespace Sys2Proof.Machine

def exec (i : Instr) (s : State) : Host.Outcome State Fault Refusal :=
  match i with
  | .printStart pages r0 r1 r2 r3 r4 => Sys2Proof.Machine.execPrintStart pages r0 r1 r2 r3 r4 s
  | .pageStart one => Sys2Proof.Machine.execPageStart one s
  | .setPageSize rows cols copies => Sys2Proof.Machine.execSetPageSize rows cols copies s
  | .setDensity density => Sys2Proof.Machine.execSetDensity density s
  | .setLabelType labelType => Sys2Proof.Machine.execSetLabelType labelType s
  | .blankRows startRow count => Sys2Proof.Machine.execBlankRows startRow count s
  | .pixelRow row setBits repeatCount packed => Sys2Proof.Machine.execPixelRow row setBits repeatCount packed s
  | .statusPoll => Sys2Proof.Machine.execStatusPoll s
  | .pageEnd one => Sys2Proof.Machine.execPageEnd one s
  | .printEnd one => Sys2Proof.Machine.execPrintEnd one s
  | .frame cmd payload => Sys2Proof.Machine.execFrame cmd payload s

end Sys2Proof.Machine
end

