-- ==== Sys2Proof/Machine/Packer.lean ====
section
/-! DEFINITION. PACK (42_packer.md): the stepwise realisation of R155 and the function of R150. -/

namespace Sys2Proof.Machine

/-- An image: its size, and the red values in raster order (10_state.md R23). -/
structure Image where
  width : Nat
  height : Nat
  reds : List Nat
  deriving DecidableEq, Repr

/-- The dimension check, 42_packer.md R151: exactly 400 x 240. -/
def goodSize (width height : Nat) : Bool := width == Config.cols && height == Config.rows

/-- One value on `pack_result`. -/
def packAnswer (r : PackResult) (s : State) : State := s.withOut { s.out with packResults := s.out.packResults ++ [r] }

/-- `pack_start(W, H)` in `PkIdle`, 42_packer.md R151 and R155. The store's content is unspecified from here until the
pack's `Ok`, and after the error (R151, R157). -/
def packBegin (width height : Nat) (s : State) : State :=
  if goodSize width height then (s.withPack ⟨.pkFill, 0, 0⟩).withBmpValid false
  else packAnswer (.fail .imageDimensionError) (s.withBmpValid false)

/-- Where PACK goes after the pixel (x, y), 42_packer.md R155. -/
def packNext (p : Pack) : Pack :=
  if p.x < 399 then { p with x := p.x + 1 }
  else if p.y < 239 then { p with x := 0, y := p.y + 1 }
  else { p with state := .pkIdle }

/-- The byte written at a pixel: a byte starts from zero at its first pixel (42_packer.md R155). -/
def packByte (red x : Nat) (old : Byte) : Byte := (if x % 8 = 0 then 0 else old) + inkWeight red x

/-- One `pix_in` in `PkFill`, 42_packer.md R155; at the last pixel PACK returns to `PkIdle` and answers `Ok`. -/
def packPixel (red : Nat) (s : State) : Answer :=
  match bmpRead s s.pack.y (pixelByte s.pack.x) with
  | none => .fault .bitmapAddress
  | some old =>
    match bmpWrite s s.pack.y (pixelByte s.pack.x) (packByte red s.pack.x old) with
    | none => .fault .bitmapAddress
    | some s1 =>
      if (packNext s.pack).state = .pkIdle then
        .next (packAnswer .ok ((s1.withPack (packNext s.pack)).withBmpValid true))
      else .next (s1.withPack (packNext s.pack))

/-- The image source's turn: a pixel is taken only in `PkFill` (10_state.md R21). -/
def turnPixel (s : State) : Answer :=
  match s.pack.state, s.pixels with
  | .pkFill, red :: rest => packPixel red (s.withPixels rest)
  | _, _ => .next s

/-- One packed byte from the red values of its eight pixels, leftmost first (42_packer.md R150). -/
def packEight (reds : List Nat) : Byte :=
  ((reds.take 8).zipIdx.map (fun p => inkWeight p.1 p.2)).foldl (fun a b => a + b) 0

/-- The packed bytes of `n` groups of eight red values in raster order; a row is a whole number of groups (20_memory.md
R56). -/
def packGroups : Nat → List Nat → List Byte
  | 0, _ => []
  | n + 1, reds => packEight reds :: packGroups n (reds.drop 8)

/-- `pack(image)`, 42_packer.md R150: the 12000 bytes of the bitmap in address order, or ImageDimensionError. -/
def packImage (image : Image) : Except ErrorKind (List Byte) :=
  if goodSize image.width image.height then .ok (packGroups bmpSize image.reds) else .error .imageDimensionError

end Sys2Proof.Machine
end

