-- ==== Sys2Proof/Machine/Rx.lean ====
section
/-! DEFINITION. RXF: one function per state (41_framer_rx.md R119 to R128), the transition function, Decode as a function
(R135), and the transport's deliveries. -/

namespace Sys2Proof.Machine

/-- `Idle`, 41_framer_rx.md R119. -/
def rxIdle (b : Byte) (r : Rxf) : Rxf := if b = Config.pre then { r with state := .started } else { r with state := .idle }

/-- `Started`, 41_framer_rx.md R120: a byte other than 0x55 resynchronises, it does not fail. -/
def rxStarted (b : Byte) (r : Rxf) : Rxf :=
  if b = Config.pre then { r with state := .readCmd } else { r with state := .idle }

/-- `ReadCmd`, 41_framer_rx.md R121: the running XOR starts here. -/
def rxReadCmd (b : Byte) (r : Rxf) : Rxf := { r with cmd := b, acc := b, state := .readLen }

/-- `ReadLen`, 41_framer_rx.md R122. -/
def rxReadLen (b : Byte) (r : Rxf) : Rxf :=
  { r with len := b, cnt := 0, acc := r.acc ^^^ b, state := if b = 0 then .readChecksum else .readPayload }

/-- `ReadPayload`, 41_framer_rx.md R123: the test uses `rx.cnt` before the increment. -/
def rxReadPayload (b : Byte) (r : Rxf) : Rxf :=
  { r with
    buf := r.buf.set r.cnt b, acc := r.acc ^^^ b, cnt := r.cnt + 1,
    state := if r.cnt + 1 = r.len.toNat then .readChecksum else .readPayload }

/-- `ReadChecksum`, 41_framer_rx.md R124. -/
def rxReadChecksum (b : Byte) (r : Rxf) : Rxf :=
  if b = r.acc then { r with state := .readTrailer1 } else rxFail .checksumMismatch r

/-- `ReadTrailer1`, 41_framer_rx.md R125. -/
def rxReadTrailer1 (b : Byte) (r : Rxf) : Rxf :=
  if b = Config.trl then { r with state := .readTrailer2 } else rxFail .framingError r

/-- `ReadTrailer2`, 41_framer_rx.md R126. -/
def rxReadTrailer2 (b : Byte) (r : Rxf) : Rxf :=
  if b = Config.trl then { r with result := .ok, state := .done } else rxFail .framingError r

/-- RXF's registers after it has taken an item; a resting state takes none (41_framer_rx.md R116). -/
def rxStep (item : RxItem) (r : Rxf) : Rxf :=
  match r.state, item with
  | .rest, _ => r
  | .done, _ => r
  | .failed, _ => r
  | .idle, .byte b => rxIdle b r
  | .started, .byte b => rxStarted b r
  | .readCmd, .byte b => rxReadCmd b r
  | .readLen, .byte b => rxReadLen b r
  | .readPayload, .byte b => rxReadPayload b r
  | .readChecksum, .byte b => rxReadChecksum b r
  | .readTrailer1, .byte b => rxReadTrailer1 b r
  | .readTrailer2, .byte b => rxReadTrailer2 b r
  | _, .timeout => rxFail .transportTimeout r

/-- The pulses of `rx_event` in the step that takes an item (41_framer_rx.md R120). -/
def rxEvents (item : RxItem) (r : Rxf) : List RxEvent :=
  match r.state, item with
  | .started, .byte b => if b = Config.pre then [] else [.malformedPreamble]
  | _, _ => []

/-- The payload RXF yields in `Done`: `rx.buf[0 .. rx.len - 1]` (41_framer_rx.md R127). -/
def rxPayload (r : Rxf) : List Byte := r.buf.take r.len.toNat

/-- The values of `rx_result` emitted on arriving in a resting state, by the register `rx.result` (10_state.md R26):
`Ok(cmd, payload)` in `Done`, the kind alone in `Failed` (41_framer_rx.md R126, R129). -/
def rxOutcome (r : Rxf) : List RxResult :=
  match r.state, r.result with
  | .done, .ok => [.ok r.cmd (rxPayload r)]
  | .failed, .fail kind => [.fail kind]
  | _, _ => []

/-- RXF takes one item. -/
def rxTake (item : RxItem) (s : State) : Answer :=
  if s.rx.state.resting then .next s
  else if s.rx.state = .readPayload ∧ item ≠ .timeout ∧ Config.maxLen ≤ s.rx.cnt then .fault .rxBufferIndex
  else .next ((s.withRx (rxStep item s.rx)).withOut
    { s.out with
      rx := s.out.rx ++ [item]
      rxEvents := s.out.rxEvents ++ rxEvents item s.rx
      rxResults := s.out.rxResults ++ rxOutcome (rxStep item s.rx) })

/-- The transport's turn to deliver: only in an active state, only a byte that is there (41_framer_rx.md R116; 10_state.md
R35; log 16). -/
def turnDeliver (s : State) : Answer :=
  if s.line.isOpen = false ∨ s.rx.state.resting then .next s
  else match s.line.fifo with
    | [] => .next s
    | b :: rest => rxTake (.byte b) (s.withLine { s.line with fifo := rest })

/-- The transport's turn to deliver a timeout: only in an active state and only when no byte is waiting
(70_reset_and_hazards.md R285). -/
def turnTimeout (s : State) : Answer :=
  if s.line.isOpen = false ∨ s.rx.state.resting then .next s
  else match s.line.fifo with
    | [] => rxTake .timeout s
    | _ => .next s

/-- A byte arrives from the remote printer. A bounded FIFO that is full refuses (93_implementation_defined.md U15; log
13). -/
def turnArrive (b : Byte) (s : State) : Answer :=
  let push := s.withLine { s.line with fifo := s.line.fifo ++ [b] }
  match s.par.fifoDepth with
  | none => .next push
  | some depth => if s.line.fifo.length < depth.val then .next push else .refused .rxFifoOverflow

/-- `run(s, regs, items)` of 41_framer_rx.md R135: the registers at the end of the attempt and the items left, or none when
the items run out in an active state. -/
def rxRun (r : Rxf) : List RxItem → Option (Rxf × List RxItem)
  | [] => none
  | item :: rest =>
    if (rxStep item r).state.resting then some (rxStep item r, rest) else rxRun (rxStep item r) rest

/-- `Decode(items)`, 41_framer_rx.md R115 and R135, from any registers: the result and the items left. -/
def decodeItems (r : Rxf) (items : List RxItem) : Option (List RxResult × List RxItem) :=
  (rxRun (rxBegin r) items).map (fun p => (rxOutcome p.1, p.2))

end Sys2Proof.Machine
end

