-- ==== Sys2Proof/Machine/Tx.lean ====
section
/-! DEFINITION. TXF's byte-serial steps (40_framer_tx.md R105). -/

namespace Sys2Proof.Machine

/-- The byte TXF offers on `tx_byte`, by its state (40_framer_tx.md R105); none in `TxIdle`, and none at a payload index
that does not exist. -/
def txOffer (t : Txf) : Option Byte :=
  match t.state with
  | .txIdle => none
  | .txPre1 | .txPre2 => some Config.pre
  | .txCmd => some t.cmd
  | .txLen => some t.len
  | .txPayload => t.pay[t.idx]?
  | .txCsum => some t.acc
  | .txTrl1 | .txTrl2 => some Config.trl

/-- TXF's registers after the transport has taken the offered byte `b` (40_framer_tx.md R105). -/
def txAdvance (b : Byte) (t : Txf) : Txf :=
  match t.state with
  | .txIdle => t
  | .txPre1 => { t with state := .txPre2 }
  | .txPre2 => { t with state := .txCmd }
  | .txCmd => { t with acc := t.cmd, state := .txLen }
  | .txLen => { t with acc := t.acc ^^^ t.len, state := if t.len = 0 then .txCsum else .txPayload }
  | .txPayload =>
    { t with acc := t.acc ^^^ b, idx := t.idx + 1, state := if t.idx + 1 = t.len.toNat then .txCsum else .txPayload }
  | .txCsum => { t with state := .txTrl1 }
  | .txTrl1 => { t with state := .txTrl2 }
  | .txTrl2 => { t with state := .txIdle }

/-- The transfer of one byte on `tx_byte`. -/
def txEmit (b : Byte) (s : State) : State :=
  (s.withTx (txAdvance b s.tx)).withOut { s.out with tx := s.out.tx ++ [b] }

/-- The transport's turn to take a byte: in `TxIdle`, or with the transport not acquired, nothing transfers (10_state.md
R21; log 16). -/
def turnTakeTx (s : State) : Answer :=
  if s.line.isOpen = false ∨ s.tx.state = .txIdle then .next s
  else match txOffer s.tx with
    | none => .fault .txPayloadIndex
    | some b => .next (txEmit b s)

end Sys2Proof.Machine
end

