-- ==== Sys2Proof/Machine/Session.lean ====
section
/-! DEFINITION. The host: its operations, one definition each, and the program of a session (45_session.md). An operation
that cannot go on leaves the state as it is: it stays at the head of the program (10_state.md R21). -/

namespace Sys2Proof.Machine

/-- The program after its head is done. -/
def hostPop (rest : List HostOp) (s : State) : State := s.withProg rest

/-- The session is over, for this reason; its remaining program is `rest`. -/
def hostEnd (why : SessionEnd) (rest : List HostOp) (s : State) : State :=
  s.withHost { s.host with prog := rest, ended := some why }

/-- The session ends early: nothing more is sent and the transport is released (45_session.md R211, R224; log 15). -/
def hostStop (why : SessionEnd) (s : State) : State := hostEnd why [.closePort] s

/-- `session`: its program comes before what follows it. -/
def hostBegin (program rest : List HostOp) (s : State) : State :=
  s.withHost { s.host with prog := program ++ rest, ended := none }

/-- `openPort` and `closePort`: acquire and release the transport (70_reset_and_hazards.md R268). The bytes waiting in its
FIFO are kept, by the model's choice (log 16). -/
def hostSetOpen (v : Bool) (rest : List HostOp) (s : State) : State :=
  hostPop rest (s.withLine { s.line with isOpen := v })

/-- The program after one request of a `send` has been taken: the words that follow it are the next requests. -/
def afterRequest (more : List Byte) (rest : List HostOp) : List HostOp :=
  if more.isEmpty then rest else .send more :: rest

/-- `offer`: execute an instruction; the host goes on with `next` when TXF is ready to take the request (`TxIdle`), else
the offer is held (10_state.md R21). -/
def hostOffer (i : Instr) (next : List HostOp) (s : State) : Answer :=
  if s.tx.state = .txIdle then exec i (hostPop next s) else exec i s

/-- `send`: fetch a request, decode it and execute it; when it is taken the host moves past its words. -/
def hostSend (words : List Byte) (rest : List HostOp) (s : State) : Answer :=
  match decode words with
  | .error e => .refused (.badRequest e)
  | .ok (i, more) => hostOffer i (afterRequest more rest) s

/-- `txWait`: wait until the frame has been handed to the transport whole (45_session.md R221, 70_reset_and_hazards.md R286).
After a power-on reset that cut it short the host waits on: the model's choice, log 21. -/
def hostTxWait (rest : List HostOp) (s : State) : State :=
  if s.tx.handedOver then hostPop rest s else s

/-- `finish`: with S10's frame handed over whole the session is over, and the host notes it (45_session.md R221,
70_reset_and_hazards.md R286); after a reset that cut the frame short it waits on, as `txWait` does. -/
def hostFinish (rest : List HostOp) (s : State) : State :=
  if s.tx.handedOver then hostEnd .complete rest s else s

/-- `rxStart`: RXF is ready in a resting state only (41_framer_rx.md R116, R118). -/
def hostRxStart (rest : List HostOp) (s : State) : State :=
  if s.rx.state.resting then hostPop rest (s.withRx (rxBegin s.rx)) else s

/-- `await`, first half: wait for `TxIdle`, then offer `rx_start` (45_session.md R222). The `TxIdle` of a power-on reset is
taken as any other: the model's choice, log 21. -/
def hostAwait (expect : Expect) (rest : List HostOp) (s : State) : State :=
  if s.tx.state = .txIdle ∧ s.rx.state.resting then hostPop (.awaiting expect s.out.rxResults.length :: rest) (s.withRx (rxBegin s.rx))
  else s

/-- What the host reads out of a response (45_session.md R212, R220); any content is data (R225). -/
def hostRead (expect : Expect) (payload : List Byte) (s : State) : State :=
  match expect with
  | .any => s
  | .ack => s.withHost { s.host with ack := ackByte payload }
  | .status => s.withHost { s.host with status := statusFields payload }

/-- `await`, second half: take the attempt's value from `rx_result` (10_state.md R21, R26); on `Ok` read the response and go
on; on a failure go on or stop, by ON_ERROR; no retry (45_session.md R222 to R224). A value emitted is never lost; of an
attempt that a power-on reset ends without one the host waits on: the model's choice, log 21. -/
def hostAwaiting (expect : Expect) (seen : Nat) (rest : List HostOp) (s : State) : State :=
  match s.out.rxResults[seen]? with
  | none => s
  | some (.ok _ payload) => hostPop rest (hostRead expect payload s)
  | some (.fail _) => match s.par.onError with
    | .continue => hostPop rest s
    | .abort => hostStop .abort s

/-- `pack_start`: PACK is ready in `PkIdle` only; during a scan the start is refused (70_reset_and_hazards.md R279; log
7). `next` is what the host does then. -/
def hostPackStart (width height : Nat) (next : List HostOp) (s : State) : Answer :=
  if s.rle.state = .rlScan then .refused .packDuringScan
  else if s.pack.state = .pkIdle then .next (hostPop next (packBegin width height s))
  else .next s

/-- `pack`, second half: ImageDimensionError ends the session before any frame (45_session.md R211). -/
def hostPacking (seen : Nat) (rest : List HostOp) (s : State) : State :=
  match s.out.packResults[seen]? with
  | none => s
  | some .ok => hostPop rest s
  | some (.fail _) => hostStop .imageDimensionError s

/-- `rle_start`: RLE is ready in `RlIdle` only; on a store that no pack has filled the start is refused
(93_implementation_defined.md U11; log 6). `next` is what the host does then. -/
def hostRleStart (next : List HostOp) (s : State) : Answer :=
  if s.rle.state = .rlScan then .next s
  else if s.bmpValid then .next (hostPop next (s.withRle (rleBegin s.rle)))
  else .refused .rleOnUndefinedBitmap

/-- `stream`, second half: wait for `rle_done` (45_session.md R217). -/
def hostStreaming (seen : Nat) (rest : List HostOp) (s : State) : State :=
  if seen < s.out.rleDones then hostPop rest s else s

/-- `takeRecord`: the host takes a record from `rec_out` itself (10_state.md R21). -/
def hostTakeRecord (rest : List HostOp) (s : State) : State :=
  if s.recOut.isEmpty then s else hostPop rest (takeRecord s)

/-- `enter`: a phase begins (45_session.md R210). -/
def hostEnter (phase : Phase) (rest : List HostOp) (s : State) : State :=
  s.withHost { s.host with prog := rest, phase := phase }

/-- One page of the session, steps S4 to S8 (45_session.md R214 to R219). -/
def pageProgram : List HostOp :=
  [.enter .pageStart, .offer (.pageStart Config.one), .await .any,
   .enter .pageSize, .offer (.setPageSize 240 400 Config.copies), .await .any,
   .enter .rowStream, .stream,
   .enter .pageEndHandshake, .await .any, .await .any, .offer (.pageEnd Config.one), .await .any]

/-- One iteration of the status poll, step S9 (45_session.md R220). -/
def pollProgram : List HostOp := [.offer .statusPoll, .await .status, .pause]

/-- The whole session on an image of the given size, steps S1 to S10 (45_session.md R210 to R221). -/
def sessionProgram (par : Params) (width height : Nat) : List HostOp :=
  [.openPort, .enter .precheck, .pack width height,
   .enter .setup, .offer (.setDensity par.density.val), .await .ack,
   .offer (.setLabelType par.labelType.val), .await .ack,
   .enter .printStart, .offer (.printStart (BitVec.ofNat 16 Config.pageCount) 0 0 0 0 0), .await .any]
  ++ (List.replicate Config.pageCount pageProgram).flatten
  ++ [.enter .statusPoll] ++ (List.replicate Config.statusPollBound pollProgram).flatten
  ++ [.enter .printEnd, .offer (.printEnd Config.one), .finish, .closePort]

/-- The host's turn: the operation at the head of its program. -/
def turnHost (s : State) : Answer :=
  match s.host.prog with
  | [] => .next s
  | .openPort :: rest => .next (hostSetOpen true rest s)
  | .closePort :: rest => .next (hostSetOpen false rest s)
  | .send words :: rest => hostSend words rest s
  | .offer i :: rest => hostOffer i rest s
  | .txWait :: rest => .next (hostTxWait rest s)
  | .rxStart :: rest => .next (hostRxStart rest s)
  | .await expect :: rest => .next (hostAwait expect rest s)
  | .awaiting expect seen :: rest => .next (hostAwaiting expect seen rest s)
  | .packStart width height :: rest => hostPackStart width height rest s
  | .pack width height :: rest => hostPackStart width height (.packing s.out.packResults.length :: rest) s
  | .packing seen :: rest => .next (hostPacking seen rest s)
  | .rleStart :: rest => hostRleStart rest s
  | .stream :: rest => hostRleStart (.streaming s.out.rleDones :: rest) s
  | .streaming seen :: rest => .next (hostStreaming seen rest s)
  | .takeRecord :: rest => .next (hostTakeRecord rest s)
  | .pause :: rest => .next (hostPop rest s)
  | .enter phase :: rest => .next (hostEnter phase rest s)
  | .session width height :: rest => .next (hostBegin (sessionProgram s.par width height) rest s)
  | .finish :: rest => .next (hostFinish rest s)

/-- Power-on reset of the block at any time (70_reset_and_hazards.md R265): the units and the held records; what has been
sent and received, the transport, the image source and the host are not the block's and stay. -/
def turnPowerOn (s : State) : State :=
  { s with
    tx := { Txf.reset with cut := s.tx.cut || s.tx.state != .txIdle }
    rx := Rxf.reset, pack := Pack.reset, rle := Rle.reset, bmp := [], bmpValid := false, recOut := [] }

/-- One agent's move. -/
def runTurn (t : Turn) (s : State) : Answer :=
  match t with
  | .host => turnHost s
  | .takeTx => turnTakeTx s
  | .arrive b => turnArrive b s
  | .deliver => turnDeliver s
  | .timeout => turnTimeout s
  | .pixel => turnPixel s
  | .scan => turnScan s
  | .ser => turnSer s
  | .powerOn => .next (turnPowerOn s)

/-- Place an instruction's words where the host's next turn fetches them. -/
def placeRequest (words : List Byte) (s : State) : State :=
  (s.withProg (.send words :: s.host.prog)).withTurns (.host :: s.turns)

end Sys2Proof.Machine
end

