-- ==== Sys2Proof/Machine/Step.lean ====
section
/-! DEFINITION. One step: the agent whose turn comes next makes one move. When the listed turns are used up the
cycle repeats; with none, nothing is offered and the block does nothing (10_state.md R36; logs 2 and 3). -/

namespace Sys2Proof.Machine

def step (s : State) : Host.Outcome State Fault Refusal :=
  match s.turns with
  | t :: ts => runTurn t (s.withTurns ts)
  | [] =>
    match s.cycle with
    | [] => .next s
    | t :: ts => runTurn t (s.withTurns ts)

/-- The state with an instruction where the next step fetches it: at the head of the host's program, the turn being the
host's (log 2). -/
def State.withFetchWord (s : State) (nbits w : Nat) : State := placeRequest (tableWordBytes nbits w) s

end Sys2Proof.Machine
end

