-- ==== Sys2Proof/Safety.lean ====
section
/-! DEFINITION. The terms claims are stated in: the invariant of the machine, the part of a frame already sent, the end of
a run, and a run of several steps. -/

namespace Sys2Proof.Machine

/-- `k` steps of the machine, stopping at the first fault or refusal. -/
abbrev runSteps (k : Nat) (s : State) : Host.Outcome State Fault Refusal := Host.Core.run Sys2Proof.core k s

/-- TXF holds a frame: `tx.len` is the length of the payload it latched (10_state.md R28), and no reset has cut it short
(log 21). -/
def Txf.latched (t : Txf) : Prop := t.pay.length ≤ Config.maxLen ∧ t.len = lenByte t.pay ∧ t.cut = false

/-- What TXF's registers satisfy in each state: `tx.acc` is the "running XOR of the bytes offered so far from `cmd` onward"
(10_state.md R28). -/
def Txf.Inv (t : Txf) : Prop :=
  match t.state with
  | .txIdle => True
  | .txPre1 | .txPre2 | .txCmd => t.latched ∧ t.idx = 0
  | .txLen => t.latched ∧ t.idx = 0 ∧ t.acc = t.cmd
  | .txPayload => t.latched ∧ t.idx < t.pay.length ∧ t.acc = xorAll (t.cmd ^^^ t.len) (t.pay.take t.idx)
  | .txCsum | .txTrl1 | .txTrl2 => t.latched ∧ t.acc = csum t.cmd t.len t.pay

/-- The bytes of the frame in progress that the transport has taken. -/
def Txf.sent (t : Txf) : List Byte :=
  match t.state with
  | .txIdle | .txPre1 => []
  | .txPre2 => [Config.pre]
  | .txCmd => [Config.pre, Config.pre]
  | .txLen => [Config.pre, Config.pre, t.cmd]
  | .txPayload => [Config.pre, Config.pre, t.cmd, t.len] ++ t.pay.take t.idx
  | .txCsum => [Config.pre, Config.pre, t.cmd, t.len] ++ t.pay
  | .txTrl1 => [Config.pre, Config.pre, t.cmd, t.len] ++ t.pay ++ [t.acc]
  | .txTrl2 => [Config.pre, Config.pre, t.cmd, t.len] ++ t.pay ++ [t.acc, Config.trl]

/-- The wire has seen whole frames only, and the sent part of the one in progress (20_memory.md R57, R60). -/
def State.WireWhole (s : State) : Prop :=
  s.tx.Inv ∧ ∃ (frames : List (Byte × List Byte)) (wire : List Byte),
    encodeFrames frames = some wire ∧ s.out.tx = wire ++ s.tx.sent

/-- The kinds RXF raises (60_exceptions.md R235). -/
def ErrorKind.ofRxf : ErrorKind → Bool
  | .transportTimeout | .framingError | .checksumMismatch => true
  | .imageDimensionError | .protocolSequenceError => false

/-- What RXF's registers satisfy in each state: `rx.acc` is "the running XOR of opcode, length, and all payload bytes
computed during this parse", `rx.cnt` counts the bytes accumulated (10_state.md R29, R30). -/
def Rxf.Inv (r : Rxf) : Prop :=
  r.buf.length = Config.maxLen ∧
  match r.state with
  | .rest | .idle | .started | .readCmd => r.result = .none
  | .readLen => r.result = .none ∧ r.acc = r.cmd
  | .readPayload => r.result = .none ∧ r.cnt < r.len.toNat ∧ r.acc = xorAll (r.cmd ^^^ r.len) (r.buf.take r.cnt)
  | .readChecksum | .readTrailer1 | .readTrailer2 => r.result = .none ∧ r.acc = csum r.cmd r.len (rxPayload r)
  | .done => r.result = .ok ∧ r.acc = csum r.cmd r.len (rxPayload r)
  | .failed => ∃ kind, r.result = .fail kind ∧ kind.ofRxf = true

/-- PACK's position is inside the image while it fills (10_state.md R31). -/
def Pack.Inv (p : Pack) : Prop := p.state = .pkFill → p.x < Config.cols ∧ p.y < Config.rows

/-- RLE's row is in range and its open run ends at it (10_state.md R32). -/
def Rle.Inv (r : Rle) : Prop :=
  r.state = .rlScan → r.r ≤ Config.rows ∧ (r.runOpen = true → 1 ≤ r.runCount ∧ r.runStart + r.runCount = r.r)

/-- A record as 30_encoding.md R84 and R85 bound it. -/
def Record.wf : Record → Bool
  | .blankRun start count => decide (1 ≤ count.toNat ∧ start.toNat + count.toNat ≤ Config.rows)
  | .pixelRow row bits rep packed =>
    decide (row.toNat < Config.rows ∧ bits.toNat = setBitCount packed ∧ 1 ≤ bits.toNat ∧ bits.toNat ≤ Config.cols)
      && rep == Config.repeatCount && packed.length == Config.rowBytes

/-- A failure value on `rx_result` is one of RXF's three kinds. -/
def RxResult.wf : RxResult → Bool
  | .ok _ payload => decide (payload.length ≤ Config.maxLen)
  | .fail kind => kind.ofRxf

/-- A failure value on `pack_result` is ImageDimensionError. -/
def PackResult.wf : PackResult → Bool
  | .ok => true
  | .fail kind => kind == .imageDimensionError

/-- The invariant of the machine. -/
structure State.Inv (s : State) : Prop where
  tx : s.tx.Inv
  rx : s.rx.Inv
  pack : s.pack.Inv
  rle : s.rle.Inv
  /-- The bitmap store is in canonical form. -/
  bmp : Memory.wf s.bmp = true
  /-- RLE scans only a store that a pack has filled, and no pack runs then (20_memory.md R65). -/
  scan : s.rle.state = .rlScan → s.bmpValid = true
  fill : s.pack.state = .pkFill → s.bmpValid = false
  /-- Records are offered only during a scan, at most two (20_memory.md R57). -/
  offer : s.rle.state = .rlIdle → s.recOut = []
  /-- The records held are the last of those RLE's unfinished step emits (43_rle.md R176). -/
  held : s.recOut <:+ stepRecords s.bmp s.rle
  offered : s.recOut.length ≤ 2 ∧ ∀ r ∈ s.recOut, r.wf = true
  /-- The result channels carry only the kinds their units raise (60_exceptions.md R235, R240). -/
  rxResults : ∀ r ∈ s.out.rxResults, r.wf = true
  packResults : ∀ r ∈ s.out.packResults, r.wf = true

/-- Noise that resynchronises cleanly, 41_framer_rx.md R131: every 0x55 in it is followed by another byte that is not
0x55. -/
def cleanNoise : List Byte → Bool
  | [] => true
  | [a] => a != Config.pre
  | a :: b :: rest => if a = Config.pre then b != Config.pre && cleanNoise rest else cleanNoise (b :: rest)

/-- Bytes as items of the stream RX. -/
def byteItems (bytes : List Byte) : List RxItem := bytes.map .byte

/-- The bytes among items of the stream RX. -/
def itemBytes (items : List RxItem) : List Byte :=
  items.filterMap (fun item => match item with
    | .byte b => some b
    | .timeout => none)

/-- The byte that arrives from the printer in a turn. -/
def Turn.arrival : Turn → List Byte
  | .arrive b => [b]
  | .host | .takeTx | .deliver | .timeout | .pixel | .scan | .ser | .powerOn => []

/-- The requests of a session whose row stream is `rows`, in order (45_session.md R212 to R221). -/
def sessionRequests (par : Params) (rows : List (Byte × List Byte)) : List (Byte × List Byte) :=
  [(Config.cmdSetDensity, [par.density.val]), (Config.cmdSetLabelType, [par.labelType.val]),
   (Config.cmdPrintStart, [0, 1, 0, 0, 0, 0, 0]), (Config.cmdPageStart, [1]),
   (Config.cmdSetPageSize, [0x00, 0xF0, 0x01, 0x90, 0x00, 0x01])]
  ++ rows ++ [(Config.cmdPageEnd, [1])]
  ++ List.replicate 100 (Config.cmdStatusPoll, []) ++ [(Config.cmdPrintEnd, [1])]

/-- The end of a run, 70_reset_and_hazards.md R286: every unit idle or resting, nothing offered on `tx_req` or `rec_out`. -/
def State.runOver (s : State) : Bool :=
  s.tx.state == .txIdle && s.rx.state.resting && s.pack.state == .pkIdle && s.rle.state == .rlIdle
    && s.recOut.isEmpty
    && match s.host.prog with
      | .send _ :: _ => false
      | .offer _ :: _ => false
      | _ => true

/-- The end of the session that the unit's last event has decided, though the host's turn to note it has not come: S10's
frame has been handed over whole, `pack_result` has brought ImageDimensionError, or `rx_result` a failure under ON_ERROR =
Abort (45_session.md R211, R221, R224). -/
def State.dueEnd (s : State) : Option SessionEnd :=
  match s.host.prog with
  | .finish :: _ => if s.tx.handedOver then some .complete else none
  | .packing seen :: _ => match s.out.packResults[seen]? with
    | some (.fail _) => some .imageDimensionError
    | some .ok | none => none
  | .awaiting _ seen :: _ => match s.out.rxResults[seen]? with
    | some (.fail _) => if s.par.onError = .abort then some .abort else none
    | some (.ok ..) | none => none
  | _ => none

/-- How the session has ended, 70_reset_and_hazards.md R286: as the host has noted it, or as it is due to. -/
def State.sessionEnd (s : State) : Option SessionEnd := s.host.ended.or s.dueEnd

/-- The end of a session, 70_reset_and_hazards.md R286: the run is over, and in addition step S10's frame has been handed
over whole or the session was ended early. -/
def State.sessionOver (s : State) : Bool := s.runOver && s.sessionEnd.isSome

/-! ### Infinite runs and progress -/

/-- The turn the next step takes. -/
def State.nextTurn (s : State) : Option Turn := (s.turns ++ s.cycle).head?

/-- A run of the machine's own steps that never ends. -/
def IsRun (run : Nat → State) : Prop := ∀ k, step (run k) = .next (run (k + 1))

/-- A run under any infinite sequence of turns whatever, not only one that repeats. -/
def FreeRun (run : Nat → State) : Prop := ∀ k, ∃ turn ts, runTurn turn ((run k).withTurns ts) = .next (run (k + 1))

/-- The progress assumption, 70_reset_and_hazards.md R285, a premise for claims and no property of every run: every read
ends with a byte or a timeout, every offered byte is taken, every pixel is delivered (unless a reset ends the wait). -/
structure Progress (run : Nat → State) : Prop where
  reads : ∀ k, (run k).rx.state.active = true →
    ∃ j, k < j ∧ ((run k).out.rx.length < (run j).out.rx.length ∨ (run j).rx.state.active = false)
  bytes : ∀ k, (run k).tx.state ≠ .txIdle →
    ∃ j, k < j ∧ ((run k).out.tx.length < (run j).out.tx.length ∨ (run j).tx.state = .txIdle)
  pixels : ∀ k, (run k).pack.state = .pkFill →
    ∃ j, k < j ∧ ((run j).pixels.length < (run k).pixels.length ∨ (run j).pack.state = .pkIdle)

/-- The states of RXF from `ReadCmd` on (41_framer_rx.md R134). -/
def RxState.inFrame : RxState → Bool
  | .readCmd | .readLen | .readPayload | .readChecksum | .readTrailer1 | .readTrailer2 => true
  | .rest | .idle | .started | .done | .failed => false

end Sys2Proof.Machine
end

