-- ==== Sys2Proof/Certificates/Slice0/Obligations.lean ====
section
/-! DEFINITION. The statements about the machine, each from the spec's numbered rules. Where a docstring says "the model's
choice" the clause rests on a log entry or on a decision the spec marks as its own, and the statement's basis is derived. -/

open Sys2Proof Sys2Proof.Machine

/-! ### Encoding -/

/-- 30_encoding.md R71, R72: a well-formed request decodes to itself, whatever bytes follow it. The request form of an
instruction (the frame without checksum and trailer) is the model's choice, log 1. -/
def Obligations.DecodeOfEncode : Prop :=
  ∀ (i : Instr) (rest : List Byte), i.wf = true →
    ∃ words, encode i = some words ∧ decode (words ++ rest) = .ok (i, rest)

/-- 30_encoding.md R71, R73: the whole frame of a well-formed instruction decodes to it, whatever bytes follow it. -/
def Obligations.DecodeWireOfEncodeWire : Prop :=
  ∀ (i : Instr) (rest : List Byte), i.wf = true →
    ∃ frame, encodeWire i = some frame ∧ decodeWire (frame ++ rest) = .ok (i, rest)

/-- 30_encoding.md R73: what the wire decoder accepts is a well-formed frame of a well-formed instruction, and nothing of
the byte sequence is lost. -/
def Obligations.DecodeWireAcceptsOnlyFrames : Prop :=
  ∀ (bytes rest : List Byte) (i : Instr), decodeWire bytes = .ok (i, rest) →
    i.wf = true ∧ ∃ frame, encodeWire i = some frame ∧ bytes = frame ++ rest

/-- 30_encoding.md R87: the first four bytes of a well-formed instruction match its own row of the opcode table first. -/
def Obligations.OpcodeTableNamesInstruction : Prop :=
  ∀ (i : Instr) (b0 b1 b2 b3 : Byte) (tail : List Byte), i.wf = true →
    encode i = some (b0 :: b1 :: b2 :: b3 :: tail) →
    (tableLookup (fromBe32 b0 b1 b2 b3)).map TableRow.mnemonic = some i.mnemonic

/-- A few words written out from the spec's encodings (44_commands.md R187, R189, R192; 30_encoding.md R81) decode to what
they stand for. -/
def Obligations.SpelledWordsDecode : Prop :=
  decodeWire [0x55, 0x55, 0x21, 0x01, 0x03, 0x23, 0xAA, 0xAA] = .ok (.setDensity 3, []) ∧
  decodeWire [0x55, 0x55, 0x01, 0x07, 0x00, 0x01, 0x00, 0x00, 0x00, 0x00, 0x00, 0x07, 0xAA, 0xAA]
    = .ok (.printStart 1 0 0 0 0 0, []) ∧
  decodeWire [0x55, 0x55, 0x84, 0x03, 0x00, 0x0B, 0xE5, 0x69, 0xAA, 0xAA] = .ok (.blankRows 11 229, []) ∧
  decodeWire [0x55, 0x55, 0x77, 0x02, 0x01, 0x02, 0x76, 0xAA, 0xAA] = .ok (.frame 0x77 [1, 2], [])

/-- 30_encoding.md R70 and 40_framer_tx.md R100: `Encode(cmd, payload)` is the ordered byte sequence, its `len` byte is
the payload's length, and its checksum is the running XOR over `cmd`, `len` and every payload byte. -/
def Obligations.EncodeHasFrameLayout : Prop :=
  ∀ (cmd : Byte) (payload : List Byte), payload.length ≤ 255 →
    ∃ (len : Byte) (frame : List Byte), len.toNat = payload.length ∧ encodeFrame cmd payload = some frame ∧
      frame.length = payload.length + 7 ∧
      frame = [0x55, 0x55, cmd, len] ++ payload ++ [payload.foldl (fun a b => a ^^^ b) (cmd ^^^ len), 0xAA, 0xAA]

/-- 30_encoding.md R74: a change of one covered byte alone (`cmd`, `len`, or one payload byte) changes the checksum. -/
def Obligations.ChecksumDetectsOneChangedByte : Prop :=
  ∀ (c l : Byte) (p : List Byte),
    (∀ c', c' ≠ c → csum c' l p ≠ csum c l p) ∧ (∀ l', l' ≠ l → csum c l' p ≠ csum c l p) ∧
    (∀ (k : Nat) (b : Byte), (h : k < p.length) → b ≠ p[k] → csum c l (p.set k b) ≠ csum c l p)

/-- 44_commands.md R187 to R189, R192: the frames of the commands with operands: set-density, set-label-type, print-start
(its reserved bytes zero) and blank-rows, with the operand bytes where the rules put them and the checksum of R11. -/
def Obligations.OperandCommandFrames : Prop :=
  (∀ d : Byte, encodeWire (.setDensity d) = some [0x55, 0x55, 0x21, 0x01, d, 0x21 ^^^ 0x01 ^^^ d, 0xAA, 0xAA]) ∧
  (∀ t : Byte, encodeWire (.setLabelType t) = some [0x55, 0x55, 0x23, 0x01, t, 0x23 ^^^ 0x01 ^^^ t, 0xAA, 0xAA]) ∧
  (∀ n : Half, encodeWire (.printStart n 0 0 0 0 0) = some
    [0x55, 0x55, 0x01, 0x07, BitVec.ofNat 8 (n.toNat / 256), BitVec.ofNat 8 (n.toNat % 256), 0, 0, 0, 0, 0,
      0x01 ^^^ 0x07 ^^^ BitVec.ofNat 8 (n.toNat / 256) ^^^ BitVec.ofNat 8 (n.toNat % 256), 0xAA, 0xAA]) ∧
  (∀ (start : Half) (count : Byte), encodeWire (.blankRows start count) = some
    [0x55, 0x55, 0x84, 0x03, BitVec.ofNat 8 (start.toNat / 256), BitVec.ofNat 8 (start.toNat % 256), count,
      0x84 ^^^ 0x03 ^^^ BitVec.ofNat 8 (start.toNat / 256) ^^^ BitVec.ofNat 8 (start.toNat % 256) ^^^ count, 0xAA, 0xAA])

/-- 44_commands.md R190, R191, R194 to R196: the frames of the commands whose bytes the protocol fixes. -/
def Obligations.FixedCommandFrames : Prop :=
  encodeWire (.pageStart 1) = some [0x55, 0x55, 0x03, 0x01, 0x01, 0x03, 0xAA, 0xAA] ∧
  encodeWire (.setPageSize 240 400 1) = some
    [0x55, 0x55, 0x13, 0x06, 0x00, 0xF0, 0x01, 0x90, 0x00, 0x01, 0x75, 0xAA, 0xAA] ∧
  encodeWire (.pageEnd 1) = some [0x55, 0x55, 0xE3, 0x01, 0x01, 0xE3, 0xAA, 0xAA] ∧
  encodeWire .statusPoll = some [0x55, 0x55, 0xA3, 0x00, 0xA3, 0xAA, 0xAA] ∧
  encodeWire (.printEnd 1) = some [0x55, 0x55, 0xF3, 0x01, 0x01, 0xF3, 0xAA, 0xAA]

/-! ### Instructions: what each does, and what it leaves alone -/

/-- 40_framer_tx.md R105, 44_commands.md R187 to R189, R195, R196: in `TxIdle` set-density, set-label-type, print-start,
status-poll and print-end are latched by TXF whole, for every operand. The registers are the spec's own decision
(92_eei_decisions.md D4, D11). -/
def Obligations.SessionCommandsComplete : Prop :=
  ∀ s : State, s.tx.state = .txIdle →
    (∀ d : Byte, exec (.setDensity d) s =
      .next { s with tx := { s.tx with cmd := 0x21, len := 1, pay := [d], idx := 0, state := .txPre1, cut := false } }) ∧
    (∀ t : Byte, exec (.setLabelType t) s =
      .next { s with tx := { s.tx with cmd := 0x23, len := 1, pay := [t], idx := 0, state := .txPre1, cut := false } }) ∧
    (∀ (n : Half) (r0 r1 r2 r3 r4 : Byte), exec (.printStart n r0 r1 r2 r3 r4) s =
      .next { s with tx := { s.tx with
        cmd := 0x01, len := 7, idx := 0, state := .txPre1, cut := false,
        pay := [BitVec.ofNat 8 (n.toNat / 256), BitVec.ofNat 8 (n.toNat % 256), r0, r1, r2, r3, r4] } }) ∧
    exec .statusPoll s =
      .next { s with tx := { s.tx with cmd := 0xA3, len := 0, pay := [], idx := 0, state := .txPre1, cut := false } } ∧
    (∀ one : Byte, exec (.printEnd one) s =
      .next { s with tx := { s.tx with cmd := 0xF3, len := 1, pay := [one], idx := 0, state := .txPre1, cut := false } })

/-- 40_framer_tx.md R105, 44_commands.md R190, R191, R194: the same of page-start, set-page-size and page-end
(92_eei_decisions.md D4, D11). -/
def Obligations.PageCommandsComplete : Prop :=
  ∀ s : State, s.tx.state = .txIdle →
    (∀ one : Byte, exec (.pageStart one) s =
      .next { s with tx := { s.tx with cmd := 0x03, len := 1, pay := [one], idx := 0, state := .txPre1, cut := false } }) ∧
    (∀ rows cols copies : Half, exec (.setPageSize rows cols copies) s =
      .next { s with tx := { s.tx with
        cmd := 0x13, len := 6, idx := 0, state := .txPre1, cut := false,
        pay := [BitVec.ofNat 8 (rows.toNat / 256), BitVec.ofNat 8 (rows.toNat % 256),
          BitVec.ofNat 8 (cols.toNat / 256), BitVec.ofNat 8 (cols.toNat % 256),
          BitVec.ofNat 8 (copies.toNat / 256), BitVec.ofNat 8 (copies.toNat % 256)] } }) ∧
    (∀ one : Byte, exec (.pageEnd one) s =
      .next { s with tx := { s.tx with cmd := 0xE3, len := 1, pay := [one], idx := 0, state := .txPre1, cut := false } })

/-- 40_framer_tx.md R105, 44_commands.md R192, R193: the same of blank-rows and pixel-row; a pixel row has 50 packed bytes
(92_eei_decisions.md D4, D11, D16). -/
def Obligations.RowStreamCommandsComplete : Prop :=
  ∀ s : State, s.tx.state = .txIdle →
    (∀ (start : Half) (count : Byte), exec (.blankRows start count) s =
      .next { s with tx := { s.tx with
        cmd := 0x84, len := 3, idx := 0, state := .txPre1, cut := false,
        pay := [BitVec.ofNat 8 (start.toNat / 256), BitVec.ofNat 8 (start.toNat % 256), count] } }) ∧
    (∀ (row bits rep : Half) (packed : List Byte), packed.length = 50 → exec (.pixelRow row bits rep packed) s =
      .next { s with tx := { s.tx with
        cmd := 0x85, len := 56, idx := 0, state := .txPre1, cut := false,
        pay := [BitVec.ofNat 8 (row.toNat / 256), BitVec.ofNat 8 (row.toNat % 256),
          BitVec.ofNat 8 (bits.toNat / 256), BitVec.ofNat 8 (bits.toNat % 256),
          BitVec.ofNat 8 (rep.toNat / 256), BitVec.ofNat 8 (rep.toNat % 256)] ++ packed } })

/-- 40_framer_tx.md R101, R105: in `TxIdle` a generic frame with any opcode and any payload of at most 255 bytes is latched
(92_eei_decisions.md D4, D10, D11). -/
def Obligations.GenericFrameCompletes : Prop :=
  ∀ (s : State) (cmd : Byte) (payload : List Byte), s.tx.state = .txIdle → payload.length ≤ 255 →
    exec (.frame cmd payload) s =
      .next { s with tx := { s.tx with
        cmd := cmd, len := BitVec.ofNat 8 payload.length, pay := payload, idx := 0, state := .txPre1, cut := false } }

/-- The frame of every instruction: when it answers a next state, only TXF's registers other than `tx.acc` may have
changed. All other state is unchanged, and every byte of the bitmap store reads as before (40_framer_tx.md R105). -/
def Obligations.InstructionsChangeOnlyTxf : Prop :=
  ∀ (i : Instr) (s t : State), exec i s = .next t →
    t = { s with tx := t.tx } ∧ t.tx.acc = s.tx.acc ∧ (∀ a : Nat, Memory.get t.bmp a = Memory.get s.bmp a)
      ∧ (s.tx.state ≠ .txIdle → t.tx = s.tx)

/-- 10_state.md R21, 40_framer_tx.md R102, R106 (92_eei_decisions.md D11, D30): outside `TxIdle` a well-formed request is
held and nothing changes. A request of more than 255 payload bytes is refused in every state, never truncated, when the host
offers it too, and Encode gives it no bytes. -/
def Obligations.UnacceptedRequestsChangeNothing : Prop :=
  (∀ (i : Instr) (s : State), i.wf = true → s.tx.state ≠ .txIdle → exec i s = .next s) ∧
  (∀ (s : State) (cmd : Byte) (payload : List Byte), 255 < payload.length →
    exec (.frame cmd payload) s = .refused .payloadTooLong ∧
    encodeFrame cmd payload = none ∧ encode (.frame cmd payload) = none ∧
    ∀ ts rest, s.turns = .host :: ts → s.host.prog = .offer (.frame cmd payload) :: rest →
      step s = .refused .payloadTooLong)

/-- A step runs the decoded instruction: on the host's turn, with request words at the head of its program, the step is
`exec` of the instruction they decode to; with an offered instruction there, `exec` of that one, of any payload length. The
host moves past it when TXF is idle, else its program stays. When the listed turns are used up the cycle repeats; with no
turn at all a step does nothing (the host's program and the turns are the model's choice, logs 1 to 3). -/
def Obligations.StepRunsDecodedRequest : Prop :=
  (∀ (s : State) (ts : List Turn) (words more : List Byte) (rest : List HostOp) (i : Instr),
    s.turns = .host :: ts → s.host.prog = .send words :: rest → decode words = .ok (i, more) →
    step s =
      if s.tx.state = .txIdle then
        exec i { s with turns := ts, host := { s.host with prog := if more = [] then rest else .send more :: rest } }
      else exec i { s with turns := ts }) ∧
  (∀ (s : State) (ts : List Turn) (rest : List HostOp) (i : Instr),
    s.turns = .host :: ts → s.host.prog = .offer i :: rest →
    step s =
      if s.tx.state = .txIdle then exec i { s with turns := ts, host := { s.host with prog := rest } }
      else exec i { s with turns := ts }) ∧
  (∀ s : State, s.turns = [] → s.cycle ≠ [] → step s = step { s with turns := s.cycle }) ∧
  (∀ s : State, s.turns = [] → s.cycle = [] → step s = .next s)

/-! ### TXF -/

/-- 40_framer_tx.md R105 (92_eei_decisions.md D11), state by state: the byte the transport takes, and TXF's registers after
it. The transport takes it in its turn (log 3). -/
def Obligations.TransmitterOffersFrameBytes : Prop :=
  ∀ (s : State) (ts : List Turn), s.turns = .takeTx :: ts → s.line.isOpen = true →
    let after := fun (b : Byte) (t : Txf) =>
      (Host.Outcome.next { s with tx := t, turns := ts, out := { s.out with tx := s.out.tx ++ [b] } } : Answer)
    (s.tx.state = .txIdle → step s = .next { s with turns := ts }) ∧
    (s.tx.state = .txPre1 → step s = after 0x55 { s.tx with state := .txPre2 }) ∧
    (s.tx.state = .txPre2 → step s = after 0x55 { s.tx with state := .txCmd }) ∧
    (s.tx.state = .txCmd → step s = after s.tx.cmd { s.tx with acc := s.tx.cmd, state := .txLen }) ∧
    (s.tx.state = .txLen → step s = after s.tx.len
      { s.tx with acc := s.tx.acc ^^^ s.tx.len, state := if s.tx.len = 0 then .txCsum else .txPayload }) ∧
    (s.tx.state = .txPayload → ∀ b, s.tx.pay[s.tx.idx]? = some b → step s = after b
      { s.tx with
        acc := s.tx.acc ^^^ b, idx := s.tx.idx + 1,
        state := if s.tx.idx + 1 = s.tx.len.toNat then .txCsum else .txPayload }) ∧
    (s.tx.state = .txCsum → step s = after s.tx.acc { s.tx with state := .txTrl1 }) ∧
    (s.tx.state = .txTrl1 → step s = after 0xAA { s.tx with state := .txTrl2 }) ∧
    (s.tx.state = .txTrl2 → step s = after 0xAA { s.tx with state := .txIdle })

/-- 40_framer_tx.md R108: from the latching of a request to the return to `TxIdle` the transport takes exactly
`Encode(cmd, payload)`, in `L + 7` turns, and nothing else of the machine changes. The schedule is one of many (log 3). -/
def Obligations.TransmitterEmitsEncode : Prop :=
  ∀ (s : State) (ts : List Turn) (before : Txf) (cmd : Byte) (payload frame : List Byte),
    encodeFrame cmd payload = some frame → s.line.isOpen = true → s.tx = txLatch before cmd payload →
    s.turns = List.replicate (payload.length + 7) .takeTx ++ ts →
    runSteps (payload.length + 7) s =
      .next { s with
        turns := ts
        tx := { s.tx with state := .txIdle, idx := payload.length, acc := csum cmd (lenByte payload) payload }
        out := { s.out with tx := s.out.tx ++ frame } }

/-- 20_memory.md R57, R60 and 40_framer_tx.md R106: whatever agent moves, the wire has seen whole frames in the order they
were accepted, and the sent part of the one in progress; only a power-on reset cuts a frame short (the model's own bit
`tx.cut`, false in the frame in progress: log 21). -/
def Obligations.WireCarriesWholeFrames : Prop :=
  ∀ s t : State, s.WireWhole → s.nextTurn ≠ some .powerOn → step s = .next t → t.WireWhole

/-! ### RXF -/

/-- 41_framer_rx.md R119: in `Idle` a byte other than 0x55 is discarded, 0x55 begins a preamble. -/
def Obligations.IdleHuntsForPreamble : Prop :=
  ∀ (r : Rxf) (b : Byte), r.state = .idle →
    rxStep (.byte b) r = { r with state := if b = 0x55 then .started else .idle } ∧ rxEvents (.byte b) r = []

/-- 41_framer_rx.md R120 (92_eei_decisions.md D7): in `Started` a second 0x55 completes the preamble; any other byte goes
back to `Idle` with one `MalformedPreamble` pulse and no failure. -/
def Obligations.StartedResynchronises : Prop :=
  ∀ (r : Rxf) (b : Byte), r.state = .started →
    rxStep (.byte b) r = { r with state := if b = 0x55 then .readCmd else .idle } ∧
    rxEvents (.byte b) r = if b = 0x55 then [] else [.malformedPreamble]

/-- 41_framer_rx.md R121: `ReadCmd` consumes one byte as the opcode and starts the running XOR from it. -/
def Obligations.ReadCmdTakesOpcode : Prop :=
  ∀ (r : Rxf) (b : Byte), r.state = .readCmd → rxStep (.byte b) r = { r with cmd := b, acc := b, state := .readLen }

/-- 41_framer_rx.md R122: `ReadLen` consumes one byte as the payload length; with 0 the next byte is the checksum (a corner
the spec marks as derived). -/
def Obligations.ReadLenTakesLength : Prop :=
  ∀ (r : Rxf) (b : Byte), r.state = .readLen →
    rxStep (.byte b) r =
      { r with len := b, cnt := 0, acc := r.acc ^^^ b, state := if b = 0 then .readChecksum else .readPayload }

/-- 41_framer_rx.md R123: `ReadPayload` stores the byte at `rx.cnt`, folds it into the running XOR, counts it, and ends
after exactly `rx.len` bytes. -/
def Obligations.ReadPayloadStoresByte : Prop :=
  ∀ (r : Rxf) (b : Byte), r.state = .readPayload → r.cnt < r.len.toNat → r.buf.length = 255 →
    (rxStep (.byte b) r).buf[r.cnt]? = some b ∧
    (∀ k, k ≠ r.cnt → (rxStep (.byte b) r).buf[k]? = r.buf[k]?) ∧
    (rxStep (.byte b) r).acc = r.acc ^^^ b ∧ (rxStep (.byte b) r).cnt = r.cnt + 1 ∧
    (rxStep (.byte b) r).state = (if r.cnt + 1 = r.len.toNat then .readChecksum else .readPayload) ∧
    (rxStep (.byte b) r).cmd = r.cmd ∧ (rxStep (.byte b) r).len = r.len ∧ (rxStep (.byte b) r).result = r.result

/-- 41_framer_rx.md R124 to R126: `ReadChecksum` compares the byte with the running XOR, and each trailer byte must be 0xAA;
any other byte ends the attempt in `Failed` with ChecksumMismatch or FramingError; the second trailer byte ends it in `Done`
and gives the opcode and the payload. -/
def Obligations.ChecksumAndTrailersAreChecked : Prop :=
  ∀ (r : Rxf) (b : Byte),
    (r.state = .readChecksum → b = r.acc → rxStep (.byte b) r = { r with state := .readTrailer1 }) ∧
    (r.state = .readTrailer1 → b = 0xAA → rxStep (.byte b) r = { r with state := .readTrailer2 }) ∧
    (r.state = .readTrailer2 → b = 0xAA → rxStep (.byte b) r = { r with result := .ok, state := .done } ∧
      rxOutcome (rxStep (.byte b) r) = [.ok r.cmd (r.buf.take r.len.toNat)]) ∧
    (r.state = .readChecksum → b ≠ r.acc → (rxStep (.byte b) r).state = .failed ∧
      (rxStep (.byte b) r).result = .fail .checksumMismatch ∧
      rxOutcome (rxStep (.byte b) r) = [.fail .checksumMismatch]) ∧
    (r.state = .readTrailer1 ∨ r.state = .readTrailer2 → b ≠ 0xAA → (rxStep (.byte b) r).state = .failed ∧
      (rxStep (.byte b) r).result = .fail .framingError ∧ rxOutcome (rxStep (.byte b) r) = [.fail .framingError])

/-- 41_framer_rx.md R115, R116, R126, R129 (92_eei_decisions.md D5, D6): on the transport's turn, in an active state, RXF
takes exactly the oldest byte of the FIFO; the host is given `Ok(cmd, payload)` on `Done`, the kind alone on `Failed`, by the
register `rx.result` (10_state.md R26). The turn and the logs are the model's choice (logs 3, 12). -/
def Obligations.DeliveryTakesOneByte : Prop :=
  ∀ (s : State) (ts : List Turn) (b : Byte) (rest : List Byte),
    s.turns = .deliver :: ts → s.line.isOpen = true → s.line.fifo = b :: rest → s.rx.state.active = true →
    (s.rx.state = .readPayload → s.rx.cnt < 255) →
    step s = .next { s with
      rx := rxStep (.byte b) s.rx
      turns := ts
      line := { s.line with fifo := rest }
      out := { s.out with
        rx := s.out.rx ++ [.byte b]
        rxEvents := s.out.rxEvents ++ rxEvents (.byte b) s.rx
        rxResults := s.out.rxResults ++ match (rxStep (.byte b) s.rx).state, (rxStep (.byte b) s.rx).result with
          | .done, .ok => [.ok (rxStep (.byte b) s.rx).cmd
              ((rxStep (.byte b) s.rx).buf.take (rxStep (.byte b) s.rx).len.toNat)]
          | .failed, .fail kind => [.fail kind]
          | _, _ => [] } }

/-- 41_framer_rx.md R128, 70_reset_and_hazards.md R285 (92_eei_decisions.md D20): a timeout in any active state fails the
attempt with TransportTimeout and keeps the other registers; with a byte waiting it is not delivered. -/
def Obligations.TimeoutFailsAttempt : Prop :=
  ∀ (s : State) (ts : List Turn), s.turns = .timeout :: ts → s.line.isOpen = true → s.rx.state.active = true →
    (s.line.fifo = [] → step s = .next { s with
      rx := { s.rx with result := .fail .transportTimeout, state := .failed }
      turns := ts
      out := { s.out with
        rx := s.out.rx ++ [.timeout]
        rxResults := s.out.rxResults ++ [.fail .transportTimeout] } }) ∧
    (s.line.fifo ≠ [] → step s = .next { s with turns := ts })

/-- 41_framer_rx.md R116, R118, 60_exceptions.md R248 (92_eei_decisions.md D5, D6, D30): in a resting state RXF takes neither
a byte nor a timeout, and `rx_start` begins an attempt in `Idle` with result `None`, clearing no other register; in an
active state `rx_start` is not taken. What is not taken is held. -/
def Obligations.AttemptBeginsOnlyFromRest : Prop :=
  ∀ (s : State) (ts : List Turn),
    (s.rx.state.resting = true → s.turns = .deliver :: ts ∨ s.turns = .timeout :: ts → step s = .next { s with turns := ts }) ∧
    (∀ rest, s.turns = .host :: ts → s.host.prog = .rxStart :: rest →
      step s = if s.rx.state.resting = true then
        .next { s with
          rx := { s.rx with result := .none, state := .idle }, turns := ts, host := { s.host with prog := rest } }
      else .next { s with turns := ts })

/-- 41_framer_rx.md R130: an attempt that is delivered the bytes of `Encode(cmd, payload)` ends in `Done` with
`Ok(cmd, payload)` and has consumed exactly those bytes; nothing outside RXF and its stream has changed. The schedule is one
of many (log 3). -/
def Obligations.ReceiverDecodesEncodedFrame : Prop :=
  ∀ (s : State) (ts : List Turn) (rest : List HostOp) (cmd : Byte) (payload frame later : List Byte),
    encodeFrame cmd payload = some frame → s.line.isOpen = true → s.rx.state.resting = true → s.rx.buf.length = 255 →
    s.host.prog = .rxStart :: rest → s.line.fifo = frame ++ later →
    s.turns = .host :: (List.replicate (payload.length + 7) .deliver ++ ts) →
    ∃ t, runSteps (payload.length + 8) s = .next t ∧ t.rx.state = .done ∧ t.rx.result = .ok ∧
      t.out.rxResults = s.out.rxResults ++ [.ok cmd payload] ∧
      t = { s with
        rx := t.rx
        turns := ts
        host := { s.host with prog := rest }
        line := { s.line with fifo := later }
        out := { s.out with rx := s.out.rx ++ byteItems frame, rxResults := t.out.rxResults } }

/-- 41_framer_rx.md R119, R120, R131: noise in which every 0x55 is followed by a byte that is not 0x55 leaves an attempt in
`Idle` as if it had not been there. -/
def Obligations.CleanNoiseIsIgnored : Prop :=
  ∀ (r : Rxf) (noise : List Byte) (items : List RxItem), r.state = .idle → cleanNoise noise = true →
    rxRun r (byteItems noise ++ items) = rxRun r items

/-- 60_exceptions.md R237, R238 and 41_framer_rx.md R132: a frame with any other checksum byte ends in ChecksumMismatch
with its trailer unread; one with the right checksum and a wrong trailer byte ends in FramingError at that byte. -/
def Obligations.DamagedFramesAreRejected : Prop :=
  ∀ (r : Rxf) (cmd x : Byte) (payload : List Byte) (items : List RxItem), payload.length ≤ 255 → r.buf.length = 255 →
    (x ≠ csum cmd (lenByte payload) payload →
      decodeItems r (byteItems (requestLayout cmd (lenByte payload) payload ++ [x]) ++ items)
        = some ([.fail .checksumMismatch], items)) ∧
    (x ≠ 0xAA →
      decodeItems r
          (byteItems (requestLayout cmd (lenByte payload) payload ++ [csum cmd (lenByte payload) payload, x]) ++ items)
        = some ([.fail .framingError], items) ∧
      decodeItems r
          (byteItems (requestLayout cmd (lenByte payload) payload ++ [csum cmd (lenByte payload) payload, 0xAA, x]) ++ items)
        = some ([.fail .framingError], items))

/-- 41_framer_rx.md R135, R136 and 10_state.md R37: the result of an attempt and what it leaves depend on the items alone,
not on what an earlier attempt left in the registers or in the buffer. -/
def Obligations.AttemptsAreIndependent : Prop :=
  ∀ (r1 r2 : Rxf) (items : List RxItem), r1.buf.length = 255 → r2.buf.length = 255 →
    decodeItems r1 items = decodeItems r2 items

/-- 41_framer_rx.md R134, 70_reset_and_hazards.md R285 (92_eei_decisions.md D20, D31): once `ReadCmd` is reached the attempt
ends within 260 further items, and in every run that meets the progress assumption it does end, whatever the schedule. In
`Idle` it need not end: from every state in `Idle` with nothing waiting and TXF and PACK idle there is a run of the machine
that meets the progress assumption and keeps RXF in an active state for ever (by a cycle of turns, log 3, on an unbounded
FIFO, log 13). -/
def Obligations.AttemptEndsAfterReadCmd : Prop :=
  (∀ (r : Rxf) (items : List RxItem), r.state = .readCmd → 260 ≤ items.length →
    ∃ r' rest, rxRun r items = some (r', rest) ∧ r'.state.resting = true ∧ items.length ≤ rest.length + 260) ∧
  (∀ (run : Nat → State) (k : Nat), FreeRun run → Progress run → (run 0).Inv → (run k).rx.state.inFrame = true →
    ∃ j, k < j ∧ (run j).rx.state.resting = true) ∧
  (∀ s : State, s.rx.state = .idle → s.line = ⟨[], true⟩ → s.par.fifoDepth = none → s.tx.state = .txIdle →
    s.pack.state = .pkIdle →
    ∃ (cycle : List Turn) (run : Nat → State), run 0 = { s with turns := [], cycle := cycle } ∧ IsRun run ∧ Progress run ∧
      ∀ k, (run k).rx.state.active = true)

/-- 10_state.md R21, 20_memory.md R58, 41_framer_rx.md R132: whatever agent moves, the bytes taken by RXF followed by those
in the FIFO change only by the byte that arrives: none is lost, duplicated or reordered. The premise of
70_reset_and_hazards.md R274, that the FIFO does not overflow, is stated for a FIFO of bounded depth. An unbounded one is
92_eei_decisions.md D6's default and the model's choice (log 13): of a transport that drops bytes the claim holds only
while it drops none. That acquiring and releasing the transport keep the bytes is the model's choice too (log 16). -/
def Obligations.ReceivedBytesAreNeverLost : Prop :=
  ∀ (s t : State) (turn : Turn) (ts : List Turn), s.turns = turn :: ts →
    (∀ b depth, turn = .arrive b → s.par.fifoDepth = some depth → s.line.fifo.length < depth.val) → step s = .next t →
    itemBytes t.out.rx ++ t.line.fifo = itemBytes s.out.rx ++ s.line.fifo ++ turn.arrival

/-! ### PACK -/

/-- 42_packer.md R151 (92_eei_decisions.md D14): `pack_start` with any size but 400 x 240 answers ImageDimensionError; PACK
stays idle, no pixel is taken, no byte of the store is written, and the store counts as undefined (log 6). With 400 x 240
PACK begins at (0, 0). In `PkFill` the start is held (10_state.md R21, 92_eei_decisions.md D30). -/
def Obligations.PackStartChecksSize : Prop :=
  ∀ (s : State) (ts : List Turn) (rest : List HostOp) (w h : Nat),
    s.turns = .host :: ts → s.host.prog = .packStart w h :: rest → s.rle.state = .rlIdle →
    step s =
      if s.pack.state = .pkFill then .next { s with turns := ts }
      else if w = 400 ∧ h = 240 then
        .next { s with
          pack := ⟨.pkFill, 0, 0⟩, bmpValid := false, turns := ts, host := { s.host with prog := rest } }
      else
        .next { s with
          bmpValid := false, turns := ts, host := { s.host with prog := rest },
          out := { s.out with packResults := s.out.packResults ++ [.fail .imageDimensionError] } }

/-- 42_packer.md R155 (92_eei_decisions.md D13): one pixel sets or leaves its bit in its byte, which starts from zero at its
first pixel, and moves to the next pixel; after (399, 239) PACK is idle, answers `Ok`, and the store counts as defined: the
model's own bit `bmpValid`, which no other pixel changes (log 6). No other byte changes. Outside
`PkFill`, or with no pixel delivered, a pixel's turn changes nothing (10_state.md R21, 92_eei_decisions.md D30). -/
def Obligations.PixelSetsItsBit : Prop :=
  (∀ (s : State) (ts : List Turn) (red : Nat) (rest : List Nat), s.turns = .pixel :: ts → s.pack.state = .pkFill →
    s.pack.x < 400 → s.pack.y < 240 → s.pixels = red :: rest → Memory.wf s.bmp = true →
    ∃ t, step s = .next t ∧
      Memory.get t.bmp (50 * s.pack.y + s.pack.x / 8) =
        (if s.pack.x % 8 = 0 then 0 else Memory.get s.bmp (50 * s.pack.y + s.pack.x / 8))
          + (if red = 0 then BitVec.ofNat 8 (2 ^ (7 - s.pack.x % 8)) else 0) ∧
      (∀ a, a ≠ 50 * s.pack.y + s.pack.x / 8 → Memory.get t.bmp a = Memory.get s.bmp a) ∧
      t.pack = (if s.pack.x < 399 then { s.pack with x := s.pack.x + 1 }
        else if s.pack.y < 239 then { s.pack with x := 0, y := s.pack.y + 1 }
        else { s.pack with state := .pkIdle }) ∧
      t.out = (if s.pack.x = 399 ∧ s.pack.y = 239 then { s.out with packResults := s.out.packResults ++ [.ok] } else s.out) ∧
      t.bmpValid = (if s.pack.x = 399 ∧ s.pack.y = 239 then true else s.bmpValid) ∧
      t = { s with bmp := t.bmp, pack := t.pack, out := t.out, bmpValid := t.bmpValid, pixels := rest, turns := ts }) ∧
  (∀ (s : State) (ts : List Turn), s.turns = .pixel :: ts → s.pack.state = .pkIdle ∨ s.pixels = [] →
    step s = .next { s with turns := ts })

/-- 42_packer.md R150, R152 and 20_memory.md R54: in the bitmap of an image, the bit `7 - (x mod 8)` of byte `x div 8` of
row `y` is 1 exactly when the red value of pixel (x, y) is 0. -/
def Obligations.BitmapBitIsInk : Prop :=
  ∀ (image : Image) (bytes : List Byte), packImage image = .ok bytes → image.reds.length = 96000 →
    bytes.length = 12000 ∧
    ∀ x y, x < 400 → y < 240 →
      ((bytes.getD (50 * y + x / 8) 0).getLsbD (7 - x % 8) = true ↔ image.reds.getD (400 * y + x) 1 = 0)

/-- 42_packer.md R157: after `pack_start(400, 240)` and 96000 pixels the store equals the function of R150, `pack_result =
Ok` has been emitted once, and PACK is idle. The store then counts as defined (log 6); the schedule is one of many (log
3). -/
def Obligations.PackRunFillsBitmap : Prop :=
  ∀ (s : State) (ts : List Turn) (reds later : List Nat), reds.length = 96000 → s.pack = ⟨.pkFill, 0, 0⟩ →
    Memory.wf s.bmp = true → s.pixels = reds ++ later → s.turns = List.replicate 96000 .pixel ++ ts →
    ∃ t, runSteps 96000 s = .next t ∧ t.pack.state = .pkIdle ∧
      (∀ k, k < 12000 → Memory.get t.bmp k = (packGroups bmpSize reds).getD k 0) ∧
      t = { s with
        bmp := t.bmp, pack := t.pack, bmpValid := true, pixels := later, turns := ts,
        out := { s.out with packResults := s.out.packResults ++ [.ok] } }

/-! ### RLE and SER -/

/-- 43_rle.md R166: a row is blank exactly when every packed byte is zero, equivalently when no bit of it is set, equivalently
when its set-bit count is 0. R170: the count is at most eight per byte. -/
def Obligations.BlankRowHasNoSetBit : Prop :=
  ∀ row : List Byte, (rowBlank row = true ↔ ∀ b ∈ row, b = 0) ∧
    (rowBlank row = true ↔ ∀ b ∈ row, ∀ k, k < 8 → b.getLsbD k = false) ∧
    (rowBlank row = true ↔ setBitCount row = 0) ∧ setBitCount row ≤ 8 * row.length

/-- 43_rle.md R176, 10_state.md R21, 70_reset_and_hazards.md R279 (93_implementation_defined.md U11, U15; logs 6, 7, 13):
`rle_start` begins a scan at row 0 in `RlIdle` on a store that a pack has filled, is held during a scan, and is refused on an
undefined store; `pack_start` is refused during a scan, by the model's choice; a byte that arrives at a full bounded FIFO is
refused. -/
def Obligations.StartsOnUndefinedStoreAreRefused : Prop :=
  ∀ (s : State) (ts : List Turn),
    (∀ rest, s.turns = .host :: ts → s.host.prog = .rleStart :: rest →
      step s =
        if s.rle.state = .rlScan then .next { s with turns := ts }
        else if s.bmpValid = true then
          .next { s with
            turns := ts, host := { s.host with prog := rest }
            rle := { s.rle with r := 0, runOpen := false, state := .rlScan } }
        else .refused .rleOnUndefinedBitmap) ∧
    (∀ rest w h, s.turns = .host :: ts → s.host.prog = .packStart w h :: rest → s.rle.state = .rlScan →
      step s = .refused .packDuringScan) ∧
    (∀ b depth, s.turns = .arrive b :: ts → s.par.fifoDepth = some depth → depth.val ≤ s.line.fifo.length →
      step s = .refused .rxFifoOverflow)

/-- 43_rle.md R167 to R169, R176 (92_eei_decisions.md D4; 00_scope.md R9): one step of the scan examines the row `rle.r`. A
blank row opens or extends the run and emits nothing, and the step ends at once. Another row offers the open run's BlankRun
first, then its PixelRow, and the registers change only when the last of them has been taken. At the end of the bitmap an
open run is offered, and the operation ends with `rle_done` when it has been taken; with none open it ends at once. While a
record is held RLE makes no move (10_state.md R21). Taking is shown by the host's `takeRecord`; SER's is
SerialiserSendsRecord. -/
def Obligations.ScanStep : Prop :=
  ∀ (s : State) (ts : List Turn) (row : List Byte), s.rle.state = .rlScan → row = bmpRow s.bmp s.rle.r →
    let flushed := if s.rle.runOpen then
      [Record.blankRun (BitVec.ofNat 16 s.rle.runStart) (BitVec.ofNat 8 s.rle.runCount)] else []
    (s.turns = .scan :: ts → s.recOut = [] →
      (s.rle.r < 240 → rowBlank row = true → s.rle.runOpen = false → step s = .next { s with
        turns := ts
        rle := { s.rle with runOpen := true, runStart := s.rle.r, runCount := 1, r := s.rle.r + 1 } }) ∧
      (s.rle.r < 240 → rowBlank row = true → s.rle.runOpen = true → step s = .next { s with
        turns := ts
        rle := { s.rle with runCount := s.rle.runCount + 1, r := s.rle.r + 1 } }) ∧
      (s.rle.r < 240 → rowBlank row = false → step s = .next { s with
        turns := ts
        recOut := flushed ++ [.pixelRow (BitVec.ofNat 16 s.rle.r) (BitVec.ofNat 16 (setBitCount row)) 1 row] }) ∧
      (s.rle.r = 240 → s.rle.runOpen = true → step s = .next { s with turns := ts, recOut := flushed }) ∧
      (s.rle.r = 240 → s.rle.runOpen = false → step s = .next { s with
        turns := ts, rle := { s.rle with state := .rlIdle }, out := { s.out with rleDones := s.out.rleDones + 1 } })) ∧
    (s.turns = .scan :: ts → s.recOut ≠ [] → step s = .next { s with turns := ts }) ∧
    (∀ (record : Record) (rest : List Record) (prog : List HostOp), s.turns = .host :: ts →
      s.host.prog = .takeRecord :: prog → s.recOut = record :: rest →
      (rest ≠ [] → step s = .next { s with
        turns := ts, host := { s.host with prog := prog }, recOut := rest
        out := { s.out with records := s.out.records ++ [record] } }) ∧
      (rest = [] → s.rle.r < 240 → rowBlank row = false → step s = .next { s with
        turns := ts, host := { s.host with prog := prog }, recOut := []
        rle := { s.rle with runOpen := false, r := s.rle.r + 1 }
        out := { s.out with records := s.out.records ++ [record] } }) ∧
      (rest = [] → s.rle.r = 240 → step s = .next { s with
        turns := ts, host := { s.host with prog := prog }, recOut := []
        rle := { s.rle with runOpen := false, state := .rlIdle }
        out := { s.out with records := s.out.records ++ [record], rleDones := s.out.rleDones + 1 } }))

/-- 30_encoding.md R86: the record sequence of a bitmap, expanded, gives back the 240 rows in order. -/
def Obligations.ExpandedRecordsAreTheRows : Prop :=
  ∀ rows : List (List Byte), rows.length = 240 → (∀ row ∈ rows, row.length = 50) →
    expandRecords (compress rows) = (List.range 240).zip rows

/-- 43_rle.md R171 to R173 (parts (c) to (f) of R172 and R173 are marked as derived there): the records are in strictly
increasing row order from row 0, each is well formed (a PixelRow carries the set-bit count of its bytes and repeat count 1),
no two BlankRuns are adjacent, and there are 1 to 240 records. -/
def Obligations.RecordsAreOrderedAndMaximal : Prop :=
  ∀ rows : List (List Byte), rows.length = 240 → (∀ row ∈ rows, row.length = 50) →
    (compress rows).Pairwise (fun a b => a.row < b.row) ∧ (compress rows).head?.map Record.row = some 0 ∧
    (∀ r ∈ compress rows, r.wf = true) ∧
    (∀ k a b, (compress rows)[k]? = some a → (compress rows)[k + 1]? = some b → ¬(a.isBlank = true ∧ b.isBlank = true)) ∧
    1 ≤ (compress rows).length ∧ (compress rows).length ≤ 240

/-- 43_rle.md R177: the records taken between `rle_start` and `rle_done`, in order, are `compress` of the bitmap's rows, and
`rle_done` is emitted once, when a consumer takes each record as it is offered. The consumer is the host and the schedule is
one of many (log 3). -/
def Obligations.ScanRunIsCompress : Prop :=
  ∀ (s : State) (ts : List Turn) (prog : List HostOp), s.rle.state = .rlScan → s.rle.r = 0 → s.rle.runOpen = false →
    s.recOut = [] → s.host.prog = List.replicate 241 .takeRecord ++ prog →
    s.turns = (List.replicate 240 [Turn.scan, .host, .host]).flatten ++ [.scan, .host] ++ ts →
    ∃ t, runSteps 722 s = .next t ∧ t.rle.state = .rlIdle ∧
      t = { s with
        rle := t.rle
        turns := ts
        host := { s.host with prog := List.replicate (241 - (compress (bmpRows s.bmp)).length) .takeRecord ++ prog }
        out := { s.out with
          records := s.out.records ++ compress (bmpRows s.bmp), rleDones := s.out.rleDones + 1 } }

/-- 44_commands.md R185, R192, R193 (92_eei_decisions.md D3, D16): SER's pair for each record; when TXF is idle it accepts
the pair and the record is taken, else both are held (log 9). With the last record of RLE's step that step ends (43_rle.md
R176; what its end writes is ScanStep); that the taking and the end are one event is the model's choice (log 8), and so is
the bit `tx.cut`, which an accepted pair clears (log 21). -/
def Obligations.SerialiserSendsRecord : Prop :=
  (∀ (start : Half) (count : Byte), serialise (.blankRun start count) =
    (0x84, [BitVec.ofNat 8 (start.toNat / 256), BitVec.ofNat 8 (start.toNat % 256), count])) ∧
  (∀ (row bits rep : Half) (packed : List Byte), serialise (.pixelRow row bits rep packed) =
    (0x85, be16 row ++ be16 bits ++ be16 rep ++ packed)) ∧
  (∀ (s : State) (ts : List Turn) (record : Record) (rest : List Record), s.turns = .ser :: ts →
    s.recOut = record :: rest → record.wf = true →
    step s =
      if s.tx.state = .txIdle then
        .next { s with
          turns := ts, recOut := rest
          tx := { s.tx with
            cmd := (serialise record).1, len := BitVec.ofNat 8 (serialise record).2.length, pay := (serialise record).2
            idx := 0, state := .txPre1, cut := false }
          rle := if rest = [] then rleAfterStep s.bmp s.rle else s.rle
          out := { s.out with
            records := s.out.records ++ [record]
            rleDones := s.out.rleDones + if rest = [] then donePulses s.rle else 0 } }
      else .next { s with turns := ts })

/-- 30_encoding.md R80, R81, 44_commands.md R185: every record of a bitmap is sent as a blank-rows or pixel-row command with
operands in the ranges of the opcode table, so TXF never refuses SER's pair. -/
def Obligations.RowStreamIsInProtocol : Prop :=
  ∀ rows : List (List Byte), rows.length = 240 → (∀ row ∈ rows, row.length = 50) → ∀ r ∈ compress rows,
    ∃ i : Instr, i.wf = true ∧ i.inProtocol = true ∧ (i.mnemonic = "blank-rows" ∨ i.mnemonic = "pixel-row") ∧
      serialise r = (i.cmd, i.payload)

/-- 10_state.md R21, 43_rle.md R174, R177: whatever agent moves, a power-on reset apart, the records taken followed by those
offered stay the same sequence: each is consumed exactly once. RLE's own move may add to it only when no record is held;
while one is, it changes nothing. -/
def Obligations.RecordsAreConsumedOnce : Prop :=
  ∀ (s t : State) (turn : Turn) (ts : List Turn), s.turns = turn :: ts → turn ≠ .powerOn → step s = .next t →
    (turn ≠ .scan ∨ s.recOut ≠ [] → t.out.records ++ t.recOut = s.out.records ++ s.recOut) ∧
    (turn = .scan → t.out.records = s.out.records)

/-! ### The host's session -/

/-- 45_session.md R222, 20_memory.md R62 (92_eei_decisions.md D1, D24): `await` offers `rx_start` only when TXF is idle and
RXF resting, and then waits on the next value of `rx_result` (the place is the model's, log 12). 45_session.md R221: `txWait`
ends only when TXF is idle and its frame has been handed over whole; after a power-on reset that cut it short the host waits
on (log 21); `finish`, the same after S10's frame, notes that the session is complete (log 15). 70_reset_and_hazards.md R286:
the session is over at the transfer of that frame's last byte, before the host's turn, and not earlier. -/
def Obligations.AwaitWaitsForSender : Prop :=
  (∀ (s : State) (ts : List Turn) (rest : List HostOp), s.turns = .host :: ts → s.host.prog = .txWait :: rest →
    step s =
      if s.tx.state = .txIdle ∧ s.tx.cut = false then .next { s with turns := ts, host := { s.host with prog := rest } }
      else .next { s with turns := ts }) ∧
  (∀ (s : State) (ts : List Turn) (rest : List HostOp), s.turns = .host :: ts → s.host.prog = .finish :: rest →
    step s =
      if s.tx.state = .txIdle ∧ s.tx.cut = false then
        .next { s with turns := ts, host := { s.host with prog := rest, ended := some .complete } }
      else .next { s with turns := ts }) ∧
  (∀ (s : State) (ts : List Turn) (rest : List HostOp), s.turns = .takeTx :: ts → s.line.isOpen = true → s.tx.Inv →
    s.tx.state = .txTrl2 → s.host.prog = .finish :: rest → s.rx.state.resting = true → s.pack.state = .pkIdle →
    s.rle.state = .rlIdle → s.recOut = [] →
    s.sessionOver = false ∧ ∃ t, step s = .next t ∧ t.sessionOver = true) ∧
  ∀ (s : State) (ts : List Turn) (rest : List HostOp) (e : Expect), s.turns = .host :: ts →
    s.host.prog = .await e :: rest →
    step s =
      if s.tx.state = .txIdle ∧ s.rx.state.resting = true then
        .next { s with
          turns := ts, rx := { s.rx with result := .none, state := .idle }
          host := { s.host with prog := .awaiting e s.out.rxResults.length :: rest } }
      else .next { s with turns := ts }

/-- 45_session.md R223, R224 (92_eei_decisions.md D22), 10_state.md R21, R26: an `await` whose value on `rx_result` is a failure
goes on to the next step with ON_ERROR = Continue, and with Abort ends the session (70_reset_and_hazards.md R286), from the
value on: nothing is left of the program but the release of the transport (log 15). There is no retry. The value is taken
from the channel (its log is the model's, log 12), whatever has become of the register `rx.result` since. -/
def Obligations.FailedAwaitFollowsOnError : Prop :=
  ∀ (s : State) (ts : List Turn) (rest : List HostOp) (e : Expect) (seen : Nat) (kind : ErrorKind), s.turns = .host :: ts →
    s.host.prog = .awaiting e seen :: rest → s.out.rxResults[seen]? = some (.fail kind) →
    (s.par.onError = .continue → step s = .next { s with turns := ts, host := { s.host with prog := rest } }) ∧
    (s.par.onError = .abort → s.sessionEnd.isSome = true ∧ step s =
      .next { s with turns := ts, host := { s.host with prog := [.closePort], ended := some .abort } })

/-- 45_session.md R220, R225, 44_commands.md R195 (92_eei_decisions.md D27): on `Ok` from `rx_result` the host of a status poll
reads five big-endian fields out of a ten-byte payload and none out of another, and goes on; any content is data. -/
def Obligations.StatusPollReadsFiveFields : Prop :=
  ∀ (s : State) (ts : List Turn) (rest : List HostOp) (seen : Nat) (cmd : Byte) (payload : List Byte),
    s.turns = .host :: ts → s.host.prog = .awaiting .status seen :: rest →
    s.out.rxResults[seen]? = some (.ok cmd payload) →
    ∃ f, step s = .next { s with turns := ts, host := { s.host with prog := rest, status := f } } ∧
      (payload.length ≠ 10 → f = none) ∧
      (∀ p0 p1 p2 p3 p4 p5 p6 p7 p8 p9, payload = [p0, p1, p2, p3, p4, p5, p6, p7, p8, p9] →
        f.map (fun x => [x.s0.toNat, x.s1.toNat, x.s2.toNat, x.s3.toNat, x.s4.toNat]) =
          some [256 * p0.toNat + p1.toNat, 256 * p2.toNat + p3.toNat, 256 * p4.toNat + p5.toNat,
            256 * p6.toNat + p7.toNat, 256 * p8.toNat + p9.toNat])

/-- 45_session.md R212, R225, 44_commands.md R187 (92_eei_decisions.md D27): on `Ok` from `rx_result` the host of set-density
and set-label-type reads the one byte of a one-byte payload, whatever its value, none out of another, and goes on (log
15). -/
def Obligations.AckByteIsData : Prop :=
  ∀ (s : State) (ts : List Turn) (rest : List HostOp) (seen : Nat) (cmd : Byte) (payload : List Byte),
    s.turns = .host :: ts → s.host.prog = .awaiting .ack seen :: rest →
    s.out.rxResults[seen]? = some (.ok cmd payload) →
    ∃ a, step s = .next { s with turns := ts, host := { s.host with prog := rest, ack := a } } ∧
      (payload.length ≠ 1 → a = none) ∧ (∀ b, payload = [b] → a = some b)

/-- 45_session.md R211 (92_eei_decisions.md D14), program P1c of 95_test_vectors.md: a session on an image of any other
size ends with ImageDimensionError before any byte is sent, and releases the transport (log 15). The session has ended from
`pack_result` on, in the fourth of the six turns (the session's part of 70_reset_and_hazards.md R286); that the run of the
block is over too is not claimed, since TXF and RXF may be in any state. The store counts as undefined: the model's own bit
`bmpValid` (log 6). -/
def Obligations.WrongImageEndsSession : Prop :=
  ∀ (s : State) (ts : List Turn) (rest : List HostOp) (w h : Nat), ¬(w = 400 ∧ h = 240) →
    s.rle.state = .rlIdle → s.pack.state = .pkIdle → s.host.prog = .session w h :: rest →
    s.turns = List.replicate 6 .host ++ ts →
    (∃ t, runSteps 4 s = .next t ∧ t.sessionEnd = some .imageDimensionError) ∧
    runSteps 6 s = .next { s with
      turns := ts, bmpValid := false, line := { s.line with isOpen := false }
      host := { s.host with prog := [], phase := .precheck, ended := some .imageDimensionError }
      out := { s.out with packResults := s.out.packResults ++ [.fail .imageDimensionError] } }

/-- 45_session.md R210, R230 (R230 is marked as derived there, and the place of PrintStart in the chain is the spec's own):
the session's program enters the phases in their order, none twice, and has 107 requests besides the row stream, 108 decode
attempts, one pack and one row stream. -/
def Obligations.SessionProgramShape : Prop :=
  ∀ (par : Params) (w h : Nat),
    (sessionProgram par w h).filterMap (fun op => match op with | .enter phase => some phase | _ => none) =
      [.precheck, .setup, .printStart, .pageStart, .pageSize, .rowStream, .pageEndHandshake, .statusPoll, .printEnd] ∧
    (sessionProgram par w h).countP (fun op => match op with | .offer _ => true | _ => false) = 107 ∧
    (sessionProgram par w h).countP (fun op => match op with | .await _ => true | _ => false) = 108 ∧
    (sessionProgram par w h).count (.pack w h) = 1 ∧ (sessionProgram par w h).count .stream = 1

/-- 45_session.md R212 to R221, R232: whatever the parameters, DENSITY being in 1..5 and LABEL_TYPE in 1..3, every request of the session's program
is a well-formed command with operands in the ranges of the opcode table, and its words decode to it. -/
def Obligations.SessionRequestsAreInProtocol : Prop :=
  ∀ (par : Params) (w h : Nat) (i : Instr), .offer i ∈ sessionProgram par w h →
    i.wf = true ∧ i.inProtocol = true ∧ ∃ words, encode i = some words ∧ decode words = .ok (i, [])

/-- 45_session.md R231, program P1 of 95_test_vectors.md: a session on an all-white 400 x 240 image whose every `await` is
answered by a well-formed frame can run to its end, and then the wire has seen, in order: set-density, set-label-type,
print-start, page-start, set-page-size, one blank-rows command spanning rows 0 to 239, page-end, 100 status polls and
print-end, and no pixel-row; every answer was decoded, in order, and the session is over (70_reset_and_hazards.md R286). The
schedule is one of many (log 3), and the FIFO is unbounded (log 13). -/
def Obligations.AllWhiteSessionRunsToEnd : Prop :=
  ∀ (s : State) (reds : List Nat) (answers : List (Byte × List Byte)), s.Inv → s.runOver = true →
    s.host.prog = [.session 400 240] → s.line.fifo = [] → s.par.fifoDepth = none →
    reds.length = 96000 → (∀ red ∈ reds, red ≠ 0) → s.pixels = reds →
    answers.length = 108 → (∀ a ∈ answers, a.2.length ≤ 255) →
    ∃ (turns : List Turn) (t : State) (wire : List Byte), runSteps turns.length { s with turns := turns } = .next t ∧
      t.host.prog = [] ∧ t.sessionOver = true ∧ t.host.ended = some .complete ∧ t.line.isOpen = false ∧
      encodeFrames (sessionRequests s.par [(0x84, [0x00, 0x00, 0xF0])]) = some wire ∧ t.out.tx = s.out.tx ++ wire ∧
      t.out.rxResults = s.out.rxResults ++ answers.map (fun a => RxResult.ok a.1 a.2)

/-! ### The machine -/

/-- 10_state.md R36, 70_reset_and_hazards.md R265 (92_eei_decisions.md D18): after reset every unit is idle or resting,
`rx.result` is `None`, nothing is offered, and the block does nothing: whatever the transport and the image source hold and
whatever the parameters, no turn of TXF's, RXF's, PACK's, RLE's or SER's changes anything, nor does the host's with nothing
to offer (log 2). A power-on reset during a run gives the units the same states and leaves what has been sent and received,
the transport and the host as they are; a frame it cuts short is marked as cut until the next is accepted (log 21). -/
def Obligations.PowerOnResetsUnits : Prop :=
  (State.reset.tx.state = .txIdle ∧ State.reset.rx.state = .rest ∧ State.reset.rx.result = .none ∧
    State.reset.pack.state = .pkIdle ∧ State.reset.rle.state = .rlIdle ∧ State.reset.recOut = [] ∧
    State.reset.runOver = true ∧ step State.reset = .next State.reset) ∧
  (∀ (turn : Turn) (ts cycle : List Turn) (line : Transport) (pixels : List Nat) (par : Params),
    turn ∈ [Turn.takeTx, .deliver, .timeout, .pixel, .scan, .ser, .host] →
    step { State.reset with turns := turn :: ts, cycle := cycle, line := line, pixels := pixels, par := par } =
      .next { State.reset with turns := ts, cycle := cycle, line := line, pixels := pixels, par := par }) ∧
  ∀ (s : State) (ts : List Turn), s.turns = .powerOn :: ts →
    ∃ t, step s = .next t ∧ t.tx.state = .txIdle ∧ t.tx.cut = (s.tx.cut || s.tx.state != .txIdle) ∧ t.rx.state = .rest ∧ t.rx.result = .none ∧ t.pack.state = .pkIdle ∧
      t.rle.state = .rlIdle ∧ t.recOut = [] ∧ t.out = s.out ∧ t.line = s.line ∧ t.host = s.host ∧ t.pixels = s.pixels ∧
      t.par = s.par ∧ t.turns = ts

/-- The invariant holds after reset. -/
def Obligations.ResetMeetsInvariant : Prop := State.reset.Inv ∧ State.reset.WireWhole

/-- Every step from a state that meets the invariant leads to one that meets it: the running XOR of both framers, the
counters' ranges, the canonical form of the bitmap store, RLE's open run, the offered records, and the kinds on the result
channels (10_state.md R28 to R32; 20_memory.md R65; 60_exceptions.md R235). Of the model's own bits, `tx.cut` is false while a
frame is in progress (log 21), and a scan runs only with `bmpValid` (log 6); the records held are the model's list (log 8). -/
def Obligations.StepKeepsInvariant : Prop := ∀ s t : State, s.Inv → step s = .next t → t.Inv

/-- No step from a state that meets the invariant faults: "An address outside the ranges does not exist; no rule forms one"
(20_memory.md R50). -/
def Obligations.NoStepFromInvariantFaults : Prop := ∀ (s : State) (f : Fault), s.Inv → step s ≠ .fault f

/-- 10_state.md R20, 20_memory.md R61: each agent's move changes only its own unit: "TXF and RXF share nothing with each
other, and neither shares anything with PACK, RLE or SER"; only PACK (and a power-on reset) writes the bitmap store. The transfer of the
last record of RLE's step is an event of RLE too: it ends that step (43_rle.md R176). -/
def Obligations.UnitsShareNothing : Prop :=
  ∀ (s t : State) (turn : Turn) (ts : List Turn), s.turns = turn :: ts → step s = .next t →
    (turn = .takeTx → t.rx = s.rx ∧ t.pack = s.pack ∧ t.rle = s.rle ∧ t.recOut = s.recOut ∧ t.host = s.host) ∧
    (turn = .deliver ∨ turn = .timeout → t.tx = s.tx ∧ t.pack = s.pack ∧ t.rle = s.rle ∧ t.recOut = s.recOut ∧
      t.host = s.host) ∧
    (turn = .pixel → t.tx = s.tx ∧ t.rx = s.rx ∧ t.rle = s.rle ∧ t.recOut = s.recOut ∧ t.line = s.line ∧ t.host = s.host) ∧
    (turn = .scan → t.tx = s.tx ∧ t.rx = s.rx ∧ t.pack = s.pack ∧ t.line = s.line ∧ t.host = s.host) ∧
    (turn = .ser → t.rx = s.rx ∧ t.pack = s.pack ∧ t.line = s.line ∧ t.host = s.host ∧
      (s.tx.state ≠ .txIdle ∨ s.recOut.length ≠ 1 → t.rle = s.rle)) ∧
    (turn ≠ .pixel → turn ≠ .powerOn → t.bmp = s.bmp)
end

