-- ==== Sys2Proof/Laws/Encoding.lean ====
section
/-! SUPPORT. The laws of the fields, of the checksum and of the payload layouts. -/

namespace Sys2Proof.Machine

theorem fromBe16_be16 (v : Half) : fromBe16 (hiByte v) (loByte v) = v := by
  apply BitVec.eq_of_toNat_eq
  have := v.isLt
  simp only [fromBe16, hiByte, loByte, BitVec.toNat_ofNat]
  omega

theorem hiByte_fromBe16 (h l : Byte) : hiByte (fromBe16 h l) = h := by
  apply BitVec.eq_of_toNat_eq
  have := h.isLt
  have := l.isLt
  simp only [fromBe16, hiByte, BitVec.toNat_ofNat]
  omega

theorem loByte_fromBe16 (h l : Byte) : loByte (fromBe16 h l) = l := by
  apply BitVec.eq_of_toNat_eq
  have := h.isLt
  have := l.isLt
  simp only [fromBe16, loByte, BitVec.toNat_ofNat]
  omega

@[simp] theorem be16_fromBe16 (h l : Byte) : be16 (fromBe16 h l) = [h, l] := by
  simp [be16, hiByte_fromBe16, loByte_fromBe16]

@[simp] theorem be16_length (v : Half) : (be16 v).length = 2 := rfl

theorem lenByte_toNat {p : List Byte} (h : p.length ≤ Config.maxLen) : (lenByte p).toNat = p.length := by
  simp only [lenByte, BitVec.toNat_ofNat]
  have : Config.maxLen = 255 := rfl
  omega

theorem lenByte_eq_zero {p : List Byte} (h : p.length ≤ Config.maxLen) : lenByte p = 0 ↔ p = [] := by
  rw [← List.length_eq_zero_iff, ← lenByte_toNat h]
  exact ⟨fun e => by rw [e]; rfl, fun e => BitVec.eq_of_toNat_eq e⟩

/-! ### The running XOR (00_scope.md R11) -/

@[simp] theorem xorAll_nil (a : Byte) : xorAll a [] = a := rfl

@[simp] theorem xorAll_cons (a b : Byte) (p : List Byte) : xorAll a (b :: p) = xorAll (a ^^^ b) p := rfl

theorem xorAll_append (a : Byte) (p q : List Byte) : xorAll a (p ++ q) = xorAll (xorAll a p) q := by
  simp [xorAll, List.foldl_append]

/-- The start value is one more term of the XOR. -/
theorem xorAll_start (a b : Byte) (p : List Byte) : xorAll (a ^^^ b) p = a ^^^ xorAll b p := by
  induction p generalizing b with
  | nil => rfl
  | cons c p ih => rw [xorAll_cons, xorAll_cons, BitVec.xor_assoc, ih]

end Sys2Proof.Machine

namespace Sys2Proof

open Machine

/-- Every well-formed instruction has a payload of legal length. -/
theorem Instr.payload_length_le {i : Instr} (h : i.wf = true) : i.payload.length ≤ Config.maxLen := by
  cases i <;> simp_all [Instr.wf, Instr.payload, printStartPayload, setPageSizePayload, blankRowsPayload, pixelRowPayload,
    pixelRowHeader, be16, Config.maxLen, Config.rowBytes]

/-- Encode has a meaning exactly for payloads of at most 255 bytes (40_framer_tx.md R102). -/
theorem encodeFrame_eq_some {cmd : Byte} {p f : List Byte} :
    encodeFrame cmd p = some f ↔ p.length ≤ Config.maxLen ∧ f = frameLayout cmd (lenByte p) p := by
  unfold encodeFrame
  split_ifs with h <;> simp [h, eq_comm]

theorem encode_eq_some {i : Instr} {w : List Byte} :
    encode i = some w ↔ i.payload.length ≤ Config.maxLen ∧ w = requestLayout i.cmd (lenByte i.payload) i.payload := by
  unfold encode
  split_ifs with h <;> simp [h, eq_comm]

@[simp] theorem requestLayout_length (cmd len : Byte) (p : List Byte) : (requestLayout cmd len p).length = p.length + 4 := by
  simp [requestLayout]

@[simp] theorem frameLayout_length (cmd len : Byte) (p : List Byte) : (frameLayout cmd len p).length = p.length + 7 := by
  simp [frameLayout]

/-- The frames of requests followed by one more. -/
theorem encodeFrames_snoc {fs : List (Byte × List Byte)} {f : Byte × List Byte} {wire frame : List Byte}
    (h : encodeFrames fs = some wire) (hf : encodeFrame f.1 f.2 = some frame) :
    encodeFrames (fs ++ [f]) = some (wire ++ frame) := by
  induction fs generalizing wire with
  | nil => cases h; simp [encodeFrames, hf]
  | cons g fs ih =>
    simp only [encodeFrames, List.cons_append] at h ⊢
    split at h
    · next a b ha hb =>
      cases h
      simp [ha, ih hb]
    · cases h

end Sys2Proof
end

