-- ==== Sys2Proof/Laws/State.lean ====
section
/-! SUPPORT. One lemma per field per update of the state, so that no proof unfolds a record update. -/

namespace Sys2Proof.Machine

variable (s : State)

section
variable (v : Txf)

@[simp] theorem State.withTx_tx : (s.withTx v).tx = v := rfl
@[simp] theorem State.withTx_rx : (s.withTx v).rx = s.rx := rfl
@[simp] theorem State.withTx_pack : (s.withTx v).pack = s.pack := rfl
@[simp] theorem State.withTx_rle : (s.withTx v).rle = s.rle := rfl
@[simp] theorem State.withTx_bmp : (s.withTx v).bmp = s.bmp := rfl
@[simp] theorem State.withTx_bmpValid : (s.withTx v).bmpValid = s.bmpValid := rfl
@[simp] theorem State.withTx_recOut : (s.withTx v).recOut = s.recOut := rfl
@[simp] theorem State.withTx_out : (s.withTx v).out = s.out := rfl
@[simp] theorem State.withTx_line : (s.withTx v).line = s.line := rfl
@[simp] theorem State.withTx_pixels : (s.withTx v).pixels = s.pixels := rfl
@[simp] theorem State.withTx_host : (s.withTx v).host = s.host := rfl
@[simp] theorem State.withTx_par : (s.withTx v).par = s.par := rfl
@[simp] theorem State.withTx_turns : (s.withTx v).turns = s.turns := rfl
@[simp] theorem State.withTx_cycle : (s.withTx v).cycle = s.cycle := rfl

end

section
variable (v : Rxf)

@[simp] theorem State.withRx_tx : (s.withRx v).tx = s.tx := rfl
@[simp] theorem State.withRx_rx : (s.withRx v).rx = v := rfl
@[simp] theorem State.withRx_pack : (s.withRx v).pack = s.pack := rfl
@[simp] theorem State.withRx_rle : (s.withRx v).rle = s.rle := rfl
@[simp] theorem State.withRx_bmp : (s.withRx v).bmp = s.bmp := rfl
@[simp] theorem State.withRx_bmpValid : (s.withRx v).bmpValid = s.bmpValid := rfl
@[simp] theorem State.withRx_recOut : (s.withRx v).recOut = s.recOut := rfl
@[simp] theorem State.withRx_out : (s.withRx v).out = s.out := rfl
@[simp] theorem State.withRx_line : (s.withRx v).line = s.line := rfl
@[simp] theorem State.withRx_pixels : (s.withRx v).pixels = s.pixels := rfl
@[simp] theorem State.withRx_host : (s.withRx v).host = s.host := rfl
@[simp] theorem State.withRx_par : (s.withRx v).par = s.par := rfl
@[simp] theorem State.withRx_turns : (s.withRx v).turns = s.turns := rfl
@[simp] theorem State.withRx_cycle : (s.withRx v).cycle = s.cycle := rfl

end

section
variable (v : Pack)

@[simp] theorem State.withPack_tx : (s.withPack v).tx = s.tx := rfl
@[simp] theorem State.withPack_rx : (s.withPack v).rx = s.rx := rfl
@[simp] theorem State.withPack_pack : (s.withPack v).pack = v := rfl
@[simp] theorem State.withPack_rle : (s.withPack v).rle = s.rle := rfl
@[simp] theorem State.withPack_bmp : (s.withPack v).bmp = s.bmp := rfl
@[simp] theorem State.withPack_bmpValid : (s.withPack v).bmpValid = s.bmpValid := rfl
@[simp] theorem State.withPack_recOut : (s.withPack v).recOut = s.recOut := rfl
@[simp] theorem State.withPack_out : (s.withPack v).out = s.out := rfl
@[simp] theorem State.withPack_line : (s.withPack v).line = s.line := rfl
@[simp] theorem State.withPack_pixels : (s.withPack v).pixels = s.pixels := rfl
@[simp] theorem State.withPack_host : (s.withPack v).host = s.host := rfl
@[simp] theorem State.withPack_par : (s.withPack v).par = s.par := rfl
@[simp] theorem State.withPack_turns : (s.withPack v).turns = s.turns := rfl
@[simp] theorem State.withPack_cycle : (s.withPack v).cycle = s.cycle := rfl

end

section
variable (v : Rle)

@[simp] theorem State.withRle_tx : (s.withRle v).tx = s.tx := rfl
@[simp] theorem State.withRle_rx : (s.withRle v).rx = s.rx := rfl
@[simp] theorem State.withRle_pack : (s.withRle v).pack = s.pack := rfl
@[simp] theorem State.withRle_rle : (s.withRle v).rle = v := rfl
@[simp] theorem State.withRle_bmp : (s.withRle v).bmp = s.bmp := rfl
@[simp] theorem State.withRle_bmpValid : (s.withRle v).bmpValid = s.bmpValid := rfl
@[simp] theorem State.withRle_recOut : (s.withRle v).recOut = s.recOut := rfl
@[simp] theorem State.withRle_out : (s.withRle v).out = s.out := rfl
@[simp] theorem State.withRle_line : (s.withRle v).line = s.line := rfl
@[simp] theorem State.withRle_pixels : (s.withRle v).pixels = s.pixels := rfl
@[simp] theorem State.withRle_host : (s.withRle v).host = s.host := rfl
@[simp] theorem State.withRle_par : (s.withRle v).par = s.par := rfl
@[simp] theorem State.withRle_turns : (s.withRle v).turns = s.turns := rfl
@[simp] theorem State.withRle_cycle : (s.withRle v).cycle = s.cycle := rfl

end

section
variable (v : List Host.Cell)

@[simp] theorem State.withBmp_tx : (s.withBmp v).tx = s.tx := rfl
@[simp] theorem State.withBmp_rx : (s.withBmp v).rx = s.rx := rfl
@[simp] theorem State.withBmp_pack : (s.withBmp v).pack = s.pack := rfl
@[simp] theorem State.withBmp_rle : (s.withBmp v).rle = s.rle := rfl
@[simp] theorem State.withBmp_bmp : (s.withBmp v).bmp = v := rfl
@[simp] theorem State.withBmp_bmpValid : (s.withBmp v).bmpValid = s.bmpValid := rfl
@[simp] theorem State.withBmp_recOut : (s.withBmp v).recOut = s.recOut := rfl
@[simp] theorem State.withBmp_out : (s.withBmp v).out = s.out := rfl
@[simp] theorem State.withBmp_line : (s.withBmp v).line = s.line := rfl
@[simp] theorem State.withBmp_pixels : (s.withBmp v).pixels = s.pixels := rfl
@[simp] theorem State.withBmp_host : (s.withBmp v).host = s.host := rfl
@[simp] theorem State.withBmp_par : (s.withBmp v).par = s.par := rfl
@[simp] theorem State.withBmp_turns : (s.withBmp v).turns = s.turns := rfl
@[simp] theorem State.withBmp_cycle : (s.withBmp v).cycle = s.cycle := rfl

end

section
variable (v : Bool)

@[simp] theorem State.withBmpValid_tx : (s.withBmpValid v).tx = s.tx := rfl
@[simp] theorem State.withBmpValid_rx : (s.withBmpValid v).rx = s.rx := rfl
@[simp] theorem State.withBmpValid_pack : (s.withBmpValid v).pack = s.pack := rfl
@[simp] theorem State.withBmpValid_rle : (s.withBmpValid v).rle = s.rle := rfl
@[simp] theorem State.withBmpValid_bmp : (s.withBmpValid v).bmp = s.bmp := rfl
@[simp] theorem State.withBmpValid_bmpValid : (s.withBmpValid v).bmpValid = v := rfl
@[simp] theorem State.withBmpValid_recOut : (s.withBmpValid v).recOut = s.recOut := rfl
@[simp] theorem State.withBmpValid_out : (s.withBmpValid v).out = s.out := rfl
@[simp] theorem State.withBmpValid_line : (s.withBmpValid v).line = s.line := rfl
@[simp] theorem State.withBmpValid_pixels : (s.withBmpValid v).pixels = s.pixels := rfl
@[simp] theorem State.withBmpValid_host : (s.withBmpValid v).host = s.host := rfl
@[simp] theorem State.withBmpValid_par : (s.withBmpValid v).par = s.par := rfl
@[simp] theorem State.withBmpValid_turns : (s.withBmpValid v).turns = s.turns := rfl
@[simp] theorem State.withBmpValid_cycle : (s.withBmpValid v).cycle = s.cycle := rfl

end

section
variable (v : List Record)

@[simp] theorem State.withRecOut_tx : (s.withRecOut v).tx = s.tx := rfl
@[simp] theorem State.withRecOut_rx : (s.withRecOut v).rx = s.rx := rfl
@[simp] theorem State.withRecOut_pack : (s.withRecOut v).pack = s.pack := rfl
@[simp] theorem State.withRecOut_rle : (s.withRecOut v).rle = s.rle := rfl
@[simp] theorem State.withRecOut_bmp : (s.withRecOut v).bmp = s.bmp := rfl
@[simp] theorem State.withRecOut_bmpValid : (s.withRecOut v).bmpValid = s.bmpValid := rfl
@[simp] theorem State.withRecOut_recOut : (s.withRecOut v).recOut = v := rfl
@[simp] theorem State.withRecOut_out : (s.withRecOut v).out = s.out := rfl
@[simp] theorem State.withRecOut_line : (s.withRecOut v).line = s.line := rfl
@[simp] theorem State.withRecOut_pixels : (s.withRecOut v).pixels = s.pixels := rfl
@[simp] theorem State.withRecOut_host : (s.withRecOut v).host = s.host := rfl
@[simp] theorem State.withRecOut_par : (s.withRecOut v).par = s.par := rfl
@[simp] theorem State.withRecOut_turns : (s.withRecOut v).turns = s.turns := rfl
@[simp] theorem State.withRecOut_cycle : (s.withRecOut v).cycle = s.cycle := rfl

end

section
variable (v : Streams)

@[simp] theorem State.withOut_tx : (s.withOut v).tx = s.tx := rfl
@[simp] theorem State.withOut_rx : (s.withOut v).rx = s.rx := rfl
@[simp] theorem State.withOut_pack : (s.withOut v).pack = s.pack := rfl
@[simp] theorem State.withOut_rle : (s.withOut v).rle = s.rle := rfl
@[simp] theorem State.withOut_bmp : (s.withOut v).bmp = s.bmp := rfl
@[simp] theorem State.withOut_bmpValid : (s.withOut v).bmpValid = s.bmpValid := rfl
@[simp] theorem State.withOut_recOut : (s.withOut v).recOut = s.recOut := rfl
@[simp] theorem State.withOut_out : (s.withOut v).out = v := rfl
@[simp] theorem State.withOut_line : (s.withOut v).line = s.line := rfl
@[simp] theorem State.withOut_pixels : (s.withOut v).pixels = s.pixels := rfl
@[simp] theorem State.withOut_host : (s.withOut v).host = s.host := rfl
@[simp] theorem State.withOut_par : (s.withOut v).par = s.par := rfl
@[simp] theorem State.withOut_turns : (s.withOut v).turns = s.turns := rfl
@[simp] theorem State.withOut_cycle : (s.withOut v).cycle = s.cycle := rfl

end

section
variable (v : Transport)

@[simp] theorem State.withLine_tx : (s.withLine v).tx = s.tx := rfl
@[simp] theorem State.withLine_rx : (s.withLine v).rx = s.rx := rfl
@[simp] theorem State.withLine_pack : (s.withLine v).pack = s.pack := rfl
@[simp] theorem State.withLine_rle : (s.withLine v).rle = s.rle := rfl
@[simp] theorem State.withLine_bmp : (s.withLine v).bmp = s.bmp := rfl
@[simp] theorem State.withLine_bmpValid : (s.withLine v).bmpValid = s.bmpValid := rfl
@[simp] theorem State.withLine_recOut : (s.withLine v).recOut = s.recOut := rfl
@[simp] theorem State.withLine_out : (s.withLine v).out = s.out := rfl
@[simp] theorem State.withLine_line : (s.withLine v).line = v := rfl
@[simp] theorem State.withLine_pixels : (s.withLine v).pixels = s.pixels := rfl
@[simp] theorem State.withLine_host : (s.withLine v).host = s.host := rfl
@[simp] theorem State.withLine_par : (s.withLine v).par = s.par := rfl
@[simp] theorem State.withLine_turns : (s.withLine v).turns = s.turns := rfl
@[simp] theorem State.withLine_cycle : (s.withLine v).cycle = s.cycle := rfl

end

section
variable (v : List Nat)

@[simp] theorem State.withPixels_tx : (s.withPixels v).tx = s.tx := rfl
@[simp] theorem State.withPixels_rx : (s.withPixels v).rx = s.rx := rfl
@[simp] theorem State.withPixels_pack : (s.withPixels v).pack = s.pack := rfl
@[simp] theorem State.withPixels_rle : (s.withPixels v).rle = s.rle := rfl
@[simp] theorem State.withPixels_bmp : (s.withPixels v).bmp = s.bmp := rfl
@[simp] theorem State.withPixels_bmpValid : (s.withPixels v).bmpValid = s.bmpValid := rfl
@[simp] theorem State.withPixels_recOut : (s.withPixels v).recOut = s.recOut := rfl
@[simp] theorem State.withPixels_out : (s.withPixels v).out = s.out := rfl
@[simp] theorem State.withPixels_line : (s.withPixels v).line = s.line := rfl
@[simp] theorem State.withPixels_pixels : (s.withPixels v).pixels = v := rfl
@[simp] theorem State.withPixels_host : (s.withPixels v).host = s.host := rfl
@[simp] theorem State.withPixels_par : (s.withPixels v).par = s.par := rfl
@[simp] theorem State.withPixels_turns : (s.withPixels v).turns = s.turns := rfl
@[simp] theorem State.withPixels_cycle : (s.withPixels v).cycle = s.cycle := rfl

end

section
variable (v : HostSide)

@[simp] theorem State.withHost_tx : (s.withHost v).tx = s.tx := rfl
@[simp] theorem State.withHost_rx : (s.withHost v).rx = s.rx := rfl
@[simp] theorem State.withHost_pack : (s.withHost v).pack = s.pack := rfl
@[simp] theorem State.withHost_rle : (s.withHost v).rle = s.rle := rfl
@[simp] theorem State.withHost_bmp : (s.withHost v).bmp = s.bmp := rfl
@[simp] theorem State.withHost_bmpValid : (s.withHost v).bmpValid = s.bmpValid := rfl
@[simp] theorem State.withHost_recOut : (s.withHost v).recOut = s.recOut := rfl
@[simp] theorem State.withHost_out : (s.withHost v).out = s.out := rfl
@[simp] theorem State.withHost_line : (s.withHost v).line = s.line := rfl
@[simp] theorem State.withHost_pixels : (s.withHost v).pixels = s.pixels := rfl
@[simp] theorem State.withHost_host : (s.withHost v).host = v := rfl
@[simp] theorem State.withHost_par : (s.withHost v).par = s.par := rfl
@[simp] theorem State.withHost_turns : (s.withHost v).turns = s.turns := rfl
@[simp] theorem State.withHost_cycle : (s.withHost v).cycle = s.cycle := rfl

end

section
variable (v : List Turn)

@[simp] theorem State.withTurns_tx : (s.withTurns v).tx = s.tx := rfl
@[simp] theorem State.withTurns_rx : (s.withTurns v).rx = s.rx := rfl
@[simp] theorem State.withTurns_pack : (s.withTurns v).pack = s.pack := rfl
@[simp] theorem State.withTurns_rle : (s.withTurns v).rle = s.rle := rfl
@[simp] theorem State.withTurns_bmp : (s.withTurns v).bmp = s.bmp := rfl
@[simp] theorem State.withTurns_bmpValid : (s.withTurns v).bmpValid = s.bmpValid := rfl
@[simp] theorem State.withTurns_recOut : (s.withTurns v).recOut = s.recOut := rfl
@[simp] theorem State.withTurns_out : (s.withTurns v).out = s.out := rfl
@[simp] theorem State.withTurns_line : (s.withTurns v).line = s.line := rfl
@[simp] theorem State.withTurns_pixels : (s.withTurns v).pixels = s.pixels := rfl
@[simp] theorem State.withTurns_host : (s.withTurns v).host = s.host := rfl
@[simp] theorem State.withTurns_par : (s.withTurns v).par = s.par := rfl
@[simp] theorem State.withTurns_turns : (s.withTurns v).turns = v := rfl
@[simp] theorem State.withTurns_cycle : (s.withTurns v).cycle = s.cycle := rfl

end

section
variable (p : List HostOp)

@[simp] theorem State.withProg_tx : (s.withProg p).tx = s.tx := rfl
@[simp] theorem State.withProg_rx : (s.withProg p).rx = s.rx := rfl
@[simp] theorem State.withProg_pack : (s.withProg p).pack = s.pack := rfl
@[simp] theorem State.withProg_rle : (s.withProg p).rle = s.rle := rfl
@[simp] theorem State.withProg_bmp : (s.withProg p).bmp = s.bmp := rfl
@[simp] theorem State.withProg_bmpValid : (s.withProg p).bmpValid = s.bmpValid := rfl
@[simp] theorem State.withProg_recOut : (s.withProg p).recOut = s.recOut := rfl
@[simp] theorem State.withProg_out : (s.withProg p).out = s.out := rfl
@[simp] theorem State.withProg_line : (s.withProg p).line = s.line := rfl
@[simp] theorem State.withProg_pixels : (s.withProg p).pixels = s.pixels := rfl
@[simp] theorem State.withProg_par : (s.withProg p).par = s.par := rfl
@[simp] theorem State.withProg_turns : (s.withProg p).turns = s.turns := rfl
@[simp] theorem State.withProg_cycle : (s.withProg p).cycle = s.cycle := rfl
@[simp] theorem State.withProg_host_prog : (s.withProg p).host.prog = p := rfl
@[simp] theorem State.withProg_host_phase : (s.withProg p).host.phase = s.host.phase := rfl
@[simp] theorem State.withProg_host_ack : (s.withProg p).host.ack = s.host.ack := rfl
@[simp] theorem State.withProg_host_status : (s.withProg p).host.status = s.host.status := rfl

end

end Sys2Proof.Machine
end

