-- ==== Sys2Proof/Laws/Memory.lean ====
section
/-! SUPPORT. The laws of the bitmap store: reading what was written, leaving the rest alone, keeping the canonical form. -/

namespace Sys2Proof.Machine

/-- What the canonical form says, as two facts. -/
theorem Memory.wf_iff (m : List Host.Cell) :
    Memory.wf m = true ↔ m.Pairwise (fun c d => c.1 < d.1) ∧ ∀ c ∈ m, c.1 < bmpSize ∧ c.2 ≠ 0 := by
  simp [Memory.wf, List.all_eq_true]

theorem Memory.get_of_not_listed {m : List Host.Cell} {a : Nat} (h : ∀ c ∈ m, c.1 ≠ a) : Memory.get m a = 0 := by
  induction m with
  | nil => rfl
  | cons c m ih =>
    rw [Memory.get, if_neg (h c (by simp)), ih (fun d hd => h d (by simp [hd]))]

/-- Reading the byte just written gives it back. -/
theorem Memory.get_set_same {m : List Host.Cell} (hs : m.Pairwise (fun c d => c.1 < d.1)) (a : Nat) (b : Byte) :
    Memory.get (Memory.set m a b) a = b := by
  induction m with
  | nil =>
    unfold Memory.set
    split_ifs with hb
    · exact hb.symm
    · simp [Memory.get]
  | cons c m ih =>
    obtain ⟨hc, hm⟩ := List.pairwise_cons.1 hs
    unfold Memory.set
    split_ifs with h1 hb h2 hb
    · rw [hb]
      exact Memory.get_of_not_listed (by
        intro d hd
        rcases List.mem_cons.1 hd with rfl | hd
        · omega
        · have := hc d hd; omega)
    · simp [Memory.get]
    · rw [hb]
      exact Memory.get_of_not_listed (fun d hd => by have := hc d hd; omega)
    · simp [Memory.get]
    · rw [Memory.get, if_neg (by omega), ih hm]

/-- A write leaves every other byte alone. -/
theorem Memory.get_set_other (m : List Host.Cell) {a a' : Nat} (h : a' ≠ a) (b : Byte) :
    Memory.get (Memory.set m a b) a' = Memory.get m a' := by
  induction m with
  | nil =>
    unfold Memory.set
    split_ifs with hb
    · rfl
    · simp [Memory.get, Ne.symm h]
  | cons c m ih =>
    unfold Memory.set
    split_ifs with h1 hb h2 hb
    · rfl
    · simp [Memory.get, Ne.symm h]
    · simp [Memory.get, ← h2, Ne.symm h]
    · simp [Memory.get, ← h2, Ne.symm h]
    · simp [Memory.get, ih]

theorem Memory.mem_set {m : List Host.Cell} {a : Nat} {b : Byte} {c : Host.Cell} (h : c ∈ Memory.set m a b) :
    c ∈ m ∨ (c = (a, b) ∧ b ≠ 0) := by
  induction m with
  | nil =>
    unfold Memory.set at h
    split_ifs at h with hb
    · exact absurd h (by simp)
    · exact .inr ⟨by simpa using h, hb⟩
  | cons d m ih =>
    unfold Memory.set at h
    split_ifs at h with h1 hb h2 hb
    · exact .inl h
    · rcases List.mem_cons.1 h with rfl | h
      · exact .inr ⟨rfl, hb⟩
      · exact .inl h
    · exact .inl (by simp [h])
    · rcases List.mem_cons.1 h with rfl | h
      · exact .inr ⟨rfl, hb⟩
      · exact .inl (by simp [h])
    · rcases List.mem_cons.1 h with rfl | h
      · exact .inl (by simp)
      · exact (ih h).imp_left (by simp_all)

theorem Memory.set_sorted {m : List Host.Cell} (hs : m.Pairwise (fun c d => c.1 < d.1)) (a : Nat) (b : Byte) :
    (Memory.set m a b).Pairwise (fun c d => c.1 < d.1) := by
  induction m with
  | nil =>
    unfold Memory.set
    split_ifs with hb <;> simp
  | cons c m ih =>
    obtain ⟨hc, hm⟩ := List.pairwise_cons.1 hs
    unfold Memory.set
    split_ifs with h1 hb h2 hb
    · exact hs
    · refine List.pairwise_cons.2 ⟨fun d hd => ?_, hs⟩
      rcases List.mem_cons.1 hd with rfl | hd
      · exact h1
      · have := hc d hd; omega
    · exact hm
    · refine List.pairwise_cons.2 ⟨fun d hd => ?_, hm⟩
      have := hc d hd; omega
    · refine List.pairwise_cons.2 ⟨fun d hd => ?_, ih hm⟩
      rcases Memory.mem_set hd with hd | ⟨rfl, -⟩
      · exact hc d hd
      · omega

/-- Every write inside the store keeps the canonical form. -/
theorem Memory.set_wf {m : List Host.Cell} (h : Memory.wf m = true) {a : Nat} (ha : a < bmpSize) (b : Byte) :
    Memory.wf (Memory.set m a b) = true := by
  obtain ⟨hs, hc⟩ := (Memory.wf_iff m).1 h
  refine (Memory.wf_iff _).2 ⟨Memory.set_sorted hs a b, fun c hmem => ?_⟩
  rcases Memory.mem_set hmem with hmem | ⟨rfl, hb⟩
  · exact hc c hmem
  · exact ⟨ha, hb⟩

/-- An address of the store is one number below its size. -/
theorem bmpAddr_lt {y i : Nat} (hy : y < Config.rows) (hi : i < Config.rowBytes) : bmpAddr y i < bmpSize := by
  simp only [bmpAddr, bmpSize, Config.rows, Config.rowBytes] at *; omega

theorem bmpAddr_inj {y i y' i' : Nat} (hi : i < Config.rowBytes) (hi' : i' < Config.rowBytes) :
    bmpAddr y i = bmpAddr y' i' ↔ y = y' ∧ i = i' := by
  simp only [bmpAddr, Config.rowBytes] at *; omega

/-- Everything a write to the store can do. -/
theorem bmpWrite_cases {s t : State} {y i : Nat} {v : Byte} (h : bmpWrite s y i v = some t) :
    y < Config.rows ∧ i < Config.rowBytes ∧ t = s.withBmp (Memory.set s.bmp (bmpAddr y i) v) := by
  unfold bmpWrite at h
  split_ifs at h with hr
  exact ⟨hr.1, hr.2, (Option.some.inj h).symm⟩

/-- The reset state's store is in canonical form. -/
theorem reset_bmp_wf : Memory.wf State.reset.bmp = true := by decide

theorem bmpRow_length (m : List Host.Cell) (y : Nat) : (bmpRow m y).length = Config.rowBytes := by simp [bmpRow]

end Sys2Proof.Machine
end

