-- ==== Sys2Proof/Laws/Units.lean ====
section
/-! SUPPORT. One spec lemma per shared operation: everything it can do when it answers a next state. -/

namespace Sys2Proof.Machine

/-! ### The request channel -/

/-- Every instruction is the offer of its (cmd, payload) on `tx_req`. -/
theorem exec_eq_txRequest (i : Instr) (s : State) : exec i s = txRequest i.cmd i.payload s := by cases i <;> rfl

theorem txRequest_idle {s : State} (h : s.tx.state = .txIdle) (cmd : Byte) {p : List Byte}
    (hp : p.length ≤ Config.maxLen) : txRequest cmd p s = .next (s.withTx (txLatch s.tx cmd p)) := by
  simp [txRequest, h, Nat.not_lt.2 hp]

theorem txRequest_held {s : State} (h : s.tx.state ≠ .txIdle) (cmd : Byte) {p : List Byte}
    (hp : p.length ≤ Config.maxLen) : txRequest cmd p s = .next s := by
  unfold txRequest
  rw [if_neg (Nat.not_lt.2 hp)]
  split
  · contradiction
  · rfl

theorem txRequest_cases {cmd : Byte} {p : List Byte} {s t : State} (h : txRequest cmd p s = .next t) :
    p.length ≤ Config.maxLen
      ∧ ((s.tx.state = .txIdle ∧ t = s.withTx (txLatch s.tx cmd p)) ∨ (s.tx.state ≠ .txIdle ∧ t = s)) := by
  have hp : p.length ≤ Config.maxLen := by
    by_contra hn
    simp [txRequest, Nat.lt_of_not_le hn] at h
  by_cases hi : s.tx.state = .txIdle
  · rw [txRequest_idle hi cmd hp] at h
    exact ⟨hp, .inl ⟨hi, (Host.Outcome.next.inj h).symm⟩⟩
  · rw [txRequest_held hi cmd hp] at h
    exact ⟨hp, .inr ⟨hi, (Host.Outcome.next.inj h).symm⟩⟩

theorem txRequest_not_fault (cmd : Byte) (p : List Byte) (s : State) (f : Fault) : txRequest cmd p s ≠ .fault f := by
  unfold txRequest
  split
  · simp
  · split <;> simp

/-! ### The transport's turns -/

theorem turnTakeTx_cases {s t : State} (h : turnTakeTx s = .next t) :
    t = s ∨ (s.tx.state ≠ .txIdle ∧ ∃ b, txOffer s.tx = some b ∧ t = txEmit b s) := by
  unfold turnTakeTx at h
  split_ifs at h with hc
  · exact .inl (Host.Outcome.next.inj h).symm
  · split at h
    · cases h
    · next b hb => exact .inr ⟨fun hi => hc (.inr hi), b, hb, (Host.Outcome.next.inj h).symm⟩

theorem rxTake_cases {item : RxItem} {s t : State} (h : rxTake item s = .next t) :
    t = s ∨ (s.rx.state.resting = false ∧ (s.rx.state = .readPayload → item ≠ .timeout → s.rx.cnt < Config.maxLen)
      ∧ t = (s.withRx (rxStep item s.rx)).withOut
        { s.out with
          rx := s.out.rx ++ [item]
          rxEvents := s.out.rxEvents ++ rxEvents item s.rx
          rxResults := s.out.rxResults ++ rxOutcome (rxStep item s.rx) }) := by
  unfold rxTake at h
  split_ifs at h with hr hb
  · exact .inl (Host.Outcome.next.inj h).symm
  · exact .inr ⟨by simpa using hr, fun h1 h2 => by by_contra h3; exact hb ⟨h1, h2, Nat.not_lt.1 h3⟩,
      (Host.Outcome.next.inj h).symm⟩

theorem turnDeliver_cases {s t : State} (h : turnDeliver s = .next t) :
    t = s ∨ (s.rx.state.resting = false ∧ ∃ b rest, s.line.fifo = b :: rest
      ∧ rxTake (.byte b) (s.withLine { s.line with fifo := rest }) = .next t) := by
  unfold turnDeliver at h
  split_ifs at h with hc
  · exact .inl (Host.Outcome.next.inj h).symm
  · split at h
    · exact .inl (Host.Outcome.next.inj h).symm
    · next b rest hf => exact .inr ⟨by simpa using fun hr => hc (.inr hr), b, rest, hf, h⟩

theorem turnTimeout_cases {s t : State} (h : turnTimeout s = .next t) :
    t = s ∨ (s.rx.state.resting = false ∧ s.line.fifo = [] ∧ rxTake .timeout s = .next t) := by
  unfold turnTimeout at h
  split_ifs at h with hc
  · exact .inl (Host.Outcome.next.inj h).symm
  · split at h
    · next hf => exact .inr ⟨by simpa using fun hr => hc (.inr hr), hf, h⟩
    · exact .inl (Host.Outcome.next.inj h).symm

theorem turnArrive_cases {b : Byte} {s t : State} (h : turnArrive b s = .next t) :
    t = s.withLine { s.line with fifo := s.line.fifo ++ [b] } := by
  unfold turnArrive at h
  split at h
  · exact (Host.Outcome.next.inj h).symm
  · split_ifs at h
    exact (Host.Outcome.next.inj h).symm

/-! ### PACK -/

theorem packPixel_cases {red : Nat} {s t : State} (h : packPixel red s = .next t) :
    s.pack.y < Config.rows ∧ pixelByte s.pack.x < Config.rowBytes ∧
      ∃ m, m = Memory.set s.bmp (bmpAddr s.pack.y (pixelByte s.pack.x))
          (packByte red s.pack.x (Memory.get s.bmp (bmpAddr s.pack.y (pixelByte s.pack.x))))
        ∧ (((packNext s.pack).state = .pkIdle
              ∧ t = packAnswer .ok (((s.withBmp m).withPack (packNext s.pack)).withBmpValid true))
          ∨ ((packNext s.pack).state ≠ .pkIdle ∧ t = (s.withBmp m).withPack (packNext s.pack))) := by
  unfold packPixel bmpRead at h
  by_cases hr : s.pack.y < Config.rows ∧ pixelByte s.pack.x < Config.rowBytes
  · simp only [if_pos hr, bmpWrite] at h
    refine ⟨hr.1, hr.2, _, rfl, ?_⟩
    by_cases he : (packNext s.pack).state = .pkIdle
    · rw [if_pos he] at h
      exact .inl ⟨he, (Host.Outcome.next.inj h).symm⟩
    · rw [if_neg he] at h
      exact .inr ⟨he, (Host.Outcome.next.inj h).symm⟩
  · simp only [if_neg hr] at h
    cases h

theorem turnPixel_cases {s t : State} (h : turnPixel s = .next t) :
    t = s ∨ (s.pack.state = .pkFill ∧ ∃ red rest, s.pixels = red :: rest ∧ packPixel red (s.withPixels rest) = .next t) := by
  unfold turnPixel at h
  split at h
  · next red rest hp hx => exact .inr ⟨hp, red, rest, hx, h⟩
  · exact .inl (Host.Outcome.next.inj h).symm

/-! ### RLE and SER -/

theorem turnScan_cases {s t : State} (h : turnScan s = .next t) :
    t = s ∨ (s.rle.state = .rlScan ∧ s.recOut = [] ∧ s.rle.r ≤ Config.rows ∧
      ((stepRecords s.bmp s.rle = [] ∧ t = rleEndStep s)
        ∨ (stepRecords s.bmp s.rle ≠ [] ∧ t = s.withRecOut (stepRecords s.bmp s.rle)))) := by
  unfold turnScan at h
  split at h
  · exact .inl (Host.Outcome.next.inj h).symm
  · next hs =>
    split_ifs at h with ho h1 h2
    · exact .inl (Host.Outcome.next.inj h).symm
    · exact .inr ⟨hs, by simpa using ho, Nat.not_lt.1 h1, .inl ⟨h2, (Host.Outcome.next.inj h).symm⟩⟩
    · exact .inr ⟨hs, by simpa using ho, Nat.not_lt.1 h1, .inr ⟨h2, (Host.Outcome.next.inj h).symm⟩⟩

@[simp] theorem rleEndStep_tx (s : State) : (rleEndStep s).tx = s.tx := rfl
@[simp] theorem rleEndStep_rx (s : State) : (rleEndStep s).rx = s.rx := rfl
@[simp] theorem rleEndStep_pack (s : State) : (rleEndStep s).pack = s.pack := rfl
@[simp] theorem rleEndStep_bmp (s : State) : (rleEndStep s).bmp = s.bmp := rfl
@[simp] theorem rleEndStep_bmpValid (s : State) : (rleEndStep s).bmpValid = s.bmpValid := rfl
@[simp] theorem rleEndStep_recOut (s : State) : (rleEndStep s).recOut = s.recOut := rfl
@[simp] theorem rleEndStep_line (s : State) : (rleEndStep s).line = s.line := rfl
@[simp] theorem rleEndStep_pixels (s : State) : (rleEndStep s).pixels = s.pixels := rfl
@[simp] theorem rleEndStep_host (s : State) : (rleEndStep s).host = s.host := rfl
@[simp] theorem rleEndStep_par (s : State) : (rleEndStep s).par = s.par := rfl
@[simp] theorem rleEndStep_turns (s : State) : (rleEndStep s).turns = s.turns := rfl
@[simp] theorem rleEndStep_cycle (s : State) : (rleEndStep s).cycle = s.cycle := rfl
@[simp] theorem rleEndStep_rle (s : State) : (rleEndStep s).rle = rleAfterStep s.bmp s.rle := rfl
@[simp] theorem rleEndStep_records (s : State) : (rleEndStep s).out.records = s.out.records := rfl

theorem takeRecord_last {s : State} {record : Record} (h : s.recOut = [record]) :
    takeRecord s = rleEndStep ((s.withRecOut []).withOut { s.out with records := s.out.records ++ [record] }) := by
  simp [takeRecord, h]

theorem takeRecord_more {s : State} {record : Record} {rest : List Record} (h : s.recOut = record :: rest)
    (hr : rest ≠ []) :
    takeRecord s = (s.withRecOut rest).withOut { s.out with records := s.out.records ++ [record] } := by
  obtain ⟨x, xs, rfl⟩ := List.exists_cons_of_ne_nil hr
  simp [takeRecord, h]

/-- What taking a record does: it leaves `rec_out` for the stream REC, RLE's step ends with the last one, and nothing
outside RLE and the streams changes. -/
theorem takeRecord_spec (s : State) :
    takeRecord s = { s with rle := (takeRecord s).rle, recOut := s.recOut.tail, out := (takeRecord s).out }
      ∧ (takeRecord s).out.records ++ s.recOut.tail = s.out.records ++ s.recOut
      ∧ (s.recOut.length ≠ 1 → (takeRecord s).rle = s.rle)
      ∧ (s.recOut.length = 1 → (takeRecord s).rle = rleAfterStep s.bmp s.rle) := by
  rcases hr : s.recOut with _ | ⟨record, rest⟩
  · have h : takeRecord s = s := by simp [takeRecord, hr]
    rw [h, List.tail_nil, List.append_nil, ← hr]
    exact ⟨rfl, rfl, fun _ => rfl, by simp [hr]⟩
  · rcases rest with _ | ⟨x, rest⟩
    · rw [takeRecord_last hr]
      exact ⟨rfl, by simp [rleEndStep, State.withOut, State.withRle, State.withRecOut], by simp, fun _ => rfl⟩
    · rw [takeRecord_more hr (List.cons_ne_nil _ _)]
      exact ⟨rfl, by simp [State.withOut], fun _ => rfl, by simp⟩

theorem turnSer_cases {s t : State} (h : turnSer s = .next t) :
    t = s ∨ ∃ record rest, s.recOut = record :: rest ∧ s.tx.state = .txIdle
      ∧ txRequest (serialise record).1 (serialise record).2 (takeRecord s) = .next t := by
  unfold turnSer at h
  split at h
  · exact .inl (Host.Outcome.next.inj h).symm
  · next record rest hr =>
    split_ifs at h with hi
    · exact .inr ⟨record, rest, hr, hi, h⟩
    · exact .inl (Host.Outcome.next.inj h).symm

/-! ### The host's wait for TXF -/

theorem handedOver_iff (t : Txf) : t.handedOver = true ↔ t.state = .txIdle ∧ t.cut = false := by
  simp [Txf.handedOver]

/-- `txWait` goes on when the frame has been handed over whole, and else changes nothing. -/
theorem hostTxWait_cases (rest : List HostOp) (s : State) :
    (s.tx.handedOver = true ∧ hostTxWait rest s = hostPop rest s)
      ∨ (s.tx.handedOver = false ∧ hostTxWait rest s = s) := by
  unfold hostTxWait
  split_ifs with h
  · exact .inl ⟨h, rfl⟩
  · exact .inr ⟨by simpa using h, rfl⟩

/-- `finish` notes the end of the session when S10's frame has been handed over whole, and else changes nothing. -/
theorem hostFinish_cases (rest : List HostOp) (s : State) :
    (s.tx.handedOver = true ∧ hostFinish rest s = hostEnd .complete rest s)
      ∨ (s.tx.handedOver = false ∧ hostFinish rest s = s) := by
  unfold hostFinish
  split_ifs with h
  · exact .inl ⟨h, rfl⟩
  · exact .inr ⟨by simpa using h, rfl⟩

/-! ### The host's wait for RXF -/

/-- `awaiting` waits for the attempt's value, reads an `Ok`, and on a failure follows ON_ERROR. -/
theorem hostAwaiting_cases (e : Expect) (seen : Nat) (rest : List HostOp) (s : State) :
    (s.out.rxResults[seen]? = none ∧ hostAwaiting e seen rest s = s)
      ∨ (∃ cmd payload, s.out.rxResults[seen]? = some (.ok cmd payload)
        ∧ hostAwaiting e seen rest s = hostPop rest (hostRead e payload s))
      ∨ (∃ kind, s.out.rxResults[seen]? = some (.fail kind) ∧ s.par.onError = .continue
        ∧ hostAwaiting e seen rest s = hostPop rest s)
      ∨ (∃ kind, s.out.rxResults[seen]? = some (.fail kind) ∧ s.par.onError = .abort
        ∧ hostAwaiting e seen rest s = hostStop .abort s) := by
  unfold hostAwaiting
  split
  · next h => exact .inl ⟨h, rfl⟩
  · next h => exact .inr (.inl ⟨_, _, h, rfl⟩)
  · next h =>
    split
    · next hc => exact .inr (.inr (.inl ⟨_, h, hc, rfl⟩))
    · next hc => exact .inr (.inr (.inr ⟨_, h, hc, rfl⟩))

/-- A latched request is not cut; a reset in mid frame cuts it. -/
@[simp] theorem txLatch_cut (t : Txf) (cmd : Byte) (p : List Byte) : (txLatch t cmd p).cut = false := rfl
@[simp] theorem turnPowerOn_cut (s : State) :
    (turnPowerOn s).tx.cut = (s.tx.cut || s.tx.state != .txIdle) := rfl

/-! ### The step -/

theorem step_nil {s : State} (h : s.turns = []) (hc : s.cycle = []) : step s = .next s := by simp [step, h, hc]

theorem step_cons {s : State} {t : Turn} {ts : List Turn} (h : s.turns = t :: ts) : step s = runTurn t (s.withTurns ts) := by
  simp [step, h]

theorem step_cycle {s : State} {t : Turn} {ts : List Turn} (h : s.turns = []) (hc : s.cycle = t :: ts) :
    step s = runTurn t (s.withTurns ts) := by
  simp [step, h, hc]

/-- A step does nothing, or is one agent's turn. -/
theorem step_cases (s : State) : step s = .next s ∨ ∃ t ts, step s = runTurn t (s.withTurns ts) := by
  rcases ht : s.turns with _ | ⟨t, ts⟩
  · rcases hc : s.cycle with _ | ⟨t, ts⟩
    · exact .inl (step_nil ht hc)
    · exact .inr ⟨t, ts, step_cycle ht hc⟩
  · exact .inr ⟨t, ts, step_cons ht⟩

/-- The host's offer: the instruction runs, and the host goes on when TXF was idle. -/
theorem hostOffer_cases (i : Instr) (next : List HostOp) (s : State) :
    (s.tx.state = .txIdle ∧ hostOffer i next s = exec i (hostPop next s))
      ∨ (s.tx.state ≠ .txIdle ∧ hostOffer i next s = exec i s) := by
  unfold hostOffer
  split_ifs with h
  · exact .inl ⟨h, rfl⟩
  · exact .inr ⟨h, rfl⟩

end Sys2Proof.Machine
end

