-- ==== Sys2Proof/Laws/Invariants.lean ====
section
/-! SUPPORT. What each unit's own step keeps: the registers' invariants of TXF, RXF, PACK and RLE, unit by unit. -/

namespace Sys2Proof.Machine

/-! ### TXF -/

theorem Txf.latched_len {t : Txf} (h : t.latched) : t.len.toNat = t.pay.length := by
  rw [h.2.1, lenByte_toNat h.1]

theorem txLatch_inv (t : Txf) (cmd : Byte) {p : List Byte} (hp : p.length ≤ Config.maxLen) : (txLatch t cmd p).Inv :=
  ⟨⟨hp, rfl, rfl⟩, rfl⟩

/-- The running XOR over a payload with one byte more. -/
theorem xorAll_take_succ {p : List Byte} {k : Nat} {b : Byte} (h : p[k]? = some b) (a : Byte) :
    xorAll a (p.take (k + 1)) = xorAll a (p.take k) ^^^ b := by
  rw [List.take_add_one, h, xorAll_append]
  rfl

theorem txAdvance_inv {t : Txf} {b : Byte} (h : t.Inv) (hb : txOffer t = some b) : (txAdvance b t).Inv := by
  unfold Txf.Inv at h
  unfold txOffer at hb
  unfold txAdvance
  cases hs : t.state <;> simp only [hs] at h hb ⊢
  · simp only [Txf.Inv, hs]
  · exact h
  · exact h
  · exact ⟨h.1, h.2, rfl⟩
  · obtain ⟨hl, hi, ha⟩ := h
    split_ifs with h0
    · refine ⟨hl, ?_⟩
      have : t.pay = [] := (lenByte_eq_zero hl.1).1 (hl.2.1 ▸ h0)
      simp [csum, ha, this]
    · refine ⟨hl, ?_, ?_⟩
      · have h1 : t.pay ≠ [] := fun h => h0 (by rw [hl.2.1]; exact (lenByte_eq_zero hl.1).2 h)
        have := List.length_pos_iff.2 h1
        simp only [hi]; omega
      · simp [ha, hi]
  · obtain ⟨hl, hi, ha⟩ := h
    have hx := xorAll_take_succ hb (t.cmd ^^^ t.len)
    have hn := Txf.latched_len hl
    split_ifs with h0
    · refine ⟨hl, ?_⟩
      simp only [ha, ← hx, csum]
      rw [List.take_of_length_le (by omega)]
    · exact ⟨hl, by simp only; omega, by simp only [ha, hx]⟩
  · exact h
  · exact h
  · trivial

/-- What has been sent of a frame, when one byte more has been taken: in the last trailer state it is the whole frame. -/
theorem txAdvance_sent {t : Txf} {b : Byte} (h : t.Inv) (hb : txOffer t = some b) :
    (t.state ≠ .txTrl2 ∧ (txAdvance b t).sent = t.sent ++ [b])
      ∨ (t.state = .txTrl2 ∧ (txAdvance b t).sent = [] ∧ encodeFrame t.cmd t.pay = some (t.sent ++ [b])) := by
  unfold Txf.Inv at h
  unfold txOffer at hb
  unfold txAdvance
  cases hs : t.state <;> simp only [hs] at h hb ⊢
  · cases hb
  · exact .inl ⟨by simp, by simp [Txf.sent, hs, Option.some.inj hb]⟩
  · exact .inl ⟨by simp, by simp [Txf.sent, hs, Option.some.inj hb]⟩
  · exact .inl ⟨by simp, by simp [Txf.sent, hs, Option.some.inj hb]⟩
  · obtain ⟨hl, hi, ha⟩ := h
    refine .inl ⟨by simp, ?_⟩
    split_ifs with h0
    · have : t.pay = [] := (lenByte_eq_zero hl.1).1 (hl.2.1 ▸ h0)
      simp [Txf.sent, hs, Option.some.inj hb, this]
    · simp [Txf.sent, hs, Option.some.inj hb, hi]
  · obtain ⟨hl, hi, ha⟩ := h
    have hn := Txf.latched_len hl
    refine .inl ⟨by simp, ?_⟩
    split_ifs with h0
    · have ht : t.pay.take t.idx ++ [b] = t.pay := by
        have hk := List.take_add_one (l := t.pay) (i := t.idx)
        rw [hb, List.take_of_length_le (by omega)] at hk
        exact hk.symm
      simp only [Txf.sent, hs]
      rw [List.append_assoc, ht]
    · simp only [Txf.sent, hs]
      rw [List.append_assoc, List.take_add_one, hb]
      rfl
  · exact .inl ⟨by simp, by simp [Txf.sent, hs, Option.some.inj hb]⟩
  · exact .inl ⟨by simp, by simp [Txf.sent, hs, Option.some.inj hb]⟩
  · refine .inr ⟨trivial, by simp [Txf.sent], encodeFrame_eq_some.2 ⟨h.1.1, ?_⟩⟩
    rw [← Option.some.inj hb]
    simp [Txf.sent, hs, frameLayout, requestLayout, h.2, h.1.2]

/-- TXF in the invariant always has a byte to offer outside `TxIdle`. -/
theorem txOffer_of_inv {t : Txf} (h : t.Inv) (hi : t.state ≠ .txIdle) : ∃ b, txOffer t = some b := by
  unfold Txf.Inv at h
  unfold txOffer
  cases hs : t.state <;> simp only [hs] at h ⊢
  · exact absurd hs hi
  all_goals first
    | exact ⟨_, rfl⟩
    | exact ⟨_, List.getElem?_eq_getElem h.2.1⟩

/-! ### RXF -/

theorem rxBegin_inv {r : Rxf} (h : r.Inv) : (rxBegin r).Inv := ⟨h.1, rfl⟩

theorem rxFail_inv {r : Rxf} (h : r.Inv) {kind : ErrorKind} (hk : kind.ofRxf = true) : (rxFail kind r).Inv :=
  ⟨h.1, kind, rfl, hk⟩

/-- In `ReadPayload` the count stays inside the buffer. -/
theorem Rxf.cnt_lt {r : Rxf} (h : r.Inv) (hs : r.state = .readPayload) : r.cnt < Config.maxLen := by
  have h2 := h.2
  simp only [hs] at h2
  have := r.len.isLt
  simp only [Config.maxLen]
  omega

theorem rxReadPayload_inv {r : Rxf} (h : r.Inv) (hs : r.state = .readPayload) (b : Byte) : (rxReadPayload b r).Inv := by
  have hc := Rxf.cnt_lt h hs
  have hb := h.1
  have h2 := h.2
  simp only [hs] at h2
  obtain ⟨hr, hn, ha⟩ := h2
  have hx : (r.buf.set r.cnt b)[r.cnt]? = some b := by rw [List.getElem?_set_self]; omega
  have hy := xorAll_take_succ hx (r.cmd ^^^ r.len)
  have hz : (r.buf.set r.cnt b).take r.cnt = r.buf.take r.cnt := by
    rw [List.take_set_of_le (Nat.le_refl _)]
  rw [hz] at hy
  unfold rxReadPayload
  refine ⟨by simpa using hb, ?_⟩
  split_ifs with h0
  · refine ⟨hr, ?_⟩
    show r.acc ^^^ b = xorAll (r.cmd ^^^ r.len) ((r.buf.set r.cnt b).take r.len.toNat)
    rw [← h0, hy, ha]
  · refine ⟨hr, ?_, ?_⟩
    · show r.cnt + 1 < r.len.toNat
      omega
    · show r.acc ^^^ b = _
      rw [hy, ha]

theorem rxStep_inv {r : Rxf} (h : r.Inv) (item : RxItem) : (rxStep item r).Inv := by
  have h2 := h.2
  have hf : ∀ kind : ErrorKind, kind.ofRxf = true → (rxFail kind r).Inv := fun kind hk => rxFail_inv h hk
  cases item with
  | timeout => cases hs : r.state <;> simp only [rxStep, hs] <;> first | exact h | exact hf _ rfl
  | byte b =>
    cases hs : r.state <;> simp only [hs] at h2 <;> simp only [rxStep, hs]
    · exact h
    · unfold rxIdle; split_ifs <;> exact ⟨h.1, h2⟩
    · unfold rxStarted; split_ifs <;> exact ⟨h.1, h2⟩
    · exact ⟨h.1, h2, rfl⟩
    · refine ⟨h.1, ?_⟩
      unfold rxReadLen
      simp only
      split_ifs with h0
      · exact ⟨h2.1, by simp [csum, rxPayload, h2.2, h0]⟩
      · refine ⟨h2.1, ?_, by simp [h2.2]⟩
        exact Nat.pos_of_ne_zero fun e => h0 (BitVec.eq_of_toNat_eq e)
    · exact rxReadPayload_inv h hs b
    · unfold rxReadChecksum
      split_ifs with h0
      · exact ⟨h.1, h2⟩
      · exact hf _ rfl
    · unfold rxReadTrailer1
      split_ifs with h0
      · exact ⟨h.1, h2⟩
      · exact hf _ rfl
    · unfold rxReadTrailer2
      split_ifs with h0
      · exact ⟨h.1, rfl, h2.2⟩
      · exact hf _ rfl
    · exact h
    · exact h

theorem rxOutcome_wf {r : Rxf} (h : r.Inv) : ∀ x ∈ rxOutcome r, x.wf = true := by
  intro x hx
  unfold rxOutcome at hx
  split at hx
  · obtain rfl := List.mem_singleton.1 hx
    have := r.len.isLt
    simp only [RxResult.wf, rxPayload, List.length_take, decide_eq_true_eq, Config.maxLen]
    omega
  · next kind hs hr =>
    obtain rfl := List.mem_singleton.1 hx
    have h2 := h.2
    simp only [hs] at h2
    obtain ⟨k, hk, ho⟩ := h2
    rw [hr] at hk
    cases hk
    exact ho
  · exact absurd hx (by simp)

/-! ### PACK and RLE -/

theorem packNext_inv {p : Pack} (h : p.x < Config.cols ∧ p.y < Config.rows) : (packNext p).Inv := by
  intro hs
  simp only [Config.cols, Config.rows] at *
  unfold packNext at *
  split_ifs at * <;> simp_all <;> omega

theorem rleBegin_inv (r : Rle) : (rleBegin r).Inv := by
  intro _
  exact ⟨by simp [rleBegin], by simp [rleBegin]⟩

theorem rleExamine_inv {r : Rle} (h : r.Inv) (hs : r.state = .rlScan) (hr : r.r < Config.rows) (row : List Byte) :
    (rleExamine row r).Inv := by
  obtain ⟨_, ho⟩ := h hs
  simp only [Rle.Inv, Config.rows] at *
  intro _
  unfold rleExamine
  split_ifs with h1 h2
  · have := ho h2; exact ⟨by simp only; omega, fun _ => by simp only; omega⟩
  · exact ⟨by simp only; omega, fun _ => by simp⟩
  · exact ⟨by simp only; omega, by simp⟩

theorem popcount_le (b : Byte) : popcount b ≤ 8 := by
  have := List.countP_le_length (l := List.range 8) (p := fun k => b.getLsbD k)
  simpa [popcount] using this

theorem setBitCount_le (row : List Byte) : setBitCount row ≤ 8 * row.length := by
  induction row with
  | nil => simp [setBitCount]
  | cons b row ih =>
    have := popcount_le b
    simp only [setBitCount, List.map_cons, List.sum_cons, List.length_cons] at *
    omega

theorem popcount_eq_zero {b : Byte} (h : popcount b = 0) : b = 0 := by
  unfold popcount at h
  rw [List.countP_eq_zero] at h
  apply BitVec.eq_of_getLsbD_eq
  intro k hk
  have := h k (by simpa using hk)
  simpa using this

theorem setBitCount_pos {row : List Byte} (h : rowBlank row = false) : 1 ≤ setBitCount row := by
  by_contra hn
  have hz : setBitCount row = 0 := by omega
  have : rowBlank row = true := by
    simp only [rowBlank, List.all_eq_true, beq_iff_eq]
    intro b hb
    refine popcount_eq_zero ?_
    exact (List.sum_eq_zero_iff.1 hz) _ (List.mem_map_of_mem hb)
  simp [this] at h

/-- The record of a non-blank row is well formed. -/
theorem pixelRowRecord_wf {r : Nat} (hr : r < Config.rows) {row : List Byte} (hl : row.length = Config.rowBytes)
    (hb : rowBlank row = false) : (pixelRowRecord r row).wf = true := by
  have h1 := setBitCount_le row
  have h2 := setBitCount_pos hb
  simp only [Config.rows, Config.rowBytes] at *
  simp [pixelRowRecord, Record.wf, hl, Config.rows, Config.cols, Config.rowBytes]
  omega

/-- The record of a run of rows inside the bitmap is well formed. -/
theorem blankRunRecord_wf {start count : Nat} (h1 : 1 ≤ count) (h2 : start + count ≤ Config.rows) :
    (blankRunRecord start count).wf = true := by
  simp only [Config.rows] at *
  simp [blankRunRecord, Record.wf, Config.rows]
  omega

theorem openRun_wf {r : Rle} (h : r.Inv) (hs : r.state = .rlScan) : ∀ x ∈ openRun r, x.wf = true := by
  intro x hx
  obtain ⟨hr, ho⟩ := h hs
  unfold openRun at hx
  split_ifs at hx with h1
  · obtain rfl := List.mem_singleton.1 hx
    have := ho h1
    exact blankRunRecord_wf this.1 (by omega)
  · exact absurd hx (by simp)

/-- What one step of the scan emits: at most two records, each well formed. -/
theorem stepRecords_wf {m : List Host.Cell} {r : Rle} (h : r.Inv) (hs : r.state = .rlScan) :
    (stepRecords m r).length ≤ 2 ∧ ∀ x ∈ stepRecords m r, x.wf = true := by
  have ho : (openRun r).length ≤ 1 := by unfold openRun; split_ifs <;> simp
  unfold stepRecords
  split_ifs with hr
  · unfold rleRecords
    split_ifs with hb
    · simp
    · refine ⟨by simp only [List.length_append, List.length_singleton]; omega, fun x hx => ?_⟩
      rcases List.mem_append.1 hx with hx | hx
      · exact openRun_wf h hs x hx
      · obtain rfl := List.mem_singleton.1 hx
        exact pixelRowRecord_wf hr (bmpRow_length m r.r) (by simpa using hb)
  · exact ⟨by omega, openRun_wf h hs⟩

/-- The end of RLE's step keeps its registers' invariant. -/
theorem rleAfterStep_inv {m : List Host.Cell} {r : Rle} (h : r.Inv) : (rleAfterStep m r).Inv := by
  unfold rleAfterStep
  split
  · exact h
  · next hs =>
    split_ifs with hr
    · exact rleExamine_inv h hs hr _
    · exact fun hh => nomatch hh

/-! ### The end of a session -/

theorem dueEnd_finish {s : State} {rest : List HostOp} (h : s.host.prog = .finish :: rest) :
    s.dueEnd = if s.tx.handedOver then some .complete else none := by simp [State.dueEnd, h]

theorem dueEnd_packing {s : State} {seen : Nat} {rest : List HostOp} {kind : ErrorKind}
    (h : s.host.prog = .packing seen :: rest) (hr : s.out.packResults[seen]? = some (.fail kind)) :
    s.dueEnd = some .imageDimensionError := by simp [State.dueEnd, h, hr]

theorem dueEnd_awaiting {s : State} {e : Expect} {seen : Nat} {rest : List HostOp} {kind : ErrorKind}
    (h : s.host.prog = .awaiting e seen :: rest) (hr : s.out.rxResults[seen]? = some (.fail kind))
    (ha : s.par.onError = .abort) : s.dueEnd = some .abort := by simp [State.dueEnd, h, hr, ha]

end Sys2Proof.Machine
end

