-- ==== Sys2Proof/Laws/PerInstr.lean ====
section
/-! SUPPORT. A statement about every instruction as syntax, one lemma per constructor: its words are four bytes and its
payload, and the payload of a well-formed one has a legal length (40_framer_tx.md R102). -/

namespace Sys2Proof.Laws.PayloadFits

/-- The length byte of a well-formed instruction's words is the length of what follows it, 30_encoding.md R71 and R72. -/
def Statement (i : Instr) : Prop :=
  i.wf = true → (Machine.lenByte i.payload).toNat = i.payload.length ∧
    ∃ words, encode i = some words ∧ words.length = i.payload.length + 4

theorem of_wf (i : Instr) : Statement i := fun h =>
  ⟨Machine.lenByte_toNat (Instr.payload_length_le h), _, encode_eq_some.2 ⟨Instr.payload_length_le h, rfl⟩,
    requestLayout_length _ _ _⟩

theorem printStart (pages : Half) (r0 r1 r2 r3 r4 : Byte) : Statement (.printStart pages r0 r1 r2 r3 r4) := of_wf _
theorem pageStart (one : Byte) : Statement (.pageStart one) := of_wf _
theorem setPageSize (rows cols copies : Half) : Statement (.setPageSize rows cols copies) := of_wf _
theorem setDensity (density : Byte) : Statement (.setDensity density) := of_wf _
theorem setLabelType (labelType : Byte) : Statement (.setLabelType labelType) := of_wf _
theorem blankRows (startRow : Half) (count : Byte) : Statement (.blankRows startRow count) := of_wf _
theorem pixelRow (row setBits repeatCount : Half) (packed : List Byte) :
    Statement (.pixelRow row setBits repeatCount packed) := of_wf _
theorem statusPoll : Statement .statusPoll := of_wf _
theorem pageEnd (one : Byte) : Statement (.pageEnd one) := of_wf _
theorem printEnd (one : Byte) : Statement (.printEnd one) := of_wf _
theorem frame (cmd : Byte) (payload : List Byte) : Statement (.frame cmd payload) := of_wf _

end Sys2Proof.Laws.PayloadFits
end

