-- ==== Sys2Proof/Tests/Slice0.lean ====
section
/-! SUPPORT. Small tests of one step each, with the expected results of 95_test_vectors.md, and for each statement with
hypotheses a state and operands that meet them. -/

namespace Sys2Proof.Tests

open Sys2Proof Sys2Proof.Machine

/-! ### Helpers -/

/-- After reset, with the transport acquired. -/
def opened : State := { State.reset with line := ⟨[], true⟩ }

/-- The same with these turns and this host program. -/
def atTurn (turns : List Turn) (prog : List HostOp) : State :=
  { opened with turns := turns, host := { opened.host with prog := prog } }

/-- TXF in the middle of the frame `55 55 21 01 03 23 AA AA` of vector T1. -/
def busyTx : Txf := ⟨.txPayload, 0x21, 1, [3], 0, 0x20, false⟩

def busy (turns : List Turn) (prog : List HostOp) : State := { atTurn turns prog with tx := busyTx }

/-- RXF in a state, with the registers of vector X2 before its checksum. -/
def rxAt (st : RxState) : Rxf := ⟨st, 0x21, 1, 1, 0x21, 1 :: List.replicate 254 0, .none⟩

/-- A row whose first byte is this one. -/
def rowWith (b : Byte) : List Byte := b :: List.replicate 49 0

/-- The rows of vector C1. -/
def blankRowsImage : List (List Byte) := List.replicate 240 (List.replicate 50 0)

/-- RLE in a scan, at a row, with a run open or not. -/
def scanAt (r : Nat) (isOpen : Bool) (turns : List Turn) : State :=
  { atTurn turns [] with rle := ⟨.rlScan, r, isOpen, 0, r⟩, bmpValid := true }

def nextState? : Answer → Option State
  | .next s => some s
  | .fault _ => none
  | .refused _ => none

/-- TXF's command and payload registers and its state after an instruction. -/
def txAfter (a : Answer) : Option (TxState × Byte × Byte × List Byte) :=
  (nextState? a).map (fun s => (s.tx.state, s.tx.cmd, s.tx.len, s.tx.pay))

/-! ### Well-formedness: each check refuses an ill-formed term -/

theorem test_wf_pixel_row_short : (Instr.pixelRow 0 1 1 (List.replicate 49 0)).wf = false := by decide
theorem test_wf_pixel_row : (Instr.pixelRow 0 1 1 (List.replicate 50 0)).wf = true := by decide
theorem test_wf_frame_too_long : (Instr.frame 0x21 (List.replicate 256 0)).wf = false := by decide +kernel
theorem test_wf_frame_longest : (Instr.frame 0x21 (List.replicate 255 0)).wf = true := by decide +kernel
theorem test_wf_frame_is_a_command : (Instr.frame 0x21 [3]).wf = false := by decide
theorem test_wf_frame_other_length : (Instr.frame 0x21 [3, 4]).wf = true := by decide
theorem test_protocol_density_zero : (Instr.setDensity 0).inProtocol = false := by decide
theorem test_protocol_label_four : (Instr.setLabelType 4).inProtocol = false := by decide

/-! ### Decoding: words written out from the spec (vectors M1 to M19, T4, T10) -/

theorem test_decode_set_density :
    decodeWire [0x55, 0x55, 0x21, 0x01, 0x05, 0x25, 0xAA, 0xAA] = .ok (.setDensity 5, []) := by decide
theorem test_decode_set_label_type :
    decodeWire [0x55, 0x55, 0x23, 0x01, 0x03, 0x21, 0xAA, 0xAA] = .ok (.setLabelType 3, []) := by decide
theorem test_decode_print_start :
    decodeWire [0x55, 0x55, 0x01, 0x07, 0x00, 0x01, 0x00, 0x00, 0x00, 0x00, 0x00, 0x07, 0xAA, 0xAA]
      = .ok (.printStart 1 0 0 0 0 0, []) := by decide
theorem test_decode_page_start :
    decodeWire [0x55, 0x55, 0x03, 0x01, 0x01, 0x03, 0xAA, 0xAA] = .ok (.pageStart 1, []) := by decide
theorem test_decode_set_page_size :
    decodeWire [0x55, 0x55, 0x13, 0x06, 0x00, 0xF0, 0x01, 0x90, 0x00, 0x01, 0x75, 0xAA, 0xAA]
      = .ok (.setPageSize 240 400 1, []) := by decide
theorem test_decode_blank_rows :
    decodeWire [0x55, 0x55, 0x84, 0x03, 0x00, 0x01, 0xEF, 0x69, 0xAA, 0xAA] = .ok (.blankRows 1 239, []) := by decide
theorem test_decode_pixel_row :
    decodeWire ([0x55, 0x55, 0x85, 0x38, 0x00, 0xEF, 0x01, 0x90, 0x00, 0x01] ++ List.replicate 50 0xFF ++ [0xC2, 0xAA, 0xAA])
      = .ok (.pixelRow 239 400 1 (List.replicate 50 0xFF), []) := by decide
theorem test_decode_status_poll :
    decodeWire [0x55, 0x55, 0xA3, 0x00, 0xA3, 0xAA, 0xAA] = .ok (.statusPoll, []) := by decide
theorem test_decode_page_end :
    decodeWire [0x55, 0x55, 0xE3, 0x01, 0x01, 0xE3, 0xAA, 0xAA] = .ok (.pageEnd 1, []) := by decide
theorem test_decode_print_end :
    decodeWire [0x55, 0x55, 0xF3, 0x01, 0x01, 0xF3, 0xAA, 0xAA] = .ok (.printEnd 1, []) := by decide
theorem test_decode_frame :
    decodeWire [0x55, 0x55, 0x77, 0x02, 0x01, 0x02, 0x76, 0xAA, 0xAA] = .ok (.frame 0x77 [1, 2], []) := by decide
/-- 30_encoding.md R75: no escaping. -/
theorem test_decode_no_escape :
    decodeWire [0x55, 0x55, 0x55, 0x02, 0x55, 0x55, 0x57, 0xAA, 0xAA] = .ok (.frame 0x55 [0x55, 0x55], []) := by decide
/-- A command's opcode with another length is a generic frame (30_encoding.md R81). -/
theorem test_decode_other_length :
    decode [0x55, 0x55, 0xA3, 0x01, 0x07, 0x99] = .ok (.frame 0xA3 [7], [0x99]) := by decide
theorem test_decode_bad_preamble : decode [0x55, 0x54, 0xA3, 0x00] = .error .badPreamble := by decide
theorem test_decode_short_header : decode [0x55, 0x55, 0xA3] = .error .truncatedHeader := by decide
theorem test_decode_short_payload : decode [0x55, 0x55, 0x21, 0x01] = .error .truncatedPayload := by decide
theorem test_decode_bad_checksum :
    decodeWire [0x55, 0x55, 0x21, 0x01, 0x01, 0x20, 0xAA, 0xAA] = .error .badChecksum := by decide
theorem test_decode_bad_trailer :
    decodeWire [0x55, 0x55, 0x21, 0x01, 0x01, 0x21, 0xAA, 0x00] = .error .badTrailer := by decide
theorem test_decode_no_trailer : decodeWire [0x55, 0x55, 0x21, 0x01, 0x01, 0x21] = .error .truncatedEnd := by decide

/-- The bits as spec/opcode_table.json numbers them: its match value, and zeros above. -/
theorem test_table_word_page_start : decodeTableWord 32 0x55550301 = some (.pageStart 0) := by decide
/-- One bit above the first word is the lowest bit of the first payload byte. -/
theorem test_table_word_payload_bit : decodeTableWord 40 (0x55550301 + 2 ^ 32) = some (.pageStart 1) := by decide

/-! ### The instructions: one step each -/

theorem test_exec_set_density : txAfter (exec (.setDensity 3) opened) = some (.txPre1, 0x21, 1, [3]) := by decide
theorem test_exec_set_label_type : txAfter (exec (.setLabelType 1) opened) = some (.txPre1, 0x23, 1, [1]) := by decide
theorem test_exec_print_start :
    txAfter (exec (.printStart 1 0 0 0 0 0) opened) = some (.txPre1, 0x01, 7, [0, 1, 0, 0, 0, 0, 0]) := by decide
theorem test_exec_page_start : txAfter (exec (.pageStart 1) opened) = some (.txPre1, 0x03, 1, [1]) := by decide
theorem test_exec_set_page_size :
    txAfter (exec (.setPageSize 240 400 1) opened) = some (.txPre1, 0x13, 6, [0x00, 0xF0, 0x01, 0x90, 0x00, 0x01]) := by decide
theorem test_exec_blank_rows :
    txAfter (exec (.blankRows 11 229) opened) = some (.txPre1, 0x84, 3, [0x00, 0x0B, 0xE5]) := by decide
theorem test_exec_pixel_row :
    txAfter (exec (.pixelRow 10 3 1 (rowWith 0x80)) opened)
      = some (.txPre1, 0x85, 56, [0x00, 0x0A, 0x00, 0x03, 0x00, 0x01] ++ rowWith 0x80) := by decide
theorem test_exec_status_poll : txAfter (exec .statusPoll opened) = some (.txPre1, 0xA3, 0, []) := by decide
theorem test_exec_page_end : txAfter (exec (.pageEnd 1) opened) = some (.txPre1, 0xE3, 1, [1]) := by decide
theorem test_exec_print_end : txAfter (exec (.printEnd 1) opened) = some (.txPre1, 0xF3, 1, [1]) := by decide
theorem test_exec_frame : txAfter (exec (.frame 0x77 [1, 2]) opened) = some (.txPre1, 0x77, 2, [1, 2]) := by decide
/-- Vector T9. -/
theorem test_exec_frame_too_long :
    exec (.frame 0x21 (List.replicate 256 0)) opened = .refused .payloadTooLong := by
  rw [exec, execFrame, txRequest, if_pos (by rw [List.length_replicate]; decide)]
/-- 40_framer_tx.md R102: Encode gives such a payload no bytes, and a step that offers it is refused. -/
theorem test_encode_too_long : encodeFrame 0x21 (List.replicate 256 0) = none := by
  rw [encodeFrame, if_neg (by rw [List.length_replicate]; decide)]
theorem test_step_offers : txAfter (step (atTurn [.host] [.offer (.setDensity 3)])) = some (.txPre1, 0x21, 1, [3]) := by decide
/-- 43_rle.md R176: while the records of row 3 are held RLE's registers are those before the step. -/
theorem test_scan_holds_registers :
    (nextState? (step ({ scanAt 3 true [.scan] with bmp := [(150, 1)] } : State))).map (fun s => (s.rle.r, s.recOut.length))
      = some (3, 2) := by decide
/-- With the last one taken the step ends. -/
theorem test_scan_ends_when_taken :
    (nextState? (step ({ scanAt 3 true [.host] with
        bmp := [(150, 1)], recOut := [.pixelRow 3 1 1 (rowWith 1)]
        host := { opened.host with prog := [.takeRecord] } } : State))).map (fun s => (s.rle.r, s.rle.runOpen))
      = some (4, false) := by decide
/-- 40_framer_tx.md R106: a busy TXF accepts nothing. -/
theorem test_exec_busy : txAfter (exec .statusPoll (busy [] [])) = some (.txPayload, 0x21, 1, [3]) := by decide
/-- Fetch, decode and run: the words of vector M18 at the head of the program. -/
theorem test_step_fetches : txAfter (step (opened.withFetchWord 32 0x5555A300)) = some (.txPre1, 0xA3, 0, []) := by decide

/-! ### The units -/

/-- TXF at the last byte of print-end, the host waiting for it (45_session.md R221). -/
def lastByte : State :=
  { atTurn [.takeTx] [.finish, .closePort] with tx := ⟨.txTrl2, 0xF3, 1, [1], 1, 0xF3, false⟩ }

/-- 70_reset_and_hazards.md R286: the session is over when that byte has been taken, before any turn of the host. -/
theorem test_session_over_at_last_byte :
    lastByte.sessionOver = false ∧ (nextState? (step lastByte)).map State.sessionOver = some true := by decide
/-- R265, R286: after a reset that cut that frame short it is not over, and the host waits. -/
theorem test_finish_after_cut :
    let s := { turnPowerOn lastByte with turns := [.host] }
    s.sessionOver = false ∧ (nextState? (step s)).map (fun t => t.host.prog) = some [.finish, .closePort] := by decide
/-- 10_state.md R21, R26: a value emitted on `rx_result` is not lost when the block is reset before the host's turn. -/
theorem test_result_survives_reset :
    let s : State := { atTurn [.powerOn, .host] [.awaiting .ack 0, .pause] with
      rx := { rxAt .done with result := .ok }, out := { opened.out with rxResults := [.ok 0x21 [1]] } }
    (nextState? (runSteps 2 s)).map (fun t => (t.rx.result, t.host.prog, t.host.ack))
      = some (.none, [.pause], some 1) := by decide
/-- Vector T1, step 5: the payload byte is the last, the running XOR becomes 0x23. -/
theorem test_tx_payload : txAdvance 3 busyTx = ⟨.txCsum, 0x21, 1, [3], 1, 0x23, false⟩ := by decide
/-- Vector T2: with `len = 0` TXF goes from `TxLen` to `TxCsum`. -/
theorem test_tx_empty : (txAdvance 0 ⟨.txLen, 0xA3, 0, [], 0, 0xA3, false⟩).state = .txCsum := by decide
/-- Vector T8. -/
theorem test_encode_page_size :
    encodeFrame 0x13 [0x00, 0xF0, 0x01, 0x90, 0x00, 0x01]
      = some [0x55, 0x55, 0x13, 0x06, 0x00, 0xF0, 0x01, 0x90, 0x00, 0x01, 0x75, 0xAA, 0xAA] := by decide
/-- Vector S3: the document's own byte string fails, and its ninth byte is left. -/
theorem test_rx_S3 :
    decodeItems Rxf.reset (byteItems [0x55, 0x10, 0x55, 0x55, 0x21, 0x01, 0x20, 0xAA, 0xAA])
      = some ([.fail .checksumMismatch], byteItems [0xAA]) := by decide
/-- Vector S3', the resynchronisation corrected. -/
theorem test_rx_S3_corrected :
    decodeItems Rxf.reset (byteItems [0x55, 0x10, 0x55, 0x55, 0x21, 0x01, 0x01, 0x21, 0xAA, 0xAA])
      = some ([.ok 0x21 [1]], []) := by decide
/-- Vector X4. -/
theorem test_rx_X4 :
    decodeItems Rxf.reset (byteItems [0x55, 0x55, 0x21, 0x01, 0x01, 0x21, 0xAA, 0x00]) = some ([.fail .framingError], []) := by
  decide
/-- Vector X6. -/
theorem test_rx_X6 :
    decodeItems Rxf.reset (byteItems [0x55, 0x55, 0x21, 0x01] ++ [.timeout]) = some ([.fail .transportTimeout], []) := by
  decide
/-- Vector X12: a stray 0x55 before a frame. -/
theorem test_rx_X12 :
    decodeItems Rxf.reset (byteItems [0x55, 0x55, 0x55, 0x21, 0x01, 0x01, 0x21, 0xAA, 0xAA] ++ [.timeout])
      = some ([.fail .transportTimeout], []) := by decide
/-- Vector X14: the length byte corrupted from 1 to 0. -/
theorem test_rx_X14 :
    decodeItems Rxf.reset (byteItems [0x55, 0x55, 0x21, 0x00, 0x01, 0x21, 0xAA, 0xAA])
      = some ([.fail .checksumMismatch], byteItems [0x21, 0xAA, 0xAA]) := by decide
/-- Vector X18: the five fields of a status-poll response. -/
theorem test_status_fields :
    statusFields [0x00, 0x01, 0x00, 0x02, 0x00, 0x03, 0x01, 0x90, 0xFF, 0xFF] = some ⟨1, 2, 3, 400, 65535⟩ := by decide
theorem test_status_fields_nine : statusFields [0, 1, 0, 2, 0, 3, 1, 0x90, 0xFF] = none := by decide
/-- Vector K10: the byte of black, white, black, white, black, white, black, white. -/
theorem test_pack_K10 : packEight [0, 255, 0, 255, 0, 255, 0, 255] = 0xAA := by decide
/-- Vector K8: red 1 is background. -/
theorem test_pack_K8 : packEight (List.replicate 8 1) = 0 := by decide
/-- Vector K5: the last pixel is bit 0 of the last byte. -/
theorem test_pack_K5 :
    (pixelByte 399, pixelBit 399, inkWeight 0 399) = (49, 0, 0x01) := by decide
/-- Vector K10, event 3: the third pixel adds 0x20 to 0x80. -/
theorem test_pack_event : packByte 0 2 0x80 = 0xA0 := by decide
/-- Vector K11: the two numbers swapped. -/
theorem test_pack_K11 : goodSize 240 400 = false := by decide
/-- Vector C1. -/
theorem test_rle_C1 : compress blankRowsImage = [.blankRun 0 240] := by decide +kernel
/-- Vector C3 on the first four rows: a first row that is not blank, then a run. -/
theorem test_rle_C3 :
    compress (rowWith 1 :: List.replicate 3 (rowWith 0)) = [.pixelRow 0 1 1 (rowWith 1), .blankRun 1 3] := by decide
/-- Vector C6 in small: two equal rows are two records. -/
theorem test_rle_C6 :
    compress [rowWith 0, rowWith 0xFF, rowWith 0xFF] =
      [.blankRun 0 1, .pixelRow 1 8 1 (rowWith 0xFF), .pixelRow 2 8 1 (rowWith 0xFF)] := by decide
/-- Vector M9, from its record. -/
theorem test_serialise : serialise (.blankRun 0 240) = (0x84, [0x00, 0x00, 0xF0]) := by decide
/-- A write of zero removes the entry. -/
theorem test_memory_zero : Memory.set [(3, 7), (5, 9)] 3 0 = [(5, 9)] := by decide
theorem test_memory_sorted : Memory.set [(3, 7), (5, 9)] 4 1 = [(3, 7), (4, 1), (5, 9)] := by decide

/-! ### Witnesses: a state and operands that meet the hypotheses of each statement, clause by clause -/

theorem witness_DecodeOfEncode : (Instr.pixelRow 239 400 1 (List.replicate 50 0xFF)).wf = true := by decide
theorem witness_DecodeWireOfEncodeWire : (Instr.frame 0xA3 [7]).wf = true := by decide
theorem witness_DecodeWireAcceptsOnlyFrames :
    decodeWire [0x55, 0x55, 0xA3, 0x00, 0xA3, 0xAA, 0xAA, 0x55] = .ok (.statusPoll, [0x55]) := by decide
theorem witness_OpcodeTableNamesInstruction :
    (Instr.pageEnd 1).wf = true ∧ encode (.pageEnd 1) = some (0x55 :: 0x55 :: 0xE3 :: 0x01 :: [0x01]) := by decide
theorem witness_EncodeHasFrameLayout :
    (List.replicate 255 (0 : Byte)).length ≤ 255 ∧ ([] : List Byte).length ≤ 255 := by
  rw [List.length_replicate]; decide
theorem witness_ChecksumDetectsOneChangedByte :
    (0x20 : Byte) ≠ 0x21 ∧ 0 < [(1 : Byte)].length ∧ (0 : Byte) ≠ [(1 : Byte)][0] := by decide
theorem witness_SessionCommandsComplete : opened.tx.state = .txIdle := by decide
theorem witness_PageCommandsComplete : (atTurn [.scan] [.pause]).tx.state = .txIdle := by decide
theorem witness_RowStreamCommandsComplete : opened.tx.state = .txIdle ∧ (rowWith 0x80).length = 50 := by decide
theorem witness_GenericFrameCompletes :
    opened.tx.state = .txIdle ∧ (List.replicate 255 (0 : Byte)).length ≤ 255 := by
  rw [List.length_replicate]; decide
theorem witness_InstructionsChangeOnlyTxf :
    (∃ t, exec .statusPoll opened = .next t) ∧ (∃ t, exec .statusPoll (busy [] []) = .next t)
      ∧ (busy [] []).tx.state ≠ .txIdle := ⟨⟨_, rfl⟩, ⟨_, rfl⟩, by decide⟩
theorem witness_UnacceptedRequestsChangeNothing :
    Instr.statusPoll.wf = true ∧ (busy [] []).tx.state ≠ .txIdle ∧ 255 < (List.replicate 256 (0 : Byte)).length ∧
    (atTurn [.host] [.offer (.frame 0x21 (List.replicate 256 0))]).turns = .host :: [] ∧
    (atTurn [.host] [.offer (.frame 0x21 (List.replicate 256 0))]).host.prog =
      .offer (.frame 0x21 (List.replicate 256 0)) :: [] :=
  ⟨rfl, by decide, by rw [List.length_replicate]; decide, rfl, rfl⟩
theorem witness_StepRunsDecodedRequest :
    (busy [.host] [.send [0x55, 0x55, 0xA3, 0x00, 0x55]]).turns = .host :: [] ∧
    (busy [.host] [.send [0x55, 0x55, 0xA3, 0x00, 0x55]]).host.prog = .send [0x55, 0x55, 0xA3, 0x00, 0x55] :: [] ∧
    decode [0x55, 0x55, 0xA3, 0x00, 0x55] = .ok (.statusPoll, [0x55]) ∧
    (busy [.host] [.offer .statusPoll]).turns = .host :: [] ∧
    (busy [.host] [.offer .statusPoll]).host.prog = .offer .statusPoll :: [] ∧
    (({ opened with cycle := [.takeTx] } : State).turns = [] ∧ ({ opened with cycle := [.takeTx] } : State).cycle ≠ []) ∧
    opened.turns = [] ∧ opened.cycle = [] := by decide

/-- A state whose next turn is the transport's, TXF being in this state. -/
def taking (st : TxState) : State := { busy [.takeTx] [] with tx := { busyTx with state := st } }

theorem witness_TransmitterOffersFrameBytes :
    (∀ st, (taking st).turns = .takeTx :: [] ∧ (taking st).line.isOpen = true ∧ (taking st).tx.state = st) ∧
    (taking .txPayload).tx.pay[(taking .txPayload).tx.idx]? = some 3 :=
  ⟨fun _ => ⟨rfl, rfl, rfl⟩, rfl⟩
theorem witness_TransmitterEmitsEncode :
    let s : State := { atTurn (List.replicate 7 .takeTx ++ [.scan]) [] with tx := txLatch busyTx 0xA3 [] }
    encodeFrame 0xA3 [] = some [0x55, 0x55, 0xA3, 0x00, 0xA3, 0xAA, 0xAA] ∧ s.line.isOpen = true ∧
      s.tx = txLatch busyTx 0xA3 [] ∧ s.turns = List.replicate (([] : List Byte).length + 7) .takeTx ++ [.scan] := by decide
theorem witness_WireCarriesWholeFrames :
    let s : State := { atTurn [.takeTx] [] with tx := txLatch busyTx 0xA3 [] }
    s.WireWhole ∧ s.nextTurn ≠ some .powerOn ∧ ∃ t, step s = .next t :=
  ⟨⟨⟨⟨by decide, rfl, rfl⟩, rfl⟩, [], [], rfl, rfl⟩, by decide, _, rfl⟩

theorem witness_IdleHuntsForPreamble : (rxAt .idle).state = .idle := rfl
theorem witness_StartedResynchronises : (rxAt .started).state = .started := rfl
theorem witness_ReadCmdTakesOpcode : (rxAt .readCmd).state = .readCmd := rfl
theorem witness_ReadLenTakesLength : (rxAt .readLen).state = .readLen := rfl
/-- The first and the last byte of a payload of 255. -/
theorem witness_ReadPayloadStoresByte :
    let r := fun k : Nat => ({ rxAt .readPayload with len := 255, cnt := k } : Rxf)
    ((r 0).state = .readPayload ∧ (r 0).cnt < (r 0).len.toNat ∧ (r 0).buf.length = 255) ∧
    ((r 254).state = .readPayload ∧ (r 254).cnt < (r 254).len.toNat ∧ (r 254).buf.length = 255) := by
  have h : (rxAt .readPayload).buf.length = 255 := by simp only [rxAt, List.length_cons, List.length_replicate]
  exact ⟨⟨rfl, by decide, h⟩, rfl, by decide, h⟩
theorem witness_ChecksumAndTrailersAreChecked :
    (rxAt .readChecksum).state = .readChecksum ∧ (0x21 : Byte) = (rxAt .readChecksum).acc ∧
    (0x20 : Byte) ≠ (rxAt .readChecksum).acc ∧ (rxAt .readTrailer1).state = .readTrailer1 ∧
    (rxAt .readTrailer2).state = .readTrailer2 ∧ (0xAB : Byte) ≠ 0xAA := ⟨rfl, rfl, by decide, rfl, rfl, by decide⟩
theorem witness_DeliveryTakesOneByte :
    let s : State := { atTurn [.deliver] [] with rx := { rxAt .readPayload with cnt := 254 }, line := ⟨[7, 8], true⟩ }
    s.turns = .deliver :: [] ∧ s.line.isOpen = true ∧ s.line.fifo = 7 :: [8] ∧ s.rx.state.active = true ∧
      (s.rx.state = .readPayload → s.rx.cnt < 255) := ⟨rfl, rfl, rfl, rfl, fun _ => by decide⟩
theorem witness_TimeoutFailsAttempt :
    let s := fun q : List Byte => ({ atTurn [.timeout] [] with rx := rxAt .idle, line := ⟨q, true⟩ } : State)
    ∀ q, (s q).turns = .timeout :: [] ∧ (s q).line.isOpen = true ∧ (s q).rx.state.active = true ∧ (s q).line.fifo = q :=
  fun _ => ⟨rfl, rfl, rfl, rfl⟩
theorem witness_AttemptBeginsOnlyFromRest :
    ((atTurn [.deliver] []).rx.state.resting = true ∧ (atTurn [.deliver] []).turns = .deliver :: []) ∧
    (atTurn [.timeout] []).turns = .timeout :: [] ∧
    (atTurn [.host] [.rxStart]).turns = .host :: [] ∧ (atTurn [.host] [.rxStart]).host.prog = .rxStart :: [] := by decide
theorem witness_ReceiverDecodesEncodedFrame :
    let s : State := { atTurn (.host :: (List.replicate 7 .deliver ++ [.scan])) [.rxStart] with
      line := ⟨[0x55, 0x55, 0xA3, 0x00, 0xA3, 0xAA, 0xAA] ++ [0x55], true⟩ }
    encodeFrame 0xA3 [] = some [0x55, 0x55, 0xA3, 0x00, 0xA3, 0xAA, 0xAA] ∧ s.line.isOpen = true ∧ s.rx.state.resting = true ∧ s.rx.buf.length = 255 ∧
      s.host.prog = .rxStart :: [] ∧ s.line.fifo = [0x55, 0x55, 0xA3, 0x00, 0xA3, 0xAA, 0xAA] ++ [0x55] ∧
      s.turns = .host :: (List.replicate (([] : List Byte).length + 7) .deliver ++ [.scan]) :=
  ⟨by decide, rfl, rfl, List.length_replicate, rfl, rfl, rfl⟩
theorem witness_CleanNoiseIsIgnored :
    (rxAt .idle).state = .idle ∧ cleanNoise [0x55, 0x10, 0xFF, 0x55, 0x00] = true := ⟨rfl, by decide⟩
theorem witness_DamagedFramesAreRejected :
    ([1] : List Byte).length ≤ 255 ∧ Rxf.reset.buf.length = 255 ∧ (0x20 : Byte) ≠ csum 0x21 (lenByte [1]) [1] ∧
      (0xAB : Byte) ≠ 0xAA := ⟨by decide, List.length_replicate, by decide, by decide⟩
theorem witness_AttemptsAreIndependent : (rxAt .failed).buf.length = 255 ∧ Rxf.reset.buf.length = 255 :=
  ⟨by simp only [rxAt, List.length_cons, List.length_replicate], List.length_replicate⟩
/-- A byte that arrives at a FIFO of depth 3 holding two bytes. -/
def nearlyFull : State := { atTurn [.arrive 7] [] with line := ⟨[1, 2], true⟩, par := { opened.par with fifoDepth := some ⟨3, by decide⟩ } }

theorem witness_ReceivedBytesAreNeverLost :
    nearlyFull.turns = .arrive 7 :: [] ∧ nearlyFull.par.fifoDepth = some ⟨3, by decide⟩ ∧ nearlyFull.line.fifo.length < 3 ∧
      ∃ t, step nearlyFull = .next t := ⟨rfl, rfl, by decide, _, rfl⟩

theorem witness_PackStartChecksSize :
    let s := atTurn [.host] [.packStart 400 240]
    s.turns = .host :: [] ∧ s.host.prog = .packStart 400 240 :: [] ∧ s.rle.state = .rlIdle := by decide
/-- The first and the last pixel. -/
theorem witness_PixelSetsItsBit :
    let s := fun x y : Nat => ({ atTurn [.pixel] [] with pack := ⟨.pkFill, x, y⟩, pixels := [0] } : State)
    ∀ x y, x < 400 → y < 240 → (s x y).turns = .pixel :: [] ∧ (s x y).pack.state = .pkFill ∧ (s x y).pack.x < 400 ∧
      (s x y).pack.y < 240 ∧ (s x y).pixels = 0 :: [] ∧ Memory.wf (s x y).bmp = true ∧
      (atTurn [.pixel] []).turns = .pixel :: [] ∧ (atTurn [.pixel] []).pack.state = .pkIdle :=
  fun _ _ hx hy => ⟨rfl, rfl, hx, hy, rfl, rfl, rfl, rfl⟩
theorem witness_BitmapBitIsInk :
    let image : Image := ⟨400, 240, List.replicate 96000 0⟩
    (∃ bytes, packImage image = .ok bytes) ∧ image.reds.length = 96000 ∧ 0 < 400 ∧ 239 < 240 :=
  ⟨⟨_, rfl⟩, List.length_replicate, by decide, by decide⟩
theorem witness_PackRunFillsBitmap :
    let s : State := { atTurn (List.replicate 96000 .pixel ++ [.scan]) [] with
      pack := ⟨.pkFill, 0, 0⟩, pixels := List.replicate 96000 0 ++ [7] }
    (List.replicate 96000 (0 : Nat)).length = 96000 ∧ s.pack = ⟨.pkFill, 0, 0⟩ ∧ Memory.wf s.bmp = true ∧
      s.pixels = List.replicate 96000 0 ++ [7] ∧ s.turns = List.replicate 96000 .pixel ++ [.scan] :=
  ⟨List.length_replicate, rfl, by decide, rfl, rfl⟩

/-- A record held in a scan, and the host about to take it. -/
def holding (r : Nat) (turns : List Turn) (records : List Record) : State :=
  { scanAt r true turns with recOut := records, host := { opened.host with prog := [.takeRecord] } }

/-- A blank row in both cases, a row that is not blank, the end with and without an open run; a record held; the last record
and one that is not the last taken, at a row and at the end. -/
theorem witness_ScanStep :
    (∀ r o, (scanAt r o [.scan]).turns = .scan :: [] ∧ (scanAt r o [.scan]).rle.state = .rlScan ∧
      (scanAt r o [.scan]).recOut = [] ∧ (scanAt r o [.scan]).rle.runOpen = o ∧ (scanAt r o [.scan]).rle.r = r) ∧
    rowBlank (bmpRow (scanAt 239 true [.scan]).bmp 239) = true ∧
    rowBlank (bmpRow ({ scanAt 239 true [.scan] with bmp := [(11999, 1)] } : State).bmp 239) = false ∧
    (holding 240 [.scan] [.blankRun 0 240]).recOut ≠ [] ∧
    (∀ r records, (holding r [.host] records).turns = .host :: [] ∧ (holding r [.host] records).rle.state = .rlScan ∧
      (holding r [.host] records).host.prog = .takeRecord :: [] ∧ (holding r [.host] records).recOut = records ∧
      (holding r [.host] records).rle.r = r) :=
  ⟨fun _ _ => ⟨rfl, rfl, rfl, rfl, rfl⟩, by decide, by decide, by decide, fun _ _ => ⟨rfl, rfl, rfl, rfl, rfl⟩⟩

theorem blankRowsImage_rows : blankRowsImage.length = 240 ∧ ∀ row ∈ blankRowsImage, row.length = 50 :=
  ⟨List.length_replicate, fun _ h => by rw [List.eq_of_mem_replicate h, List.length_replicate]⟩

theorem witness_ExpandedRecordsAreTheRows : blankRowsImage.length = 240 ∧ ∀ row ∈ blankRowsImage, row.length = 50 :=
  blankRowsImage_rows
/-- A bitmap whose rows are all ink meets the hypotheses too, and gives records of both neighbours. -/
theorem witness_RecordsAreOrderedAndMaximal :
    (∀ row ∈ List.replicate 240 (rowWith 0x80), row.length = 50) ∧
    ∃ a b, (compress [rowWith 0, rowWith 1])[0]? = some a ∧ (compress [rowWith 0, rowWith 1])[0 + 1]? = some b :=
  ⟨fun _ h => by rw [List.eq_of_mem_replicate h]; decide, _, _, rfl, rfl⟩
theorem witness_ScanRunIsCompress :
    let ts := (List.replicate 240 [Turn.scan, .host, .host]).flatten ++ [.scan, .host] ++ [.ser]
    let s : State := { scanAt 0 false ts with host := { opened.host with prog := List.replicate 241 .takeRecord ++ [.pause] } }
    s.rle.state = .rlScan ∧ s.rle.r = 0 ∧ s.rle.runOpen = false ∧ s.recOut = [] ∧
      s.host.prog = List.replicate 241 .takeRecord ++ [.pause] ∧ s.turns = ts := ⟨rfl, rfl, rfl, rfl, rfl, rfl⟩
theorem witness_SerialiserSendsRecord :
    let s : State := { busy [.ser] [] with recOut := [.blankRun 0 240] }
    (s.turns = .ser :: [] ∧ s.recOut = .blankRun 0 240 :: [] ∧ (Record.blankRun 0 240).wf = true ∧ s.tx.state ≠ .txIdle) ∧
    (holding 240 [.ser] [.blankRun 0 240]).turns = .ser :: [] ∧
    (holding 240 [.ser] [.blankRun 0 240]).recOut = .blankRun 0 240 :: [] ∧
    (holding 240 [.ser] [.blankRun 0 240]).tx.state = .txIdle := by decide
theorem witness_RowStreamIsInProtocol : Record.blankRun 0 240 ∈ compress blankRowsImage := by
  rw [test_rle_C1]; exact List.mem_singleton.2 rfl
theorem witness_RecordsAreConsumedOnce :
    let s : State := { atTurn [.host] [.takeRecord] with recOut := [.blankRun 0 240] }
    (s.turns = .host :: [] ∧ Turn.host ≠ .scan ∧ Turn.host ≠ .powerOn ∧ ∃ t, step s = .next t) ∧
    ((holding 3 [.scan] [.blankRun 0 3]).turns = .scan :: [] ∧ (holding 3 [.scan] [.blankRun 0 3]).recOut ≠ [] ∧
      ∃ t, step (holding 3 [.scan] [.blankRun 0 3]) = .next t) :=
  ⟨⟨rfl, by decide, by decide, _, rfl⟩, rfl, by decide, _, rfl⟩
/-- A `pack_start` offered during a scan. -/
def packInScan : State := { scanAt 3 false [.host] with host := { opened.host with prog := [.packStart 400 240] } }

/-- A byte that arrives at a FIFO of depth 2 holding two bytes. -/
def fullFifo : State := { atTurn [.arrive 7] [] with line := ⟨[1, 2], true⟩, par := { opened.par with fifoDepth := some ⟨2, by decide⟩ } }

theorem witness_StartsOnUndefinedStoreAreRefused :
    ((atTurn [.host] [.rleStart]).turns = .host :: [] ∧ (atTurn [.host] [.rleStart]).host.prog = .rleStart :: []) ∧
    (packInScan.turns = .host :: [] ∧ packInScan.host.prog = .packStart 400 240 :: [] ∧ packInScan.rle.state = .rlScan) ∧
    (fullFifo.turns = .arrive 7 :: [] ∧ fullFifo.par.fifoDepth = some ⟨2, by decide⟩ ∧ 2 ≤ fullFifo.line.fifo.length) := by decide

theorem witness_AwaitWaitsForSender :
    ((busy [.host] [.await .any]).turns = .host :: [] ∧ (busy [.host] [.await .any]).host.prog = .await .any :: []) ∧
    ((atTurn [.host] [.txWait]).turns = .host :: [] ∧ (atTurn [.host] [.txWait]).host.prog = .txWait :: []) ∧
    ((atTurn [.host] [.finish]).turns = .host :: [] ∧ (atTurn [.host] [.finish]).host.prog = .finish :: []) ∧
    (lastByte.turns = .takeTx :: [] ∧ lastByte.line.isOpen = true ∧ lastByte.tx.Inv ∧ lastByte.tx.state = .txTrl2 ∧
      lastByte.host.prog = .finish :: [.closePort] ∧ lastByte.rx.state.resting = true ∧
      lastByte.pack.state = .pkIdle ∧ lastByte.rle.state = .rlIdle ∧ lastByte.recOut = []) :=
  ⟨⟨rfl, rfl⟩, ⟨rfl, rfl⟩, ⟨rfl, rfl⟩, rfl, rfl, ⟨⟨by decide, rfl, rfl⟩, by decide⟩, rfl, rfl, rfl, rfl, rfl, rfl⟩
/-- RXF in `Failed`, its value given, and the host waiting on it under a policy. -/
def failedUnder (p : OnError) : State :=
  { atTurn [.host] [.awaiting .any 0, .pause] with
    rx := { rxAt .failed with result := .fail .framingError }
    out := { opened.out with rxResults := [.fail .framingError] }, par := { opened.par with onError := p } }

theorem witness_FailedAwaitFollowsOnError :
    ∀ p, (failedUnder p).turns = .host :: [] ∧ (failedUnder p).host.prog = .awaiting .any 0 :: [.pause] ∧
      (failedUnder p).out.rxResults[0]? = some (.fail .framingError) ∧ (failedUnder p).par.onError = p := fun _ => ⟨rfl, rfl, rfl, rfl⟩

/-- An attempt that has given `Ok` with this payload, and the host waiting on it. -/
def answered (e : Expect) (payload : List Byte) : State :=
  { atTurn [.host] [.awaiting e 0, .pause] with
    rx := { rxAt .done with result := .ok }, out := { opened.out with rxResults := [.ok 0x21 payload] } }

/-- A payload of ten bytes and one of nine. -/
theorem witness_StatusPollReadsFiveFields :
    (∀ payload, (answered .status payload).turns = .host :: [] ∧
      (answered .status payload).host.prog = .awaiting .status 0 :: [.pause] ∧
      (answered .status payload).out.rxResults[0]? = some (.ok 0x21 payload)) ∧
    ([1, 2, 3, 4, 5, 6, 7, 8, 9] : List Byte).length ≠ 10 ∧
    ([1, 2, 3, 4, 5, 6, 7, 8, 9, 10] : List Byte).length = 10 := ⟨fun _ => ⟨rfl, rfl, rfl⟩, by decide, rfl⟩
/-- A payload of one byte and an empty one. -/
theorem witness_AckByteIsData :
    (∀ payload, (answered .ack payload).turns = .host :: [] ∧
      (answered .ack payload).host.prog = .awaiting .ack 0 :: [.pause] ∧
      (answered .ack payload).out.rxResults[0]? = some (.ok 0x21 payload)) ∧
    ([] : List Byte).length ≠ 1 ∧ ([0] : List Byte).length = 1 := ⟨fun _ => ⟨rfl, rfl, rfl⟩, by decide, rfl⟩
theorem witness_WrongImageEndsSession :
    let s := atTurn (List.replicate 6 .host ++ [.scan]) [.session 240 400, .pause]
    ¬(240 = 400 ∧ 400 = 240) ∧ s.rle.state = .rlIdle ∧ s.pack.state = .pkIdle ∧
      s.host.prog = .session 240 400 :: [.pause] ∧ s.turns = List.replicate 6 .host ++ [.scan] := by decide
theorem witness_SessionRequestsAreInProtocol :
    let par := opened.par
    .offer (.setDensity 3) ∈ sessionProgram par 400 240 := by decide +kernel

theorem opened_inv : opened.Inv where
  tx := trivial
  rx := ⟨List.length_replicate, rfl⟩
  pack := fun h => nomatch h
  rle := fun h => nomatch h
  bmp := rfl
  scan := fun h => nomatch h
  fill := fun h => nomatch h
  offer := fun _ => rfl
  held := List.nil_suffix
  offered := ⟨by decide, fun _ h => nomatch h⟩
  rxResults := fun _ h => nomatch h
  packResults := fun _ h => nomatch h

theorem atTurn_inv (turns : List Turn) (prog : List HostOp) : (atTurn turns prog).Inv :=
  ⟨opened_inv.tx, opened_inv.rx, opened_inv.pack, opened_inv.rle, opened_inv.bmp, opened_inv.scan, opened_inv.fill,
    opened_inv.offer, opened_inv.held, opened_inv.offered, opened_inv.rxResults, opened_inv.packResults⟩

/-- The attempt of a frame of no payload at its first trailer byte, its last two bytes waiting. -/
def atTrailer : State :=
  { atTurn [.deliver, .deliver] [] with
    rx := ⟨.readTrailer1, 0xA3, 0, 0, 0xA3, List.replicate 255 0, .none⟩, line := ⟨[0xAA, 0xAA], true⟩ }

/-- A run of it: both bytes are delivered, then TXF's turn comes again and again and transfers nothing. -/
def trailerRun (k : Nat) : State :=
  match k with
  | 0 => { atTrailer with turns := [] }
  | 1 => (nextState? (turnDeliver { atTrailer with turns := [] })).getD opened
  | _ => (nextState? (turnDeliver ((nextState? (turnDeliver { atTrailer with turns := [] })).getD opened))).getD opened

theorem trailerRun_later (k : Nat) : trailerRun (k + 2) = trailerRun 2 := rfl

theorem trailerRun_free : FreeRun trailerRun := by
  intro k
  match k with
  | 0 => exact ⟨.deliver, [], rfl⟩
  | 1 => exact ⟨.deliver, [], rfl⟩
  | k + 2 => exact ⟨.takeTx, [], rfl⟩

theorem trailerRun_progress : Progress trailerRun where
  reads k _ := ⟨k + 2, by omega, .inr (by rw [trailerRun_later]; rfl)⟩
  bytes k _ := ⟨k + 2, by omega, .inr (by rw [trailerRun_later]; rfl)⟩
  pixels k _ := ⟨k + 2, by omega, .inr (by rw [trailerRun_later]; rfl)⟩

/-- An attempt in `Idle` with nothing waiting. -/
def hunting : State := { opened with rx := rxAt .idle }

/-- Each clause: 260 items; a run that meets the progress assumption; a state in `Idle` with nothing waiting. -/
theorem witness_AttemptEndsAfterReadCmd :
    ((rxAt .readCmd).state = .readCmd ∧ 260 ≤ (List.replicate 260 (RxItem.byte 0xFF)).length) ∧
    (FreeRun trailerRun ∧ Progress trailerRun ∧ (trailerRun 0).Inv ∧ (trailerRun 0).rx.state.inFrame = true) ∧
    (hunting.rx.state = .idle ∧ hunting.line = ⟨[], true⟩ ∧ hunting.par.fifoDepth = none ∧ hunting.tx.state = .txIdle ∧
      hunting.pack.state = .pkIdle) :=
  ⟨⟨rfl, by rw [List.length_replicate]⟩,
    ⟨trailerRun_free, trailerRun_progress,
      ⟨trivial, ⟨List.length_replicate, rfl, rfl⟩, opened_inv.pack, opened_inv.rle, rfl, opened_inv.scan, opened_inv.fill,
        opened_inv.offer, List.nil_suffix, opened_inv.offered, opened_inv.rxResults, opened_inv.packResults⟩, rfl⟩,
    rfl, rfl, rfl, rfl, rfl⟩

theorem witness_AllWhiteSessionRunsToEnd :
    let s : State := { atTurn [] [.session 400 240] with pixels := List.replicate 96000 255 }
    s.Inv ∧ s.runOver = true ∧ s.host.prog = [.session 400 240] ∧ s.line.fifo = [] ∧ s.par.fifoDepth = none ∧
      (List.replicate 96000 255).length = 96000 ∧ (∀ red ∈ List.replicate 96000 255, red ≠ 0) ∧
      s.pixels = List.replicate 96000 255 ∧
      (List.replicate 108 ((0x31 : Byte), ([1] : List Byte))).length = 108 ∧
      (∀ a ∈ List.replicate 108 ((0x31 : Byte), ([1] : List Byte)), a.2.length ≤ 255) := by
  refine ⟨?_, rfl, rfl, rfl, rfl, List.length_replicate, fun red h => ?_, rfl, List.length_replicate, fun a h => ?_⟩
  · have h := atTurn_inv [] [.session 400 240]
    exact ⟨h.tx, h.rx, h.pack, h.rle, h.bmp, h.scan, h.fill, h.offer, h.held, h.offered, h.rxResults, h.packResults⟩
  · rw [List.eq_of_mem_replicate h]; decide
  · rw [List.eq_of_mem_replicate h]; decide
theorem witness_PowerOnResetsUnits :
    (busy [.powerOn, .takeTx] []).turns = .powerOn :: [.takeTx] ∧
    Turn.scan ∈ [Turn.takeTx, .deliver, .timeout, .pixel, .scan, .ser, .host] := by decide
theorem witness_StepKeepsInvariant :
    (atTurn [.host] [.await .any]).Inv ∧ ∃ t, step (atTurn [.host] [.await .any]) = .next t := ⟨atTurn_inv _ _, _, rfl⟩
theorem witness_NoStepFromInvariantFaults : (atTurn [.takeTx, .pixel, .scan] []).Inv := atTurn_inv _ _
/-- One state for each agent's turn. -/
theorem witness_UnitsShareNothing :
    ∀ turn ∈ [Turn.takeTx, .deliver, .timeout, .pixel, .scan, .ser, .arrive 7, .powerOn],
      (busy [turn] []).turns = turn :: [] ∧ (nextState? (step (busy [turn] []))).isSome = true := by decide

end Sys2Proof.Tests
end

section
/-! The family of 30_encoding.md: the layout of a frame, and the expansion of `compress`. -/

namespace Sys2Proof.Machine

/-! ### The frame (30_encoding.md R70, R71) -/

/-- Settles O6: the frame is `frameLayout` with the payload's length as its length byte, whose checksum is the running
XOR by definition. -/
theorem encodeHasFrameLayout : Obligations.EncodeHasFrameLayout := fun cmd payload hlen =>
  ⟨lenByte payload, frameLayout cmd (lenByte payload) payload, lenByte_toNat hlen,
    encodeFrame_eq_some.2 ⟨hlen, rfl⟩, frameLayout_length .., rfl⟩

/-! ### The loop of `compress`, one equation per case (43_rle.md R165) -/

/-- The record that closes the open run, if one is open: `openRun` for the function of R165. -/
def runRecords : Option (Nat × Nat) → List Record
  | none => []
  | some (start, count) => [blankRunRecord start count]

/-- The open run after the blank row number `r`. -/
def extendRun (r : Nat) : Option (Nat × Nat) → Nat × Nat
  | none => (r, 1)
  | some (start, count) => (start, count + 1)

@[simp] theorem compressFrom_nil (r : Nat) (run : Option (Nat × Nat)) : compressFrom r run [] = runRecords run := by
  cases run <;> rfl

theorem compressFrom_cons_blank {row : List Byte} (hb : rowBlank row = true) (r : Nat) (run : Option (Nat × Nat))
    (rows : List (List Byte)) :
    compressFrom r run (row :: rows) = compressFrom (r + 1) (some (extendRun r run)) rows := by
  cases run <;> simp [compressFrom, extendRun, hb]

theorem compressFrom_cons_ink {row : List Byte} (hb : rowBlank row = false) (r : Nat) (run : Option (Nat × Nat))
    (rows : List (List Byte)) :
    compressFrom r run (row :: rows) =
      runRecords run ++ pixelRowRecord r row :: compressFrom (r + 1) none rows := by
  cases run <;> simp [compressFrom, runRecords, hb]

/-! ### The rows records stand for (30_encoding.md R86) -/

@[simp] theorem expandRecords_nil : expandRecords [] = [] := rfl

@[simp] theorem expandRecords_cons (x : Record) (xs : List Record) :
    expandRecords (x :: xs) = expandRecord x ++ expandRecords xs := List.flatMap_cons

@[simp] theorem expandRecords_append (xs ys : List Record) :
    expandRecords (xs ++ ys) = expandRecords xs ++ expandRecords ys := List.flatMap_append

/-- A blank row of 50 bytes is the row a BlankRun stands for. -/
theorem eq_replicate_of_rowBlank {row : List Byte} (hl : row.length = Config.rowBytes) (hb : rowBlank row = true) :
    row = List.replicate Config.rowBytes 0 :=
  List.eq_replicate_iff.2 ⟨hl, by simpa [rowBlank] using hb⟩

/-- A run inside the bitmap keeps its numbers in the record's fields: both fit their widths. -/
theorem expandRecord_blankRunRecord {start count : Nat} (h : start + count ≤ Config.rows) :
    expandRecord (blankRunRecord start count) =
      (List.range' start count).map (·, List.replicate Config.rowBytes 0) := by
  have hrows : Config.rows = 240 := rfl
  have hs : start % 2 ^ 16 = start := Nat.mod_eq_of_lt (by omega)
  have hc : count % 2 ^ 8 = count := Nat.mod_eq_of_lt (by omega)
  simp only [blankRunRecord, expandRecord, BitVec.toNat_ofNat, hs, hc, List.range'_eq_map_range, List.map_map]
  rfl

theorem expandRecord_pixelRowRecord {r : Nat} (h : r < Config.rows) (row : List Byte) :
    expandRecord (pixelRowRecord r row) = [(r, row)] := by
  have hrows : Config.rows = 240 := rfl
  have hr : r % 2 ^ 16 = r := Nat.mod_eq_of_lt (by omega)
  simp only [pixelRowRecord, expandRecord, BitVec.toNat_ofNat, hr]

/-! ### The expansion of `compress` -/

/-- The open run, if there is one, covers the rows just before row `r`. -/
def RunEndsAt (r : Nat) : Option (Nat × Nat) → Prop
  | none => True
  | some (start, count) => start + count = r

theorem runEndsAt_none (r : Nat) : RunEndsAt r none := trivial

theorem runEndsAt_extendRun {r : Nat} {run : Option (Nat × Nat)} (h : RunEndsAt r run) :
    RunEndsAt (r + 1) (some (extendRun r run)) := by
  cases run with
  | none => rfl
  | some p => exact congrArg (· + 1) h

/-- A blank row that extends the open run adds itself to the rows the run's record stands for. -/
theorem expandRecords_extendRun {r : Nat} {run : Option (Nat × Nat)} (h : RunEndsAt r run) (hr : r < Config.rows) :
    expandRecords (runRecords (some (extendRun r run))) =
      expandRecords (runRecords run) ++ [(r, List.replicate Config.rowBytes 0)] := by
  cases run with
  | none => simp [runRecords, extendRun, expandRecord_blankRunRecord (start := r) (count := 1) hr]
  | some p =>
    obtain ⟨start, count⟩ := p
    obtain rfl : start + count = r := h
    simp only [runRecords, extendRun, expandRecords_cons, expandRecords_nil, List.append_nil,
      expandRecord_blankRunRecord (Nat.le_of_lt hr), expandRecord_blankRunRecord (start := start) (count := count + 1) hr,
      List.range'_1_concat, List.map_append, List.map_cons, List.map_nil]

/-- The loop from row `r` on stands for the rows of the open run, then for the rows that are left, numbered from `r`. -/
theorem expandRecords_compressFrom {rows : List (List Byte)} (hlen : ∀ row ∈ rows, row.length = Config.rowBytes)
    {r : Nat} {run : Option (Nat × Nat)} (hrun : RunEndsAt r run) (hr : r + rows.length ≤ Config.rows) :
    expandRecords (compressFrom r run rows) =
      expandRecords (runRecords run) ++ (List.range' r rows.length).zip rows := by
  induction rows generalizing r run with
  | nil => simp
  | cons row rows ih =>
    obtain ⟨hrow, hrest⟩ := List.forall_mem_cons.1 hlen
    rw [List.length_cons] at hr ⊢
    have hlt : r < Config.rows := by omega
    have hle : r + 1 + rows.length ≤ Config.rows := by omega
    rw [List.range'_succ, List.zip_cons_cons]
    cases hb : rowBlank row with
    | true =>
      rw [compressFrom_cons_blank hb, ih hrest (runEndsAt_extendRun hrun) hle, expandRecords_extendRun hrun hlt,
        ← eq_replicate_of_rowBlank hrow hb, List.append_assoc, List.singleton_append]
    | false =>
      rw [compressFrom_cons_ink hb, expandRecords_append, expandRecords_cons, expandRecord_pixelRowRecord hlt,
        ih hrest (runEndsAt_none _) hle]
      rfl

/-- Settles O42, by the loop's expansion from row 0 with no run open. -/
theorem expandedRecordsAreTheRows : Obligations.ExpandedRecordsAreTheRows := by
  intro rows hcount hlen
  have h := expandRecords_compressFrom hlen (runEndsAt_none 0) (by simp [hcount, Config.rows])
  rwa [hcount, ← List.range_eq_range'] at h

end Sys2Proof.Machine
end

section
/-! The family of 41_framer_rx.md: what RXF's step does with a byte, state by state (R119, R121, R123 to R126). -/

namespace Sys2Proof.Machine

/-! ### The step's function in each state -/

section
variable {r : Rxf} (b : Byte)

theorem rxStep_byte_of_idle (h : r.state = .idle) : rxStep (.byte b) r = rxIdle b r := by
  simp only [rxStep, h]

theorem rxStep_byte_of_readCmd (h : r.state = .readCmd) : rxStep (.byte b) r = rxReadCmd b r := by
  simp only [rxStep, h]

theorem rxStep_byte_of_readPayload (h : r.state = .readPayload) : rxStep (.byte b) r = rxReadPayload b r := by
  simp only [rxStep, h]

theorem rxStep_byte_of_readChecksum (h : r.state = .readChecksum) : rxStep (.byte b) r = rxReadChecksum b r := by
  simp only [rxStep, h]

theorem rxStep_byte_of_readTrailer1 (h : r.state = .readTrailer1) : rxStep (.byte b) r = rxReadTrailer1 b r := by
  simp only [rxStep, h]

theorem rxStep_byte_of_readTrailer2 (h : r.state = .readTrailer2) : rxStep (.byte b) r = rxReadTrailer2 b r := by
  simp only [rxStep, h]

/-- Only `Started` emits a pulse (R120); in `Idle` a discarded byte is silent. -/
theorem rxEvents_byte_of_idle (h : r.state = .idle) : rxEvents (.byte b) r = [] := by
  simp only [rxEvents, h]

end

/-! ### The branches of a state's test -/

section
variable {b : Byte} {r : Rxf}

theorem rxIdle_eq (b : Byte) (r : Rxf) : rxIdle b r = { r with state := if b = Config.pre then .started else .idle } := by
  unfold rxIdle
  split_ifs
  · rfl
  · rfl

theorem rxReadChecksum_of_eq (h : b = r.acc) : rxReadChecksum b r = { r with state := .readTrailer1 } := if_pos h

theorem rxReadChecksum_of_ne (h : b ≠ r.acc) : rxReadChecksum b r = rxFail .checksumMismatch r := if_neg h

theorem rxReadTrailer1_of_eq (h : b = Config.trl) : rxReadTrailer1 b r = { r with state := .readTrailer2 } := if_pos h

theorem rxReadTrailer1_of_ne (h : b ≠ Config.trl) : rxReadTrailer1 b r = rxFail .framingError r := if_neg h

theorem rxReadTrailer2_of_eq (h : b = Config.trl) : rxReadTrailer2 b r = { r with result := .ok, state := .done } :=
  if_pos h

theorem rxReadTrailer2_of_ne (h : b ≠ Config.trl) : rxReadTrailer2 b r = rxFail .framingError r := if_neg h

end

/-! ### What an attempt reports when it ends (R126, R129) -/

theorem rxOutcome_done (r : Rxf) :
    rxOutcome { r with result := .ok, state := .done } = [.ok r.cmd (r.buf.take r.len.toNat)] := rfl

/-- A step that raises `kind` ends in `Failed`, keeps `kind` in `rx.result` and gives the host `kind` alone. -/
theorem rxFail_reports {kind : ErrorKind} {r t : Rxf} (h : t = rxFail kind r) :
    t.state = .failed ∧ t.result = .fail kind ∧ rxOutcome t = [.fail kind] := by
  subst h
  exact ⟨rfl, rfl, rfl⟩

/-! ### The buffer after a payload byte (R123) -/

theorem rxReadPayload_buf_self (b : Byte) {r : Rxf} (h : r.cnt < r.buf.length) :
    (rxReadPayload b r).buf[r.cnt]? = some b := List.getElem?_set_self h

theorem rxReadPayload_buf_ne (b : Byte) {r : Rxf} {k : Nat} (h : k ≠ r.cnt) :
    (rxReadPayload b r).buf[k]? = r.buf[k]? := List.getElem?_set_ne h.symm

/-! ### The obligations -/

/-- Settles O20: the step in `Idle` is `rxIdle`, whose branches differ in `rx.state` alone. -/
theorem idleHuntsForPreamble : Obligations.IdleHuntsForPreamble := fun r b h =>
  ⟨(rxStep_byte_of_idle b h).trans (rxIdle_eq b r), rxEvents_byte_of_idle b h⟩

/-- Settles O22: the step in `ReadCmd` is `rxReadCmd`. -/
theorem readCmdTakesOpcode : Obligations.ReadCmdTakesOpcode := fun _ b h => rxStep_byte_of_readCmd b h

/-- Settles O24: `rx.cnt` is inside the buffer, since `rx.len` is at most 255. -/
theorem readPayloadStoresByte : Obligations.ReadPayloadStoresByte := by
  intro r b hstate hcnt hbuf
  have hin : r.cnt < r.buf.length := by
    have := r.len.isLt
    omega
  rw [rxStep_byte_of_readPayload b hstate]
  exact ⟨rxReadPayload_buf_self b hin, fun _ hk => rxReadPayload_buf_ne b hk, rfl, rfl, rfl, rfl, rfl, rfl⟩

/-- Settles O25, by the two branches of each state's test. -/
theorem checksumAndTrailersAreChecked : Obligations.ChecksumAndTrailersAreChecked := by
  intro r b
  refine ⟨fun hs hb => ?_, fun hs hb => ?_, fun hs hb => ?_, fun hs hb => ?_, fun hs hb => ?_⟩
  · rw [rxStep_byte_of_readChecksum b hs, rxReadChecksum_of_eq hb]
  · rw [rxStep_byte_of_readTrailer1 b hs, rxReadTrailer1_of_eq hb]
  · rw [rxStep_byte_of_readTrailer2 b hs, rxReadTrailer2_of_eq hb]
    exact ⟨rfl, rxOutcome_done r⟩
  · exact rxFail_reports ((rxStep_byte_of_readChecksum b hs).trans (rxReadChecksum_of_ne hb))
  · apply rxFail_reports (kind := .framingError) (r := r)
    obtain hs | hs := hs
    · exact (rxStep_byte_of_readTrailer1 b hs).trans (rxReadTrailer1_of_ne hb)
    · exact (rxStep_byte_of_readTrailer2 b hs).trans (rxReadTrailer2_of_ne hb)

end Sys2Proof.Machine
end

section
/-! The family of 42_packer.md: the bits of a packed byte (R150, R152), and the place of a pixel's bit (20_memory.md R54). -/

namespace Sys2Proof.Machine

/-! ### The ink rule and the weight of a column (R150, R152) -/

@[simp] theorem isInk_iff (red : Nat) : isInk red = true ↔ red = 0 := by
  simp [isInk, Config.inkRed]

/-- A column's weight has one bit at most: the column's own, when the pixel is ink. -/
theorem getLsbD_inkWeight (red x i : Nat) :
    (inkWeight red x).getLsbD i = (decide (i = pixelBit x) && isInk red) := by
  have hbit : pixelBit x < 8 := by unfold pixelBit; omega
  unfold inkWeight
  split_ifs with hink
  · rw [BitVec.getLsbD_ofNat, Nat.testBit_two_pow, hink]
    by_cases hi : i = pixelBit x
    · simp [hi, hbit]
    · simp [hi, Ne.symm hi]
  · simp [hink]

/-- While the column's bit is clear, adding its weight sets that bit when the pixel is ink, with no carry into the others. -/
theorem getLsbD_add_inkWeight {acc : Byte} {x : Nat} (hclear : acc.getLsbD (pixelBit x) = false) (red i : Nat) :
    (acc + inkWeight red x).getLsbD i = (acc.getLsbD i || (decide (i = pixelBit x) && isInk red)) := by
  have hdisjoint : acc &&& inkWeight red x = 0#8 := by
    refine BitVec.eq_of_getLsbD_eq fun k _ => ?_
    rw [BitVec.getLsbD_and, getLsbD_inkWeight]
    by_cases h : k = pixelBit x
    · simp [h, hclear]
    · simp [h]
  rw [BitVec.add_eq_or_of_and_eq_zero acc _ hdisjoint, BitVec.getLsbD_or, getLsbD_inkWeight]

/-! ### One packed byte (R150) -/

/-- From column `k` on, with the bits of these columns still clear, the sum of the weights adds each column's ink bit; a
column past the listed pixels stays clear. -/
theorem getLsbD_foldl_inkWeight (reds : List Nat) {k : Nat} {acc : Byte} (hfit : k + reds.length ≤ 8)
    (hclear : ∀ j, k ≤ j → j < 8 → acc.getLsbD (7 - j) = false) {j : Nat} (hj : j < 8) :
    (((reds.zipIdx k).map (fun p => inkWeight p.1 p.2)).foldl (fun a b => a + b) acc).getLsbD (7 - j)
      = (acc.getLsbD (7 - j) || (decide (k ≤ j) && isInk (reds.getD (j - k) 1))) := by
  induction reds generalizing k acc with
  | nil => simp [isInk, Config.inkRed]
  | cons red reds ih =>
    rw [List.length_cons] at hfit
    have hbit : pixelBit k = 7 - k := by rw [pixelBit, Nat.mod_eq_of_lt (by omega)]
    have hadd (i : Nat) : (acc + inkWeight red k).getLsbD (7 - i)
        = (acc.getLsbD (7 - i) || (decide (7 - i = 7 - k) && isInk red)) := by
      rw [getLsbD_add_inkWeight (hbit ▸ hclear k le_rfl (by omega)), hbit]
    have hclear' : ∀ i, k + 1 ≤ i → i < 8 → (acc + inkWeight red k).getLsbD (7 - i) = false := by
      intro i hki hi
      have hne : 7 - i ≠ 7 - k := by omega
      simp [hadd, hclear i (by omega) hi, hne]
    rw [List.zipIdx_cons, List.map_cons, List.foldl_cons, ih (by omega) hclear', hadd]
    obtain hlt | rfl | hgt := Nat.lt_trichotomy j k
    · have hne : 7 - j ≠ 7 - k := by omega
      simp [hne, Nat.not_le.2 hlt, Nat.not_le.2 (Nat.lt_succ_of_lt hlt)]
    · simp
    · have hne : 7 - j ≠ 7 - k := by omega
      have hsub : j - k = j - (k + 1) + 1 := by omega
      simp [hne, hgt.le, Nat.succ_le_of_lt hgt, hsub]

theorem getLsbD_packEight (reds : List Nat) {j : Nat} (hj : j < 8) :
    (packEight reds).getLsbD (7 - j) = isInk (reds.getD j 1) := by
  have hfit : 0 + (reds.take 8).length ≤ 8 := by simp
  rw [packEight, getLsbD_foldl_inkWeight _ hfit (by simp) hj]
  simp [List.getD_eq_getElem?_getD, List.getElem?_take_of_lt hj]

/-! ### The packed bytes of an image (R150) -/

@[simp] theorem packGroups_length (n : Nat) (reds : List Nat) : (packGroups n reds).length = n := by
  induction n generalizing reds with
  | zero => rfl
  | succ n ih => rw [packGroups, List.length_cons, ih]

theorem packGroups_getD {n k : Nat} (hk : k < n) (reds : List Nat) :
    (packGroups n reds).getD k 0 = packEight (reds.drop (8 * k)) := by
  induction n generalizing k reds with
  | zero => omega
  | succ n ih =>
    cases k with
    | zero => rfl
    | succ k => rw [packGroups, List.getD_cons_succ, ih (by omega), List.drop_drop, Nat.mul_succ, Nat.add_comm]

/-- Pixel `j` of group `k` is the pixel `8 * k + j` of the raster. -/
theorem getLsbD_packGroups {n k j : Nat} (hk : k < n) (hj : j < 8) (reds : List Nat) :
    ((packGroups n reds).getD k 0).getLsbD (7 - j) = isInk (reds.getD (8 * k + j) 1) := by
  rw [packGroups_getD hk, getLsbD_packEight _ hj]
  simp [List.getD_eq_getElem?_getD]

theorem packImage_ok {image : Image} {bytes : List Byte} (h : packImage image = .ok bytes) :
    bytes = packGroups bmpSize image.reds := by
  unfold packImage at h
  split_ifs at h
  exact (Except.ok.inj h).symm

/-- Settles O37: pixel (x, y) is pixel `x mod 8` of group `50 y + x div 8`. -/
theorem bitmapBitIsInk : Obligations.BitmapBitIsInk := by
  intro image bytes h _
  obtain rfl := packImage_ok h
  refine ⟨packGroups_length bmpSize image.reds, fun x y hx hy => ?_⟩
  have hgroup : 50 * y + x / 8 < bmpSize := by
    simp only [bmpSize, Config.rows, Config.rowBytes]
    omega
  have hraster : 8 * (50 * y + x / 8) + x % 8 = 400 * y + x := by omega
  rw [getLsbD_packGroups hgroup (Nat.mod_lt x (by decide)), hraster, isInk_iff]

end Sys2Proof.Machine
end

section
/-! The family of 43_rle.md: the blank test of a row (R166) and its set-bit count (R170). -/

namespace Sys2Proof.Machine

theorem rowBlank_iff_forall_eq_zero (row : List Byte) : rowBlank row = true ↔ ∀ b ∈ row, b = 0 := by
  simp [rowBlank]

theorem byte_eq_zero_iff_forall_getLsbD (b : Byte) : b = 0 ↔ ∀ k, k < 8 → b.getLsbD k = false := by
  constructor
  · rintro rfl k _
    exact BitVec.getLsbD_zero
  · intro h
    exact BitVec.eq_of_getLsbD_eq fun k hk => (h k hk).trans BitVec.getLsbD_zero.symm

/-- The converse of `popcount_eq_zero` holds by evaluation. -/
theorem popcount_eq_zero_iff (b : Byte) : popcount b = 0 ↔ b = 0 :=
  ⟨popcount_eq_zero, fun h => h ▸ rfl⟩

theorem setBitCount_eq_zero_iff (row : List Byte) : setBitCount row = 0 ↔ ∀ b ∈ row, b = 0 := by
  simp only [setBitCount, List.sum_eq_zero_iff, List.forall_mem_map, popcount_eq_zero_iff]

/-- Settles O39: each equivalent says of every byte of the row that it is zero. -/
theorem blankRowHasNoSetBit : Obligations.BlankRowHasNoSetBit := by
  intro row
  have hzero := rowBlank_iff_forall_eq_zero row
  have hbits : (∀ b ∈ row, b = 0) ↔ ∀ b ∈ row, ∀ k, k < 8 → b.getLsbD k = false :=
    forall₂_congr fun b _ => byte_eq_zero_iff_forall_getLsbD b
  exact ⟨hzero, hzero.trans hbits, hzero.trans (setBitCount_eq_zero_iff row).symm, setBitCount_le row⟩

end Sys2Proof.Machine
end

section
/-! The family of 60_exceptions.md: where an attempt that is given a damaged frame ends (R237, R238). -/

namespace Sys2Proof.Machine

/-! ### A run by its first item (41_framer_rx.md R135) -/

section
variable {r t : Rxf} {item : RxItem} (items : List RxItem)

/-- A step into an active state goes on with the items that are left. -/
theorem rxRun_cons_of_active (h : rxStep item r = t) (ht : t.state.resting = false) :
    rxRun r (item :: items) = rxRun t items := by
  subst h
  simp [rxRun, ht]

/-- A step that raises `kind` ends the run and leaves the other items. -/
theorem rxRun_cons_of_fail {kind : ErrorKind} (h : rxStep item r = rxFail kind r) :
    rxRun r (item :: items) = some (rxFail kind r, items) := by
  simp only [rxRun, h]
  exact if_pos rfl

end

/-! ### A run over the bytes of a request (R119 to R123) -/

section
variable {r : Rxf}

theorem rxStep_byte_of_started (b : Byte) (h : r.state = .started) : rxStep (.byte b) r = rxStarted b r := by
  simp only [rxStep, h]

theorem rxStep_byte_of_readLen (b : Byte) (h : r.state = .readLen) : rxStep (.byte b) r = rxReadLen b r := by
  simp only [rxStep, h]

/-- From `Idle` the two preamble bytes lead to `ReadCmd`. -/
theorem rxRun_preamble (items : List RxItem) (h : r.state = .idle) :
    rxRun r (.byte Config.pre :: .byte Config.pre :: items) = rxRun { r with state := .readCmd } items := by
  have hidle : rxStep (.byte Config.pre) r = { r with state := .started } :=
    (rxStep_byte_of_idle _ h).trans (if_pos rfl)
  rw [rxRun_cons_of_active _ hidle rfl]
  exact rxRun_cons_of_active _ ((rxStep_byte_of_started _ rfl).trans (if_pos rfl)) rfl

/-- From `ReadPayload` the payload's bytes still due lead to `ReadChecksum`, each one more term of the running XOR. -/
theorem rxRun_readPayload (payload : List Byte) (hs : r.state = .readPayload) (hne : payload ≠ [])
    (hlen : r.cnt + payload.length = r.len.toNat) :
    ∃ t : Rxf, t.state = .readChecksum ∧ t.acc = xorAll r.acc payload ∧
      ∀ items, rxRun r (byteItems payload ++ items) = rxRun t items := by
  induction payload generalizing r with
  | nil => exact absurd rfl hne
  | cons b payload ih =>
    rw [List.length_cons] at hlen
    have hstep := rxStep_byte_of_readPayload b hs
    by_cases hlast : payload = []
    · subst hlast
      have hstate : (rxReadPayload b r).state = .readChecksum := if_pos hlen
      exact ⟨rxReadPayload b r, hstate, rfl, fun items => rxRun_cons_of_active items hstep (by rw [hstate]; rfl)⟩
    · have hpos := List.length_pos_iff.2 hlast
      have hstate : (rxReadPayload b r).state = .readPayload := if_neg (by omega)
      obtain ⟨t, ht, hacc, hrun⟩ := ih hstate hlast (by show r.cnt + 1 + _ = r.len.toNat; omega)
      exact ⟨t, ht, hacc, fun items =>
        (rxRun_cons_of_active _ hstep (by rw [hstate]; rfl)).trans (hrun items)⟩

/-- From `ReadLen` the length byte and the payload lead to `ReadChecksum`; an empty payload skips `ReadPayload`. -/
theorem rxRun_readLen (payload : List Byte) (hs : r.state = .readLen) (hlen : payload.length ≤ Config.maxLen) :
    ∃ t : Rxf, t.state = .readChecksum ∧ t.acc = xorAll (r.acc ^^^ lenByte payload) payload ∧
      ∀ items, rxRun r (byteItems (lenByte payload :: payload) ++ items) = rxRun t items := by
  have hstep := rxStep_byte_of_readLen (lenByte payload) hs
  by_cases hnil : payload = []
  · subst hnil
    exact ⟨_, rfl, rfl, fun items => rxRun_cons_of_active items hstep rfl⟩
  · have hstate : (rxReadLen (lenByte payload) r).state = .readPayload := if_neg (mt (lenByte_eq_zero hlen).1 hnil)
    have hdue : (rxReadLen (lenByte payload) r).cnt + payload.length = (rxReadLen (lenByte payload) r).len.toNat :=
      (Nat.zero_add _).trans (lenByte_toNat hlen).symm
    obtain ⟨t, ht, hacc, hrun⟩ := rxRun_readPayload payload hstate hnil hdue
    exact ⟨t, ht, hacc, fun items => (rxRun_cons_of_active _ hstep (by rw [hstate]; rfl)).trans (hrun items)⟩

/-- An attempt that has taken a request is in `ReadChecksum`, with the request's checksum as its running XOR. -/
theorem rxRun_requestLayout (r : Rxf) (cmd : Byte) {payload : List Byte} (hlen : payload.length ≤ Config.maxLen) :
    ∃ t : Rxf, t.state = .readChecksum ∧ t.acc = csum cmd (lenByte payload) payload ∧
      ∀ items, rxRun (rxBegin r) (byteItems (requestLayout cmd (lenByte payload) payload) ++ items) = rxRun t items := by
  obtain ⟨t, ht, hacc, hrun⟩ :=
    rxRun_readLen (r := rxReadCmd cmd { rxBegin r with state := .readCmd }) payload rfl hlen
  refine ⟨t, ht, hacc, fun items => ?_⟩
  calc rxRun (rxBegin r) (byteItems (requestLayout cmd (lenByte payload) payload) ++ items)
      = rxRun { rxBegin r with state := .readCmd }
          (.byte cmd :: (byteItems (lenByte payload :: payload) ++ items)) := rxRun_preamble _ rfl
    _ = rxRun (rxReadCmd cmd { rxBegin r with state := .readCmd }) (byteItems (lenByte payload :: payload) ++ items) :=
        rxRun_cons_of_active _ (rxStep_byte_of_readCmd cmd rfl) rfl
    _ = rxRun t items := hrun items

end

/-! ### A run over the checksum and the trailer (R124 to R126) -/

section
variable {r : Rxf} (items : List RxItem)

theorem rxRun_checksum_ok (hs : r.state = .readChecksum) :
    rxRun r (.byte r.acc :: items) = rxRun { r with state := .readTrailer1 } items :=
  rxRun_cons_of_active items ((rxStep_byte_of_readChecksum _ hs).trans (rxReadChecksum_of_eq rfl)) rfl

theorem rxRun_checksum_bad {x : Byte} (hs : r.state = .readChecksum) (hx : x ≠ r.acc) :
    rxRun r (.byte x :: items) = some (rxFail .checksumMismatch r, items) :=
  rxRun_cons_of_fail items ((rxStep_byte_of_readChecksum x hs).trans (rxReadChecksum_of_ne hx))

theorem rxRun_trailer1_ok (hs : r.state = .readTrailer1) :
    rxRun r (.byte Config.trl :: items) = rxRun { r with state := .readTrailer2 } items :=
  rxRun_cons_of_active items ((rxStep_byte_of_readTrailer1 _ hs).trans (rxReadTrailer1_of_eq rfl)) rfl

theorem rxRun_trailer1_bad {x : Byte} (hs : r.state = .readTrailer1) (hx : x ≠ Config.trl) :
    rxRun r (.byte x :: items) = some (rxFail .framingError r, items) :=
  rxRun_cons_of_fail items ((rxStep_byte_of_readTrailer1 x hs).trans (rxReadTrailer1_of_ne hx))

theorem rxRun_trailer2_bad {x : Byte} (hs : r.state = .readTrailer2) (hx : x ≠ Config.trl) :
    rxRun r (.byte x :: items) = some (rxFail .framingError r, items) :=
  rxRun_cons_of_fail items ((rxStep_byte_of_readTrailer2 x hs).trans (rxReadTrailer2_of_ne hx))

end

/-! ### The obligation -/

theorem byteItems_append (p q : List Byte) : byteItems (p ++ q) = byteItems p ++ byteItems q := List.map_append

/-- An attempt whose run ends in a failure gives the host its kind alone (R129). -/
theorem decodeItems_of_fail {r t : Rxf} {items rest : List RxItem} {kind : ErrorKind}
    (h : rxRun (rxBegin r) items = some (rxFail kind t, rest)) : decodeItems r items = some ([.fail kind], rest) := by
  rw [decodeItems, h]
  rfl

/-- Settles O31: the request leads to `ReadChecksum` with its checksum in `rx.acc`, whatever the registers held; the bytes
after it pass their tests up to the damaged one, whose test fails. -/
theorem damagedFramesAreRejected : Obligations.DamagedFramesAreRejected := by
  intro r cmd x payload items hlen _
  obtain ⟨t, ht, hacc, hrun⟩ := rxRun_requestLayout r cmd hlen
  simp only [byteItems_append, List.append_assoc, ← hacc]
  refine ⟨fun hx => decodeItems_of_fail ((hrun _).trans (rxRun_checksum_bad _ ht hx)), fun hx => ⟨?_, ?_⟩⟩
  · apply decodeItems_of_fail (t := { t with state := .readTrailer1 })
    calc rxRun (rxBegin r) _
        = rxRun t (.byte t.acc :: .byte x :: items) := hrun _
      _ = rxRun { t with state := .readTrailer1 } (.byte x :: items) := rxRun_checksum_ok _ ht
      _ = some (rxFail .framingError _, items) := rxRun_trailer1_bad items rfl hx
  · apply decodeItems_of_fail (t := { t with state := .readTrailer2 })
    calc rxRun (rxBegin r) _
        = rxRun t (.byte t.acc :: .byte Config.trl :: .byte x :: items) := hrun _
      _ = rxRun { t with state := .readTrailer1 } (.byte Config.trl :: .byte x :: items) := rxRun_checksum_ok _ ht
      _ = rxRun { t with state := .readTrailer2 } (.byte x :: items) := rxRun_trailer1_ok _ rfl
      _ = some (rxFail .framingError _, items) := rxRun_trailer2_bad items rfl hx

end Sys2Proof.Machine
end

section
/-! The family of 30_encoding.md: decoding what encoding gives, the opcode table, the checksum, and the frames of the
commands (44_commands.md). -/

namespace Sys2Proof

open Machine

/-! ### A request's words (30_encoding.md R71, R72) -/

/-- The decoder reads back the opcode and the payload of a request's words, and leaves what follows them. -/
theorem decode_requestLayout (cmd : Byte) {p : List Byte} (hp : p.length ≤ Config.maxLen) (rest : List Byte) :
    decode (requestLayout cmd (lenByte p) p ++ rest) = .ok (ofRequest cmd p, rest) := by
  have hlen := lenByte_toNat hp
  simp [decode, requestLayout, hlen]

/-- What `decode` accepts is a request's words and the bytes after it. -/
theorem decode_eq_ok {bytes more : List Byte} {i : Instr} (h : decode bytes = .ok (i, more)) :
    ∃ cmd p, p.length ≤ Config.maxLen ∧ i = ofRequest cmd p ∧ bytes = requestLayout cmd (lenByte p) p ++ more := by
  unfold decode at h
  split at h
  · next p1 p2 cmd len body =>
    split_ifs at h with hpre hlen
    obtain ⟨rfl, rfl⟩ := hpre
    cases h
    have htake : (body.take len.toNat).length = len.toNat := List.length_take_of_le hlen
    have hbyte : lenByte (body.take len.toNat) = len := by rw [lenByte, htake, BitVec.ofNat_toNat, BitVec.setWidth_eq]
    refine ⟨cmd, body.take len.toNat, ?_, rfl, ?_⟩
    · rw [htake]
      exact Nat.le_of_lt_succ len.isLt
    · simp [hbyte, requestLayout]
  · cases h

/-! ### The instruction of a pair (cmd, payload) (30_encoding.md R81, R87) -/

/-- A pair that no command row names is a generic frame: in each row's branch the length is another. -/
theorem ofRequest_frame {cmd : Byte} {p : List Byte} (h : (cmd, p.length) ∉ commandHeaders) :
    ofRequest cmd p = .frame cmd p := by
  simp only [commandHeaders, List.mem_cons, Prod.mk.injEq, not_or, not_and] at h
  unfold ofRequest
  repeat' split
  all_goals simp_all

theorem Instr.wf_frame_iff (cmd : Byte) (p : List Byte) :
    (Instr.frame cmd p).wf = true ↔ p.length ≤ Config.maxLen ∧ (cmd, p.length) ∉ commandHeaders := by
  simp [Instr.wf]

/-- A well-formed instruction is the one its pair stands for. -/
theorem ofRequest_cmd_payload {i : Instr} (h : i.wf = true) : ofRequest i.cmd i.payload = i := by
  cases i with
  | frame cmd p => exact ofRequest_frame ((Instr.wf_frame_iff cmd p).1 h).2
  | pixelRow row bits rep packed =>
    have hlen : packed.length = Config.rowBytes := by simpa [Instr.wf] using h
    simp [ofRequest, Instr.cmd, Instr.payload, pixelRowPayload, pixelRowHeader, be16, fromBe16_be16, hlen]
  | _ =>
    simp [ofRequest, Instr.cmd, Instr.payload, printStartPayload, setPageSizePayload, blankRowsPayload, be16,
      fromBe16_be16]

/-- The pair of a command row stands for that row's instruction. -/
theorem ofRequest_command {cmd : Byte} {p : List Byte} (h : (cmd, p.length) ∈ commandHeaders) :
    (ofRequest cmd p).wf = true ∧ (ofRequest cmd p).cmd = cmd ∧ (ofRequest cmd p).payload = p := by
  simp only [commandHeaders, List.mem_cons, Prod.mk.injEq, List.not_mem_nil, or_false] at h
  rcases h with ⟨rfl, h⟩ | ⟨rfl, h⟩ | ⟨rfl, h⟩ | ⟨rfl, h⟩ | ⟨rfl, h⟩ |
    ⟨rfl, h⟩ | ⟨rfl, h⟩ | ⟨rfl, h⟩ | ⟨rfl, h⟩ | ⟨rfl, h⟩
  · match p, h with
    | [a, b, c, d, e, f, g], _ => simp [ofRequest, Instr.wf, Instr.cmd, Instr.payload, printStartPayload]
  · match p, h with
    | [a], _ => exact ⟨rfl, rfl, rfl⟩
  · match p, h with
    | [a, b, c, d, e, f], _ => simp [ofRequest, Instr.wf, Instr.cmd, Instr.payload, setPageSizePayload]
  · match p, h with
    | [a], _ => exact ⟨rfl, rfl, rfl⟩
  · match p, h with
    | [a], _ => exact ⟨rfl, rfl, rfl⟩
  · match p, h with
    | [a, b, c], _ => simp [ofRequest, Instr.wf, Instr.cmd, Instr.payload, blankRowsPayload]
  · match p, h with
    | a :: b :: c :: d :: e :: f :: packed, h =>
      have hlen : packed.length = 50 := by simpa using h
      simp [ofRequest, Instr.wf, Instr.cmd, Instr.payload, pixelRowPayload, pixelRowHeader, hlen]
  · match p, h with
    | [], _ => exact ⟨rfl, rfl, rfl⟩
  · match p, h with
    | [a], _ => exact ⟨rfl, rfl, rfl⟩
  · match p, h with
    | [a], _ => exact ⟨rfl, rfl, rfl⟩

/-- The instruction of a pair of legal length is well formed and keeps the pair. -/
theorem ofRequest_spec (cmd : Byte) {p : List Byte} (hp : p.length ≤ Config.maxLen) :
    (ofRequest cmd p).wf = true ∧ (ofRequest cmd p).cmd = cmd ∧ (ofRequest cmd p).payload = p := by
  by_cases hc : (cmd, p.length) ∈ commandHeaders
  · exact ofRequest_command hc
  · rw [ofRequest_frame hc]
    exact ⟨(Instr.wf_frame_iff cmd p).2 ⟨hp, hc⟩, rfl, rfl⟩

/-- Settles O1: the decoder gives back the pair, and the pair of a well-formed instruction stands for it. -/
theorem decodeOfEncode : Obligations.DecodeOfEncode := by
  intro i rest hwf
  have hlen := Instr.payload_length_le hwf
  refine ⟨_, encode_eq_some.2 ⟨hlen, rfl⟩, ?_⟩
  rw [decode_requestLayout i.cmd hlen, ofRequest_cmd_payload hwf]

/-! ### Whole frames (30_encoding.md R71, R73) -/

theorem frameLayout_append (cmd len : Byte) (p rest : List Byte) :
    frameLayout cmd len p ++ rest = requestLayout cmd len p ++ (csum cmd len p :: Config.trl :: Config.trl :: rest) := by
  simp [frameLayout]

/-- Settles O2: after the request the decoder finds its checksum and the two trailer bytes. -/
theorem decodeWireOfEncodeWire : Obligations.DecodeWireOfEncodeWire := by
  intro i rest hwf
  have hlen := Instr.payload_length_le hwf
  refine ⟨_, encodeFrame_eq_some.2 ⟨hlen, rfl⟩, ?_⟩
  rw [frameLayout_append, decodeWire, decode_requestLayout i.cmd hlen, ofRequest_cmd_payload hwf]
  simp

/-- Settles O3: the decoder's checks, read backwards, leave the frame of the pair that was read. -/
theorem decodeWireAcceptsOnlyFrames : Obligations.DecodeWireAcceptsOnlyFrames := by
  intro bytes rest i h
  unfold decodeWire at h
  split at h
  · cases h
  · next c t1 t2 rest' hd =>
    split_ifs at h with hc ht
    obtain ⟨rfl, rfl⟩ := ht
    cases h
    subst hc
    obtain ⟨cmd, p, hp, rfl, hbytes⟩ := decode_eq_ok hd
    obtain ⟨hwf, hcmd, hpay⟩ := ofRequest_spec cmd hp
    refine ⟨hwf, frameLayout cmd (lenByte p) p, ?_, ?_⟩
    · rw [encodeWire, hcmd, hpay]
      exact encodeFrame_eq_some.2 ⟨hp, rfl⟩
    · rw [hbytes, frameLayout_append, hcmd, hpay]
  · cases h

/-! ### The opcode table (30_encoding.md R87) -/

theorem fromBe32_eq_append (a b c d : Byte) : fromBe32 a b c d = (a ++ b) ++ (c ++ d) := by
  apply BitVec.eq_of_toNat_eq
  have ha := a.isLt
  have hb := b.isLt
  have hc := c.isLt
  have hd := d.isLt
  simp only [fromBe32, BitVec.toNat_append, BitVec.toNat_ofNat]
  rw [← Nat.shiftLeft_add_eq_or_of_lt hd, ← Nat.shiftLeft_add_eq_or_of_lt hb,
    ← Nat.shiftLeft_add_eq_or_of_lt (by simp only [Nat.shiftLeft_eq]; omega)]
  simp only [Nat.shiftLeft_eq]
  omega

theorem fromBe32_inj_low {a b c d c' d' : Byte} (h : fromBe32 a b c d = fromBe32 a b c' d') : c = c' ∧ d = d' := by
  have h := congrArg BitVec.toNat h
  have hc := c.isLt
  have hc' := c'.isLt
  have hd := d.isLt
  have hd' := d'.isLt
  simp only [fromBe32, BitVec.toNat_ofNat] at h
  exact ⟨BitVec.eq_of_toNat_eq (by omega), BitVec.eq_of_toNat_eq (by omega)⟩

/-- The command rows of the table, the fallback left out: each names one header whole. -/
theorem opcodeTable_commandRows : ∀ row ∈ opcodeTable.take 10, row.maskBits = BitVec.allOnes 32 ∧
    ∃ header ∈ commandHeaders, row.matchBits = fromBe32 Config.pre Config.pre header.1 (BitVec.ofNat 8 header.2) := by
  decide

/-- The fallback row matches whatever begins with the preamble. -/
theorem frameRow_matches (c d : Byte) : fromBe32 Config.pre Config.pre c d &&& 0xFFFF0000 = 0x55550000 := by
  have hmask : (0xFFFF0000 : Word) = BitVec.allOnes 16 ++ (0 : BitVec 16) := rfl
  rw [fromBe32_eq_append, hmask]
  exact BitVec.and_append.trans (congrArg₂ BitVec.append BitVec.and_allOnes BitVec.and_zero)

/-- A header that no command row names is the fallback's. -/
theorem tableLookup_frame {cmd : Byte} {p : List Byte} (hp : p.length ≤ Config.maxLen)
    (h : (cmd, p.length) ∉ commandHeaders) :
    (tableLookup (fromBe32 Config.pre Config.pre cmd (lenByte p))).map TableRow.mnemonic = some "frame" := by
  have hsplit : opcodeTable = opcodeTable.take 10 ++ [⟨"frame", 0x55550000, 0xFFFF0000⟩] := rfl
  have hnone : (opcodeTable.take 10).find?
      (fun row => fromBe32 Config.pre Config.pre cmd (lenByte p) &&& row.maskBits == row.matchBits) = none := by
    refine List.find?_eq_none.2 fun row hrow hmatch => h ?_
    obtain ⟨hmask, header, hmem, hbits⟩ := opcodeTable_commandRows row hrow
    rw [hmask, hbits, BitVec.and_allOnes, beq_iff_eq] at hmatch
    obtain ⟨hcmd, hlen⟩ := fromBe32_inj_low hmatch
    have hsmall : ∀ x ∈ commandHeaders, x.2 ≤ Config.maxLen := by decide
    have hlen' : p.length = header.2 := by
      have := congrArg BitVec.toNat hlen
      rw [lenByte_toNat hp, BitVec.toNat_ofNat] at this
      exact this.trans (Nat.mod_eq_of_lt (Nat.lt_succ_of_le (hsmall _ hmem)))
    rwa [hcmd, hlen']
  rw [tableLookup, hsplit, List.find?_append, hnone, Option.none_or, List.find?_singleton, frameRow_matches]
  rfl

/-- Settles O4: a command's first word is fixed by its row; a generic frame's equals no command row's. -/
theorem opcodeTableNamesInstruction : Obligations.OpcodeTableNamesInstruction := by
  intro i b0 b1 b2 b3 tail hwf h
  obtain ⟨hlen, hwords⟩ := encode_eq_some.1 h
  obtain ⟨rfl, rfl, rfl, rfl, -⟩ : b0 = Config.pre ∧ b1 = Config.pre ∧ b2 = i.cmd ∧ b3 = lenByte i.payload ∧ _ := by
    simpa [requestLayout] using hwords
  have hrow : ∀ cmd len, i.cmd = cmd → lenByte i.payload = len →
      (tableLookup (fromBe32 Config.pre Config.pre cmd len)).map TableRow.mnemonic = some i.mnemonic →
      (tableLookup (fromBe32 Config.pre Config.pre i.cmd (lenByte i.payload))).map TableRow.mnemonic = some i.mnemonic := by
    rintro _ _ rfl rfl h
    exact h
  cases i with
  | printStart => exact hrow Config.cmdPrintStart 7 rfl rfl rfl
  | pageStart => exact hrow Config.cmdPageStart 1 rfl rfl rfl
  | setPageSize => exact hrow Config.cmdSetPageSize 6 rfl rfl rfl
  | setDensity => exact hrow Config.cmdSetDensity 1 rfl rfl rfl
  | setLabelType => exact hrow Config.cmdSetLabelType 1 rfl rfl rfl
  | blankRows => exact hrow Config.cmdBlankRows 3 rfl rfl rfl
  | pixelRow row bits rep packed =>
    have hpacked : packed.length = 50 := by simpa [Instr.wf] using hwf
    refine hrow Config.cmdPixelRow 56 rfl ?_ rfl
    simp [lenByte, Instr.payload, pixelRowPayload, pixelRowHeader, hpacked]
  | statusPoll => exact hrow Config.cmdStatusPoll 0 rfl rfl rfl
  | pageEnd => exact hrow Config.cmdPageEnd 1 rfl rfl rfl
  | printEnd => exact hrow Config.cmdPrintEnd 1 rfl rfl rfl
  | frame cmd p => exact tableLookup_frame hlen ((Instr.wf_frame_iff cmd p).1 hwf).2

/-! ### The checksum (30_encoding.md R74) -/

/-- The start value is a term of the XOR, so different start values give different sums. -/
theorem xorAll_start_inj {a b : Byte} {p : List Byte} (h : xorAll a p = xorAll b p) : a = b := by
  have hstart (x : Byte) : xorAll x p = x ^^^ xorAll 0#8 p := by rw [← xorAll_start, BitVec.xor_zero]
  rw [hstart a, hstart b] at h
  exact (BitVec.xor_left_inj _).1 h

/-- A byte anywhere among those covered is one term of the XOR. -/
theorem xorAll_insert (a b : Byte) (p q : List Byte) : xorAll a (p ++ b :: q) = xorAll (xorAll a p ^^^ b) q := by
  rw [xorAll_append, xorAll_cons]

/-- Settles O7: each covered byte is one term of the XOR, and the XOR with the other terms is injective. -/
theorem checksumDetectsOneChangedByte : Obligations.ChecksumDetectsOneChangedByte := by
  intro c l p
  refine ⟨fun c' hc h => hc ?_, fun l' hl h => hl ?_, fun k b hk hb h => hb ?_⟩
  · exact (BitVec.xor_left_inj _).1 (xorAll_start_inj h)
  · exact (BitVec.xor_right_inj _).1 (xorAll_start_inj h)
  · have hp : csum c l p = csum c l (p.take k ++ p[k] :: p.drop (k + 1)) := by simp
    rw [List.set_eq_take_append_cons_drop, if_pos hk, hp] at h
    simp only [csum, xorAll_insert] at h
    exact (BitVec.xor_right_inj _).1 (xorAll_start_inj h)

/-! ### Frames written out (44_commands.md) -/

/-- Settles O5, by evaluation of the decoder on the four frames. -/
theorem spelledWordsDecode : Obligations.SpelledWordsDecode := by
  unfold Obligations.SpelledWordsDecode
  decide

/-- Settles O8: each frame is its layout; the reserved zeros of print-start leave the XOR as it is. -/
theorem operandCommandFrames : Obligations.OperandCommandFrames := by
  refine ⟨fun d => rfl, fun t => rfl, fun n => ?_, fun start count => rfl⟩
  simp [encodeWire, encodeFrame, frameLayout, requestLayout, Instr.cmd, Instr.payload, printStartPayload, be16,
    hiByte, loByte, csum, lenByte, Config.maxLen]

/-- Settles O9, by evaluation of the encoder on the five commands. -/
theorem fixedCommandFrames : Obligations.FixedCommandFrames := by
  unfold Obligations.FixedCommandFrames
  decide

end Sys2Proof
end

section
/-! The families of 40_framer_tx.md and 44_commands.md: the instructions as requests to TXF, and TXF's frame on the wire. -/

namespace Sys2Proof.Machine

/-! ### The instructions (40_framer_tx.md R102, R105, R106) -/

/-- An idle TXF latches the pair of every well-formed instruction. -/
theorem exec_idle {i : Instr} {s : State} (hi : s.tx.state = .txIdle) (hwf : i.wf = true) :
    exec i s = .next (s.withTx (txLatch s.tx i.cmd i.payload)) := by
  rw [exec_eq_txRequest, txRequest_idle hi _ (Instr.payload_length_le hwf)]

theorem txRequest_too_long {p : List Byte} (hp : Config.maxLen < p.length) (cmd : Byte) (s : State) :
    txRequest cmd p s = .refused .payloadTooLong := if_pos hp

theorem encodeFrame_too_long {p : List Byte} (hp : Config.maxLen < p.length) (cmd : Byte) : encodeFrame cmd p = none :=
  if_neg (Nat.not_le.2 hp)

/-- Settles O10: each is latched, and its pair is written out. -/
theorem sessionCommandsComplete : Obligations.SessionCommandsComplete := fun _ h =>
  ⟨fun _ => exec_idle h rfl, fun _ => exec_idle h rfl, fun _ _ _ _ _ _ => exec_idle h rfl, exec_idle h rfl,
    fun _ => exec_idle h rfl⟩

/-- Settles O11: each is latched, and its pair is written out. -/
theorem pageCommandsComplete : Obligations.PageCommandsComplete := fun _ h =>
  ⟨fun _ => exec_idle h rfl, fun _ _ _ => exec_idle h rfl, fun _ => exec_idle h rfl⟩

/-- Settles O12: each is latched; six header bytes and 50 packed ones make the length 56. -/
theorem rowStreamCommandsComplete : Obligations.RowStreamCommandsComplete := by
  intro s h
  refine ⟨fun _ _ => exec_idle h rfl, fun row bits rep packed hp => ?_⟩
  have hlen : lenByte (pixelRowPayload row bits rep packed) = 56 := by
    simp [lenByte, pixelRowPayload, pixelRowHeader, hp]
  rw [exec_idle h (by simp [Instr.wf, hp]), ← hlen]
  rfl

/-- Settles O13: `exec` of a generic frame is its request, which an idle TXF latches. -/
theorem genericFrameCompletes : Obligations.GenericFrameCompletes := fun _ cmd _ h hp => txRequest_idle h cmd hp

/-- Settles O14: a request is latched or held. -/
theorem instructionsChangeOnlyTxf : Obligations.InstructionsChangeOnlyTxf := by
  intro i s t h
  rw [exec_eq_txRequest] at h
  obtain ⟨-, ⟨hi, rfl⟩ | ⟨hb, rfl⟩⟩ := txRequest_cases h
  · exact ⟨rfl, rfl, fun _ => rfl, fun hb => absurd hi hb⟩
  · exact ⟨rfl, rfl, fun _ => rfl, fun _ => rfl⟩

/-! ### The host's turn -/

theorem step_host {s : State} {ts : List Turn} (h : s.turns = .host :: ts) : step s = turnHost (s.withTurns ts) :=
  step_cons h

section
variable {s : State} {rest : List HostOp}

theorem turnHost_offer {i : Instr} (h : s.host.prog = .offer i :: rest) : turnHost s = hostOffer i rest s := by
  simp only [turnHost, h]

theorem turnHost_send {words : List Byte} (h : s.host.prog = .send words :: rest) :
    turnHost s = hostSend words rest s := by
  simp only [turnHost, h]

end

theorem hostSend_ok {words more : List Byte} {i : Instr} (h : decode words = .ok (i, more)) (rest : List HostOp)
    (s : State) : hostSend words rest s = hostOffer i (afterRequest more rest) s := by
  simp only [hostSend, h]

theorem afterRequest_eq (more : List Byte) (rest : List HostOp) :
    afterRequest more rest = if more = [] then rest else .send more :: rest := by
  cases more <;> rfl

/-- Settles O15: the test of the payload's length comes first, and a busy TXF holds what passes it. -/
theorem unacceptedRequestsChangeNothing : Obligations.UnacceptedRequestsChangeNothing := by
  refine ⟨fun i s hwf hb => ?_, fun s cmd p hp => ?_⟩
  · rw [exec_eq_txRequest, txRequest_held hb _ (Instr.payload_length_le hwf)]
  · have hexec (s : State) : exec (.frame cmd p) s = .refused .payloadTooLong := txRequest_too_long hp cmd s
    refine ⟨hexec s, encodeFrame_too_long hp cmd, if_neg (Nat.not_le.2 hp), fun ts rest ht hprog => ?_⟩
    rw [step_host ht, turnHost_offer (s := s.withTurns ts) hprog]
    obtain ⟨-, h⟩ | ⟨-, h⟩ := hostOffer_cases (.frame cmd p) rest (s.withTurns ts)
    · rw [h, hexec]
    · rw [h, hexec]

/-- Settles O16: the host's turn runs the operation at the head of its program, and a step is the turn that comes next. -/
theorem stepRunsDecodedRequest : Obligations.StepRunsDecodedRequest := by
  refine ⟨fun s ts words more rest i ht hp hd => ?_, fun s ts rest i ht hp => ?_, fun s ht hc => ?_, fun s => step_nil⟩
  · rw [step_host ht, turnHost_send (s := s.withTurns ts) hp, hostSend_ok hd, afterRequest_eq]
    rfl
  · rw [step_host ht, turnHost_offer (s := s.withTurns ts) hp]
    rfl
  · obtain ⟨t, ts, hcycle⟩ := List.exists_cons_of_ne_nil hc
    rw [step_cycle ht hcycle, step_cons (s := { s with turns := s.cycle }) hcycle]
    rfl

/-! ### TXF byte by byte (40_framer_tx.md R105) -/

/-- The transport takes the byte that is offered. -/
theorem turnTakeTx_offer {s : State} {b : Byte} (ho : s.line.isOpen = true) (hb : txOffer s.tx = some b) :
    turnTakeTx s = .next (txEmit b s) := by
  have hi : s.tx.state ≠ .txIdle := fun hi => by simp [txOffer, hi] at hb
  simp [turnTakeTx, ho, hi, hb]

theorem turnTakeTx_idle {s : State} (hi : s.tx.state = .txIdle) : turnTakeTx s = .next s := if_pos (.inr hi)

/-- A transport's turn to take: the byte that TXF offers, and TXF's registers after it. -/
theorem step_takeTx {s : State} {ts : List Turn} {b : Byte} (ht : s.turns = .takeTx :: ts) (ho : s.line.isOpen = true)
    (hb : txOffer s.tx = some b) :
    step s = .next { s with tx := txAdvance b s.tx, turns := ts, out := { s.out with tx := s.out.tx ++ [b] } } := by
  rw [step_cons ht]
  exact turnTakeTx_offer (s := s.withTurns ts) ho hb

/-- Settles O17: in each state the byte is `txOffer`'s and the registers are `txAdvance`'s. -/
theorem transmitterOffersFrameBytes : Obligations.TransmitterOffersFrameBytes := by
  intro s ts ht ho
  have hstep {b : Byte} {t : Txf} (hb : txOffer s.tx = some b) (htx : txAdvance b s.tx = t) :
      step s = .next { s with tx := t, turns := ts, out := { s.out with tx := s.out.tx ++ [b] } } :=
    htx ▸ step_takeTx ht ho hb
  refine ⟨fun h => ?_, fun h => hstep ?_ ?_, fun h => hstep ?_ ?_, fun h => hstep ?_ ?_, fun h => hstep ?_ ?_,
    fun h b hb => hstep ?_ ?_, fun h => hstep ?_ ?_, fun h => hstep ?_ ?_, fun h => hstep ?_ ?_⟩
  · rw [step_cons ht]
    exact turnTakeTx_idle h
  all_goals simp [txOffer, txAdvance, *]

/-! ### Several steps -/

theorem runSteps_zero (s : State) : runSteps 0 s = .next s := rfl

theorem coreRun_succ (M : Host.Core) {s t : M.State} (h : M.step s = .next t) (k : Nat) :
    M.run (k + 1) s = M.run k t := by
  rw [Host.Core.run, h]

theorem coreRun_succ_cases (M : Host.Core) {k : Nat} {s t : M.State} (h : M.run (k + 1) s = .next t) :
    ∃ u, M.step s = .next u ∧ M.run k u = .next t := by
  rw [Host.Core.run] at h
  split at h
  · next u hu => exact ⟨u, hu, h⟩
  · cases h
  · cases h

theorem runSteps_succ {s t : State} (h : step s = .next t) (k : Nat) : runSteps (k + 1) s = runSteps k t :=
  coreRun_succ Sys2Proof.core h k

theorem runSteps_one {s t : State} (h : step s = .next t) : runSteps 1 s = .next t := runSteps_succ h 0

/-- A run goes on from where its first part ended. -/
theorem runSteps_add {k : Nat} {s t : State} (h : runSteps k s = .next t) (l : Nat) :
    runSteps (k + l) s = runSteps l t := by
  induction k generalizing s with
  | zero =>
    cases h
    rw [Nat.zero_add]
  | succ k ih =>
    obtain ⟨u, hstep, hrun⟩ := coreRun_succ_cases Sys2Proof.core h
    rw [Nat.add_right_comm, runSteps_succ hstep, ih hrun]

/-! ### A frame on the wire (40_framer_tx.md R108) -/

/-- TXF offers these bytes one after the other, and then has these registers. -/
inductive Txf.Emits : Txf → List Byte → Txf → Prop where
  | nil (t : Txf) : Txf.Emits t [] t
  | cons {t u : Txf} {b : Byte} {bs : List Byte} (hb : txOffer t = some b) (h : Txf.Emits (txAdvance b t) bs u) :
      Txf.Emits t (b :: bs) u

theorem Txf.Emits.append {t u v : Txf} {bs cs : List Byte} (h : t.Emits bs u) (h' : u.Emits cs v) :
    t.Emits (bs ++ cs) v := by
  induction h with
  | nil => exact h'
  | cons hb _ ih => exact .cons hb (ih h')

/-- One turn of an open transport for each byte puts the bytes on the wire, and changes nothing else. -/
theorem runSteps_emits {t u : Txf} {bs : List Byte} (h : t.Emits bs u) {s : State} {ts : List Turn} (htx : s.tx = t)
    (ho : s.line.isOpen = true) (ht : s.turns = List.replicate bs.length .takeTx ++ ts) :
    runSteps bs.length s = .next { s with tx := u, turns := ts, out := { s.out with tx := s.out.tx ++ bs } } := by
  induction h generalizing s with
  | nil t =>
    subst htx
    obtain rfl : s.turns = ts := by simpa using ht
    simp [runSteps_zero]
  | @cons t u b bs hb h ih =>
    subst htx
    have ht : s.turns = .takeTx :: (List.replicate bs.length .takeTx ++ ts) := ht
    rw [List.length_cons, runSteps_succ (step_takeTx ht ho hb), ih]
    · simp
    · rfl
    · exact ho
    · rfl

/-- The rest of a payload, byte by byte. -/
theorem emits_payload {t : Txf} (hs : t.state = .txPayload) (hl : t.len.toNat = t.pay.length) {rest : List Byte}
    (hrest : t.pay.drop t.idx = rest) (hne : rest ≠ []) :
    t.Emits rest { t with state := .txCsum, idx := t.pay.length, acc := xorAll t.acc rest } := by
  induction rest generalizing t with
  | nil => exact absurd rfl hne
  | cons b rest ih =>
    have hb : txOffer t = some b := by
      have h : (t.pay.drop t.idx)[0]? = some b := by rw [hrest]; rfl
      simpa [txOffer, hs] using h
    have hdrop : t.pay.drop (t.idx + 1) = rest := by rw [← List.drop_drop, hrest]; rfl
    have hidx : t.pay.length = t.idx + 1 + rest.length := by
      have h := congrArg List.length hrest
      simp only [List.length_drop, List.length_cons] at h
      omega
    refine .cons hb ?_
    rcases rest with _ | ⟨c, rest⟩
    · have hadv : txAdvance b t = { t with state := .txCsum, idx := t.pay.length, acc := t.acc ^^^ b } := by
        simp [txAdvance, hs, hl, hidx]
      rw [hadv]
      exact .nil _
    · have hadv : txAdvance b t = { t with state := .txPayload, idx := t.idx + 1, acc := t.acc ^^^ b } := by
        simp [txAdvance, hs, hl, hidx]
      rw [hadv]
      exact ih (t := { t with state := .txPayload, idx := t.idx + 1, acc := t.acc ^^^ b }) rfl hl hdrop (by simp)

/-- From `TxLen` the length byte and the payload; an empty payload goes from `TxLen` to `TxCsum`. -/
theorem emits_len {t : Txf} (hs : t.state = .txLen) (hi : t.idx = 0) (hp : t.pay.length ≤ Config.maxLen)
    (hl : t.len = lenByte t.pay) :
    t.Emits (t.len :: t.pay) { t with state := .txCsum, idx := t.pay.length, acc := xorAll (t.acc ^^^ t.len) t.pay } := by
  have hb : txOffer t = some t.len := by simp [txOffer, hs]
  refine .cons hb ?_
  by_cases hnil : t.pay = []
  · have hadv : txAdvance t.len t = { t with state := .txCsum, acc := t.acc ^^^ t.len } := by
      simp [txAdvance, hs, hl, (lenByte_eq_zero hp).2 hnil]
    have hdone : { t with state := .txCsum, acc := t.acc ^^^ t.len } =
        { t with state := .txCsum, idx := t.pay.length, acc := xorAll (t.acc ^^^ t.len) t.pay } := by
      simp [hnil, hi]
    rw [hadv, ← hdone, hnil]
    exact .nil _
  · have hne : ¬t.len = 0#8 := by rw [hl]; exact mt (lenByte_eq_zero hp).1 hnil
    have hadv : txAdvance t.len t = { t with state := .txPayload, acc := t.acc ^^^ t.len } := by
      simp [txAdvance, hs, hne]
    rw [hadv]
    exact emits_payload (t := { t with state := .txPayload, acc := t.acc ^^^ t.len }) rfl
      (by rw [hl]; exact lenByte_toNat hp) (by simp [hi]) hnil

/-- TXF emits the whole frame of the pair it has latched. -/
theorem txLatch_emits (before : Txf) (cmd : Byte) {p : List Byte} (hp : p.length ≤ Config.maxLen) :
    (txLatch before cmd p).Emits (frameLayout cmd (lenByte p) p)
      { txLatch before cmd p with state := .txIdle, idx := p.length, acc := csum cmd (lenByte p) p } := by
  refine .cons rfl (.cons rfl (.cons rfl ?_))
  exact (emits_len (t := { txLatch before cmd p with state := .txLen, acc := cmd }) rfl rfl hp rfl).append
    (.cons rfl (.cons rfl (.cons rfl (.nil _))))

/-- Settles O18: the latched pair's frame is emitted whole, one byte in each turn. -/
theorem transmitterEmitsEncode : Obligations.TransmitterEmitsEncode := by
  intro s ts before cmd p frame hf ho htx ht
  obtain ⟨hp, rfl⟩ := encodeFrame_eq_some.1 hf
  rw [← frameLayout_length cmd (lenByte p) p] at ht ⊢
  rw [runSteps_emits (txLatch_emits before cmd hp) htx ho ht, htx]

end Sys2Proof.Machine
end

section
/-! What a step can do: the host's moves, and the turn that comes next (10_state.md R21). -/

namespace Sys2Proof.Machine

/-! ### The host's moves -/

/-- Everything the host's turn can do: move on in its program, acquire or release the transport, have a request latched,
begin an attempt, a pack or a scan, or take a record. -/
inductive HostMove (s : State) : State → Prop where
  | control (v : Bool) (h : HostSide) : HostMove s ((s.withLine { s.line with isOpen := v }).withHost h)
  | request (h : HostSide) (cmd : Byte) {p : List Byte} (hi : s.tx.state = .txIdle) (hp : p.length ≤ Config.maxLen) :
      HostMove s ((s.withHost h).withTx (txLatch s.tx cmd p))
  | attempt (h : HostSide) (hr : s.rx.state.resting = true) : HostMove s ((s.withRx (rxBegin s.rx)).withHost h)
  | pack (h : HostSide) (width height : Nat) (hr : s.rle.state = .rlIdle) (hp : s.pack.state = .pkIdle) :
      HostMove s ((packBegin width height s).withHost h)
  | scan (h : HostSide) (hr : s.rle.state = .rlIdle) (hv : s.bmpValid = true) :
      HostMove s ((s.withRle (rleBegin s.rle)).withHost h)
  | take (h : HostSide) : HostMove s ((takeRecord s).withHost h)

section
variable {s t : State} {next rest : List HostOp}

/-- The host changes its own side alone. -/
theorem HostMove.side (s : State) (h : HostSide) : HostMove s (s.withHost h) := .control s.line.isOpen h

theorem HostMove.pop (s : State) (rest : List HostOp) : HostMove s (hostPop rest s) := .side s _

/-- The host waits. -/
theorem HostMove.hold (s : State) : HostMove s s := .side s s.host

theorem hostOffer_move {i : Instr} (h : hostOffer i next s = .next t) : HostMove s t := by
  obtain ⟨hi, he⟩ | ⟨hb, he⟩ := hostOffer_cases i next s
  · rw [he, exec_eq_txRequest] at h
    obtain ⟨hp, ⟨-, rfl⟩ | ⟨hb, -⟩⟩ := txRequest_cases h
    · exact .request _ _ hi hp
    · exact absurd hi hb
  · rw [he, exec_eq_txRequest] at h
    obtain ⟨-, ⟨hi, -⟩ | ⟨-, rfl⟩⟩ := txRequest_cases h
    · exact absurd hi hb
    · exact .hold _

theorem hostSend_move {words : List Byte} (h : hostSend words rest s = .next t) : HostMove s t := by
  unfold hostSend at h
  split at h
  · cases h
  · exact hostOffer_move h

theorem hostTxWait_move : HostMove s (hostTxWait rest s) := by
  obtain ⟨-, h⟩ | ⟨-, h⟩ := hostTxWait_cases rest s
  · rw [h]
    exact .pop s rest
  · rw [h]
    exact .hold s

theorem hostFinish_move : HostMove s (hostFinish rest s) := by
  obtain ⟨-, h⟩ | ⟨-, h⟩ := hostFinish_cases rest s
  · rw [h]
    exact .side s _
  · rw [h]
    exact .hold s

theorem hostRxStart_move : HostMove s (hostRxStart rest s) := by
  unfold hostRxStart
  split_ifs with hr
  · exact .attempt _ hr
  · exact .hold s

theorem hostAwait_move {e : Expect} : HostMove s (hostAwait e rest s) := by
  unfold hostAwait
  split_ifs with hr
  · exact .attempt _ hr.2
  · exact .hold s

theorem hostRead_eq (e : Expect) (payload : List Byte) (s : State) :
    ∃ h, hostRead e payload s = s.withHost h := by
  cases e with
  | any => exact ⟨s.host, rfl⟩
  | ack => exact ⟨_, rfl⟩
  | status => exact ⟨_, rfl⟩

theorem hostAwaiting_move {e : Expect} {seen : Nat} : HostMove s (hostAwaiting e seen rest s) := by
  obtain ⟨-, h⟩ | ⟨_, payload, -, h⟩ | ⟨_, -, -, h⟩ | ⟨_, -, -, h⟩ := hostAwaiting_cases e seen rest s
  · rw [h]
    exact .hold s
  · obtain ⟨side, hread⟩ := hostRead_eq e payload s
    rw [h, hread]
    exact .side s _
  · rw [h]
    exact .pop s rest
  · rw [h]
    exact .side s _

theorem RleState.eq_rlIdle {st : RleState} (h : st ≠ .rlScan) : st = .rlIdle := by
  cases st with
  | rlIdle => rfl
  | rlScan => exact absurd rfl h

theorem hostPackStart_move {width height : Nat} (h : hostPackStart width height next s = .next t) : HostMove s t := by
  unfold hostPackStart at h
  split_ifs at h with hr hp
  · cases h
    exact .pack _ _ _ (RleState.eq_rlIdle hr) hp
  · cases h
    exact .hold _

theorem hostPacking_move {seen : Nat} : HostMove s (hostPacking seen rest s) := by
  unfold hostPacking
  split
  · exact .hold s
  · exact .pop s rest
  · exact .side s _

theorem hostRleStart_move (h : hostRleStart next s = .next t) : HostMove s t := by
  unfold hostRleStart at h
  split_ifs at h with hr hv
  · cases h
    exact .hold _
  · cases h
    exact .scan _ (RleState.eq_rlIdle hr) hv

theorem hostStreaming_move {seen : Nat} : HostMove s (hostStreaming seen rest s) := by
  unfold hostStreaming
  split_ifs
  · exact .pop s rest
  · exact .hold s

theorem hostTakeRecord_move : HostMove s (hostTakeRecord rest s) := by
  unfold hostTakeRecord
  split_ifs
  · exact .hold s
  · exact .take _

/-- The host's turn makes one of its moves. -/
theorem turnHost_move (h : turnHost s = .next t) : HostMove s t := by
  unfold turnHost at h
  split at h
  case h_1 => cases h; exact .hold _
  case h_2 | h_3 => cases h; exact .control _ _
  case h_4 => exact hostSend_move h
  case h_5 => exact hostOffer_move h
  case h_6 => cases h; exact hostTxWait_move
  case h_7 => cases h; exact hostRxStart_move
  case h_8 => cases h; exact hostAwait_move
  case h_9 => cases h; exact hostAwaiting_move
  case h_10 | h_11 => exact hostPackStart_move h
  case h_12 => cases h; exact hostPacking_move
  case h_13 | h_14 => exact hostRleStart_move h
  case h_15 => cases h; exact hostStreaming_move
  case h_16 => cases h; exact hostTakeRecord_move
  case h_17 => cases h; exact .pop _ _
  case h_18 | h_19 => cases h; exact .side s _
  case h_20 => cases h; exact hostFinish_move

end

/-! ### The step -/

/-- A step is the turn that comes next; with none it changes nothing. -/
theorem step_next {s t : State} (h : step s = .next t) :
    (s.nextTurn = none ∧ t = s) ∨ ∃ turn ts, s.nextTurn = some turn ∧ runTurn turn (s.withTurns ts) = .next t := by
  unfold State.nextTurn
  rcases hts : s.turns with _ | ⟨turn, ts⟩
  · rcases hc : s.cycle with _ | ⟨turn, ts⟩
    · rw [step_nil hts hc] at h
      exact .inl ⟨rfl, (Host.Outcome.next.inj h).symm⟩
    · exact .inr ⟨turn, ts, rfl, step_cycle hts hc ▸ h⟩
  · exact .inr ⟨turn, ts, rfl, step_cons hts ▸ h⟩

/-! ### Taking a record leaves the other units alone (43_rle.md R176) -/

section
variable (s : State)

@[simp] theorem takeRecord_tx : (takeRecord s).tx = s.tx := by rw [(takeRecord_spec s).1]
@[simp] theorem takeRecord_rx : (takeRecord s).rx = s.rx := by rw [(takeRecord_spec s).1]
@[simp] theorem takeRecord_pack : (takeRecord s).pack = s.pack := by rw [(takeRecord_spec s).1]
@[simp] theorem takeRecord_bmp : (takeRecord s).bmp = s.bmp := by rw [(takeRecord_spec s).1]
@[simp] theorem takeRecord_bmpValid : (takeRecord s).bmpValid = s.bmpValid := by rw [(takeRecord_spec s).1]
@[simp] theorem takeRecord_recOut : (takeRecord s).recOut = s.recOut.tail := by rw [(takeRecord_spec s).1]
@[simp] theorem takeRecord_line : (takeRecord s).line = s.line := by rw [(takeRecord_spec s).1]
@[simp] theorem takeRecord_pixels : (takeRecord s).pixels = s.pixels := by rw [(takeRecord_spec s).1]
@[simp] theorem takeRecord_host : (takeRecord s).host = s.host := by rw [(takeRecord_spec s).1]
@[simp] theorem takeRecord_par : (takeRecord s).par = s.par := by rw [(takeRecord_spec s).1]

/-- Of the streams only REC and `rle_done` may grow. -/
theorem takeRecord_out : (takeRecord s).out =
    { s.out with records := (takeRecord s).out.records, rleDones := (takeRecord s).out.rleDones } := by
  rcases hr : s.recOut with _ | ⟨record, _ | ⟨x, rest⟩⟩
  · simp [takeRecord, hr]
  · rw [takeRecord_last hr]
    rfl
  · rw [takeRecord_more hr (List.cons_ne_nil _ _)]
    rfl

@[simp] theorem takeRecord_out_tx : (takeRecord s).out.tx = s.out.tx := by rw [takeRecord_out]
@[simp] theorem takeRecord_out_rx : (takeRecord s).out.rx = s.out.rx := by rw [takeRecord_out]
@[simp] theorem takeRecord_out_rxResults : (takeRecord s).out.rxResults = s.out.rxResults := by rw [takeRecord_out]
@[simp] theorem takeRecord_out_packResults : (takeRecord s).out.packResults = s.out.packResults := by
  rw [takeRecord_out]

end

section
variable (width height : Nat) (s : State)

@[simp] theorem packBegin_tx : (packBegin width height s).tx = s.tx := by unfold packBegin; split_ifs <;> rfl
@[simp] theorem packBegin_rx : (packBegin width height s).rx = s.rx := by unfold packBegin; split_ifs <;> rfl
@[simp] theorem packBegin_rle : (packBegin width height s).rle = s.rle := by unfold packBegin; split_ifs <;> rfl
@[simp] theorem packBegin_bmp : (packBegin width height s).bmp = s.bmp := by unfold packBegin; split_ifs <;> rfl
@[simp] theorem packBegin_bmpValid : (packBegin width height s).bmpValid = false := by unfold packBegin; split_ifs <;> rfl
@[simp] theorem packBegin_recOut : (packBegin width height s).recOut = s.recOut := by unfold packBegin; split_ifs <;> rfl
@[simp] theorem packBegin_line : (packBegin width height s).line = s.line := by unfold packBegin; split_ifs <;> rfl

/-- Of the streams only `pack_result` may grow, by an ImageDimensionError. -/
theorem packBegin_out : (packBegin width height s).out = { s.out with packResults :=
    s.out.packResults ++ (if goodSize width height then [] else [.fail .imageDimensionError]) } := by
  unfold packBegin
  split_ifs with h
  · simp
  · rfl

theorem packBegin_pack : (packBegin width height s).pack = if goodSize width height then ⟨.pkFill, 0, 0⟩ else s.pack := by
  unfold packBegin
  split_ifs <;> rfl

end

/-! ### The moves of all agents -/

/-- The state after RXF has taken an item: its registers, and the streams RX, `rx_event` and `rx_result`. -/
def rxTaken (item : RxItem) (s : State) : State :=
  (s.withRx (rxStep item s.rx)).withOut
    { s.out with
      rx := s.out.rx ++ [item]
      rxEvents := s.out.rxEvents ++ rxEvents item s.rx
      rxResults := s.out.rxResults ++ rxOutcome (rxStep item s.rx) }

/-- The store after the pixel of red value `red` at PACK's position. -/
def pixelStore (red : Nat) (s : State) : List Host.Cell :=
  Memory.set s.bmp (bmpAddr s.pack.y (pixelByte s.pack.x))
    (packByte red s.pack.x (Memory.get s.bmp (bmpAddr s.pack.y (pixelByte s.pack.x))))

/-- The state after that pixel, but for the end of the pack. -/
def pixelTaken (red : Nat) (rest : List Nat) (s : State) : State :=
  ((s.withPixels rest).withBmp (pixelStore red s)).withPack (packNext s.pack)

/-- Everything a turn can do, agent by agent. -/
inductive Move (s : State) : Turn → State → Prop where
  | hold {turn : Turn} (ha : turn.arrival = []) : Move s turn s
  | host {t : State} (h : HostMove s t) : Move s .host t
  | transmit {b : Byte} (hb : txOffer s.tx = some b) : Move s .takeTx (txEmit b s)
  | arrive (b : Byte) : Move s (.arrive b) (s.withLine { s.line with fifo := s.line.fifo ++ [b] })
  | deliver {b : Byte} {rest : List Byte} (hr : s.rx.state.resting = false) (hf : s.line.fifo = b :: rest) :
      Move s .deliver (rxTaken (.byte b) (s.withLine { s.line with fifo := rest }))
  | timeout (hr : s.rx.state.resting = false) (hf : s.line.fifo = []) : Move s .timeout (rxTaken .timeout s)
  | pixel {red : Nat} {rest : List Nat} (hs : s.pack.state = .pkFill) (hp : s.pixels = red :: rest)
      (hy : s.pack.y < Config.rows) (hx : pixelByte s.pack.x < Config.rowBytes)
      (hn : (packNext s.pack).state ≠ .pkIdle) : Move s .pixel (pixelTaken red rest s)
  | lastPixel {red : Nat} {rest : List Nat} (hs : s.pack.state = .pkFill) (hp : s.pixels = red :: rest)
      (hy : s.pack.y < Config.rows) (hx : pixelByte s.pack.x < Config.rowBytes)
      (hn : (packNext s.pack).state = .pkIdle) :
      Move s .pixel (packAnswer .ok ((pixelTaken red rest s).withBmpValid true))
  | row (hs : s.rle.state = .rlScan) (ho : s.recOut = []) (hr : s.rle.r ≤ Config.rows)
      (hn : stepRecords s.bmp s.rle = []) : Move s .scan (rleEndStep s)
  | offer (hs : s.rle.state = .rlScan) (ho : s.recOut = []) (hr : s.rle.r ≤ Config.rows) :
      Move s .scan (s.withRecOut (stepRecords s.bmp s.rle))
  | ser {record : Record} {rest : List Record} (hr : s.recOut = record :: rest) (hi : s.tx.state = .txIdle)
      (hp : (serialise record).2.length ≤ Config.maxLen) :
      Move s .ser ((takeRecord s).withTx (txLatch s.tx (serialise record).1 (serialise record).2))
  | powerOn : Move s .powerOn (turnPowerOn s)

section
variable {s t : State}

theorem turnDeliver_move (h : turnDeliver s = .next t) : Move s .deliver t := by
  obtain rfl | ⟨hr, b, rest, hf, h⟩ := turnDeliver_cases h
  · exact .hold rfl
  · unfold rxTake at h
    rw [if_neg (by simp [hr])] at h
    split_ifs at h
    cases h
    exact .deliver hr hf

theorem turnTimeout_move (h : turnTimeout s = .next t) : Move s .timeout t := by
  obtain rfl | ⟨hr, hf, h⟩ := turnTimeout_cases h
  · exact .hold rfl
  · unfold rxTake at h
    rw [if_neg (by simp [hr])] at h
    split_ifs at h
    cases h
    exact .timeout hr hf

theorem turnPixel_move (h : turnPixel s = .next t) : Move s .pixel t := by
  obtain rfl | ⟨hs, red, rest, hp, h⟩ := turnPixel_cases h
  · exact .hold rfl
  · obtain ⟨hy, hx, m, rfl, ⟨hn, rfl⟩ | ⟨hn, rfl⟩⟩ := packPixel_cases h
    · exact .lastPixel hs hp hy hx hn
    · exact .pixel hs hp hy hx hn

theorem turnScan_move (h : turnScan s = .next t) : Move s .scan t := by
  obtain rfl | ⟨hs, ho, hr, ⟨hn, rfl⟩ | ⟨-, rfl⟩⟩ := turnScan_cases h
  · exact .hold rfl
  · exact .row hs ho hr hn
  · exact .offer hs ho hr

theorem turnSer_move (h : turnSer s = .next t) : Move s .ser t := by
  obtain rfl | ⟨record, rest, hr, hi, h⟩ := turnSer_cases h
  · exact .hold rfl
  · obtain ⟨hp, ⟨-, rfl⟩ | ⟨hb, -⟩⟩ := txRequest_cases h
    · rw [takeRecord_tx]
      exact .ser hr hi hp
    · exact absurd ((takeRecord_tx s).symm ▸ hi) hb

/-- A turn that answers a next state has made one of its agent's moves. -/
theorem runTurn_move {turn : Turn} (h : runTurn turn s = .next t) : Move s turn t := by
  cases turn with
  | host => exact .host (turnHost_move h)
  | takeTx =>
    obtain rfl | ⟨-, b, hb, rfl⟩ := turnTakeTx_cases h
    · exact .hold rfl
    · exact .transmit hb
  | arrive b =>
    rw [turnArrive_cases h]
    exact .arrive b
  | deliver => exact turnDeliver_move h
  | timeout => exact turnTimeout_move h
  | pixel => exact turnPixel_move h
  | scan => exact turnScan_move h
  | ser => exact turnSer_move h
  | powerOn =>
    cases h
    exact .powerOn

/-- A step is a move of the agent whose turn it is; with no turn it changes nothing. -/
theorem step_move (h : step s = .next t) :
    (s.nextTurn = none ∧ t = s) ∨ ∃ turn ts, s.nextTurn = some turn ∧ Move (s.withTurns ts) turn t := by
  obtain h | ⟨turn, ts, hnext, h⟩ := step_next h
  · exact .inl h
  · exact .inr ⟨turn, ts, hnext, runTurn_move h⟩

theorem step_cons_move {turn : Turn} {ts : List Turn} (hts : s.turns = turn :: ts) (h : step s = .next t) :
    Move (s.withTurns ts) turn t := runTurn_move (step_cons hts ▸ h)

end

end Sys2Proof.Machine
end

section
/-! The family of 20_memory.md: what crosses from one unit to another, turn by turn: the wire (R57, R60), the received bytes
(R58), the records (43_rle.md R174), and nothing else (10_state.md R20). -/

namespace Sys2Proof.Machine

/-! ### TXF and the wire -/

/-- What one move may do to TXF and stream TX: nothing, latch a request in `TxIdle`, or transfer the offered byte. -/
inductive TxMove (t : Txf) (wire : List Byte) : Txf → List Byte → Prop where
  | stay : TxMove t wire t wire
  | latch (hi : t.state = .txIdle) (cmd : Byte) {p : List Byte} (hp : p.length ≤ Config.maxLen) :
      TxMove t wire (txLatch t cmd p) wire
  | emit {b : Byte} (hb : txOffer t = some b) : TxMove t wire (txAdvance b t) (wire ++ [b])

section
variable {s t : State}

theorem HostMove.txMove (h : HostMove s t) : TxMove s.tx s.out.tx t.tx t.out.tx := by
  cases h with
  | control => exact .stay
  | request _ cmd hi hp => exact .latch hi cmd hp
  | attempt => exact .stay
  | pack _ width height =>
    rw [State.withHost_tx, State.withHost_out, packBegin_tx, packBegin_out]
    exact .stay
  | scan => exact .stay
  | take =>
    rw [State.withHost_tx, State.withHost_out, takeRecord_tx, takeRecord_out_tx]
    exact .stay

theorem Move.txMove {turn : Turn} (h : Move s turn t) (hne : turn ≠ .powerOn) : TxMove s.tx s.out.tx t.tx t.out.tx := by
  cases h with
  | host h => exact h.txMove
  | transmit hb => exact .emit hb
  | @ser record rest hr hi hp =>
    rw [State.withTx_tx, State.withTx_out, takeRecord_out_tx]
    exact .latch hi _ hp
  | powerOn => exact absurd rfl hne
  | hold | arrive | deliver | timeout | pixel | lastPixel | row | offer => exact .stay

/-- Each of these moves keeps the wire whole: a latched frame has nothing sent, and the last trailer byte completes one. -/
theorem TxMove.wireWhole (h : TxMove s.tx s.out.tx t.tx t.out.tx) (hs : s.WireWhole) : t.WireWhole := by
  obtain ⟨hinv, frames, wire, hframes, hwire⟩ := hs
  unfold State.WireWhole
  generalize t.tx = u, t.out.tx = wire' at h
  cases h with
  | stay => exact ⟨hinv, frames, wire, hframes, hwire⟩
  | latch hi cmd hp =>
    have hsent : s.tx.sent = [] := by simp [Txf.sent, hi]
    exact ⟨txLatch_inv s.tx cmd hp, frames, wire, hframes, by rw [hwire, hsent]; rfl⟩
  | @emit b hb =>
    refine ⟨txAdvance_inv hinv hb, ?_⟩
    obtain ⟨-, hsent⟩ | ⟨-, hsent, hframe⟩ := txAdvance_sent hinv hb
    · exact ⟨frames, wire, hframes, by rw [hsent, hwire, List.append_assoc]⟩
    · exact ⟨frames ++ [(s.tx.cmd, s.tx.pay)], wire ++ (s.tx.sent ++ [b]), encodeFrames_snoc hframes hframe,
        by rw [hsent, hwire, List.append_nil, List.append_assoc]⟩

/-- Settles O19: every agent but a reset makes one of TXF's three moves. -/
theorem wireCarriesWholeFrames : Obligations.WireCarriesWholeFrames := by
  intro s t hs hne h
  obtain ⟨-, rfl⟩ | ⟨turn, ts, hnext, h⟩ := step_move h
  · exact hs
  · exact (h.txMove (fun he => hne (he ▸ hnext))).wireWhole hs

/-! ### The received bytes -/

/-- The bytes RXF has taken, then those waiting for it. -/
def State.received (s : State) : List Byte := itemBytes s.out.rx ++ s.line.fifo

theorem HostMove.received (h : HostMove s t) : t.received = s.received := by
  cases h with
  | pack _ width height => simp [State.received, packBegin_out]
  | take => simp [State.received]
  | control | request | attempt | scan => rfl

theorem Move.received {turn : Turn} (h : Move s turn t) : t.received = s.received ++ turn.arrival := by
  cases h with
  | host h => simp [Turn.arrival, h.received]
  | arrive b => simp [State.received, Turn.arrival]
  | deliver hr hf => simp [State.received, Turn.arrival, rxTaken, itemBytes, hf]
  | timeout hr hf => simp [State.received, Turn.arrival, rxTaken, itemBytes]
  | ser => simp [State.received, Turn.arrival]
  | hold ha => rw [ha, List.append_nil]
  | transmit | pixel | lastPixel | row | offer | powerOn => exact (List.append_nil _).symm

/-- Settles O34: a delivery moves the oldest waiting byte to the end of the stream, and a timeout is no byte. -/
theorem receivedBytesAreNeverLost : Obligations.ReceivedBytesAreNeverLost := by
  intro s t turn ts hts _ h
  exact (step_cons_move hts h).received

/-! ### The records -/

theorem Move.records {turn : Turn} (h : Move s turn t) (hne : turn ≠ .powerOn) : turn ≠ .scan ∨ s.recOut ≠ [] →
    t.out.records ++ t.recOut = s.out.records ++ s.recOut := by
  have htake := (takeRecord_spec s).2.1
  cases h with
  | host h =>
    intro _
    cases h with
    | pack => simp [packBegin_out]
    | take => simp [htake]
    | control | request | attempt | scan => rfl
  | row | offer => simp [*]
  | ser hr => simp [htake]
  | powerOn => exact absurd rfl hne
  | hold | transmit | arrive | deliver | timeout | pixel | lastPixel => exact fun _ => rfl

/-- Settles O47: a taken record moves from `rec_out` to the stream REC, and a scan turn offers records only when it holds
none. -/
theorem recordsAreConsumedOnce : Obligations.RecordsAreConsumedOnce := by
  intro s t turn ts hts hne h
  have hmove := step_cons_move hts h
  refine ⟨hmove.records hne, ?_⟩
  rintro rfl
  cases hmove with
  | hold | row | offer => rfl

/-! ### What each agent leaves alone -/

/-- Only PACK and a reset write the store. -/
theorem Move.bmp {turn : Turn} (h : Move s turn t) (hp : turn ≠ .pixel) (hr : turn ≠ .powerOn) : t.bmp = s.bmp := by
  cases h with
  | host h =>
    cases h with
    | pack => simp
    | take => simp
    | control | request | attempt | scan => rfl
  | ser => simp
  | pixel | lastPixel => exact absurd rfl hp
  | powerOn => exact absurd rfl hr
  | hold | transmit | arrive | deliver | timeout | row | offer => rfl

/-- Settles O60, by the moves of each agent. -/
theorem unitsShareNothing : Obligations.UnitsShareNothing := by
  intro s t turn ts hts h
  have hmove := step_cons_move hts h
  refine ⟨?_, ?_, ?_, ?_, ?_, hmove.bmp⟩
  · rintro rfl
    cases hmove with
    | hold | transmit => exact ⟨rfl, rfl, rfl, rfl, rfl⟩
  · rintro (rfl | rfl)
    · cases hmove with
      | hold | deliver => exact ⟨rfl, rfl, rfl, rfl, rfl⟩
    · cases hmove with
      | hold | timeout => exact ⟨rfl, rfl, rfl, rfl, rfl⟩
  · rintro rfl
    cases hmove with
    | hold | pixel | lastPixel => exact ⟨rfl, rfl, rfl, rfl, rfl, rfl⟩
  · rintro rfl
    cases hmove with
    | hold | row | offer => exact ⟨rfl, rfl, rfl, rfl, rfl⟩
  · rintro rfl
    cases hmove with
    | hold => exact ⟨rfl, rfl, rfl, rfl, fun _ => rfl⟩
    | ser hr hi =>
      refine ⟨by simp, by simp, by simp, by simp, ?_⟩
      rintro (hb | hlen)
      · exact absurd hi hb
      · exact (takeRecord_spec (s.withTurns ts)).2.2.1 hlen

end

end Sys2Proof.Machine
end

section
/-! The machine: the reset (10_state.md R36, 70_reset_and_hazards.md R265), the invariant, and no fault (20_memory.md R50). -/

namespace Sys2Proof.Machine

/-! ### The reset -/

section
variable {s : State}

theorem turnDeliver_resting (h : s.rx.state.resting = true) : turnDeliver s = .next s := if_pos (.inr h)

theorem turnTimeout_resting (h : s.rx.state.resting = true) : turnTimeout s = .next s := if_pos (.inr h)

/-- Outside `PkFill`, or with no pixel to deliver, the image source waits. -/
theorem turnPixel_hold (h : s.pack.state = .pkIdle ∨ s.pixels = []) : turnPixel s = .next s := by
  unfold turnPixel
  split
  · next hs hp => simp [hs, hp] at h
  · rfl

end

/-- Settles O56: in the reset state every turn finds its unit idle, and a power-on turn writes the reset values. -/
theorem powerOnResetsUnits : Obligations.PowerOnResetsUnits := by
  refine ⟨⟨rfl, rfl, rfl, rfl, rfl, rfl, rfl, step_nil rfl rfl⟩, fun turn ts cycle line pixels par hmem => ?_,
    fun s ts hts => ⟨_, step_cons hts, rfl, rfl, rfl, rfl, rfl, rfl, rfl, rfl, rfl, rfl, rfl, rfl, rfl⟩⟩
  rw [step_cons (t := turn) (ts := ts) rfl]
  simp only [List.mem_cons, List.not_mem_nil, or_false] at hmem
  obtain rfl | rfl | rfl | rfl | rfl | rfl | rfl := hmem
  · exact turnTakeTx_idle rfl
  · exact turnDeliver_resting rfl
  · exact turnTimeout_resting rfl
  · have hpixel (s : State) (h : s.pack.state = .pkIdle) : runTurn .pixel s = .next s := turnPixel_hold (.inl h)
    exact hpixel _ rfl
  · rfl
  · rfl
  · rfl

/-- The invariant of the reset state, whatever the channels of results have carried. -/
theorem turnPowerOn_inv {s : State} (hrx : ∀ r ∈ s.out.rxResults, r.wf = true)
    (hpack : ∀ r ∈ s.out.packResults, r.wf = true) : (turnPowerOn s).Inv where
  tx := trivial
  rx := ⟨List.length_replicate, rfl⟩
  pack := fun h => nomatch h
  rle := fun h => nomatch h
  bmp := rfl
  scan := fun h => nomatch h
  fill := fun h => nomatch h
  offer := fun _ => rfl
  held := List.nil_suffix
  offered := ⟨Nat.zero_le 2, fun _ h => nomatch h⟩
  rxResults := hrx
  packResults := hpack

/-- Settles O57: every unit holds its reset values, and nothing has been sent. -/
theorem resetMeetsInvariant : Obligations.ResetMeetsInvariant :=
  ⟨turnPowerOn_inv (s := State.reset) (fun _ h => nomatch h) (fun _ h => nomatch h), trivial, [], [], rfl, rfl⟩

/-! ### The invariant, move by move -/

section
variable {s t : State}

theorem State.Inv.withTx (hs : s.Inv) {v : Txf} (hv : v.Inv) : (s.withTx v).Inv := { hs with tx := hv }

theorem State.Inv.withRx (hs : s.Inv) {v : Rxf} (hv : v.Inv) : (s.withRx v).Inv := { hs with rx := hv }

/-- Nothing the host keeps on its own side is in the invariant. -/
theorem State.Inv.withHost (hs : s.Inv) (h : HostSide) : (s.withHost h).Inv := { hs with }

theorem State.Inv.withLine (hs : s.Inv) (v : Transport) : (s.withLine v).Inv := { hs with }

/-- While PACK fills RLE is idle and offers nothing (20_memory.md R65). -/
theorem State.Inv.rle_idle (hs : s.Inv) (hp : s.pack.state = .pkFill) : s.rle.state = .rlIdle :=
  RleState.eq_rlIdle fun h => Bool.false_ne_true ((hs.fill hp).symm.trans (hs.scan h))

theorem rleAfterStep_scan {m : List Host.Cell} {r : Rle} (h : (rleAfterStep m r).state = .rlScan) :
    r.state = .rlScan := by
  by_contra hn
  have hi := RleState.eq_rlIdle hn
  simp [rleAfterStep, hi] at h

/-- The end of RLE's step, with no record held. -/
theorem rleEndStep_inv (hs : s.Inv) (ho : s.recOut = []) : (rleEndStep s).Inv where
  tx := hs.tx
  rx := hs.rx
  pack := hs.pack
  rle := rleAfterStep_inv hs.rle
  bmp := hs.bmp
  scan h := hs.scan (rleAfterStep_scan h)
  fill := hs.fill
  offer _ := ho
  held := by
    rw [rleEndStep_recOut, ho]
    exact List.nil_suffix
  offered := hs.offered
  rxResults := hs.rxResults
  packResults := hs.packResults

/-- The invariant after the first of the offered records has gone and the others are still offered. -/
theorem State.Inv.withRecOut_tail (hs : s.Inv) (hr : s.rle.state = .rlScan) {o : Streams}
    (hrx : o.rxResults = s.out.rxResults) (hpk : o.packResults = s.out.packResults) :
    ((s.withRecOut s.recOut.tail).withOut o).Inv :=
  { hs with
    offer := fun h => nomatch h.symm.trans hr
    held := (List.tail_suffix _).trans hs.held
    offered := ⟨by
        have := hs.offered.1
        rw [State.withOut_recOut, State.withRecOut_recOut, List.length_tail]
        omega,
      fun x hx => hs.offered.2 x (List.mem_of_mem_tail hx)⟩
    rxResults := fun x hx => hs.rxResults x (hrx ▸ hx)
    packResults := fun x hx => hs.packResults x (hpk ▸ hx) }

theorem takeRecord_inv (hs : s.Inv) : (takeRecord s).Inv := by
  have hscan : s.recOut ≠ [] → s.rle.state = .rlScan := fun hne => by
    by_contra hn
    exact hne (hs.offer (RleState.eq_rlIdle hn))
  rcases hr : s.recOut with _ | ⟨record, _ | ⟨x, rest⟩⟩
  · have h : takeRecord s = s := by simp [takeRecord, hr]
    rw [h]
    exact hs
  · have htail : [] = s.recOut.tail := by rw [hr]; rfl
    rw [takeRecord_last hr, htail]
    refine rleEndStep_inv (hs.withRecOut_tail (hscan ?_) rfl rfl) htail.symm
    simp [hr]
  · have htail : x :: rest = s.recOut.tail := by rw [hr]; rfl
    rw [takeRecord_more hr (List.cons_ne_nil _ _), htail]
    refine hs.withRecOut_tail (hscan ?_) rfl rfl
    simp [hr]

theorem packBegin_inv (hs : s.Inv) (hr : s.rle.state = .rlIdle) (width height : Nat) : (packBegin width height s).Inv := by
  unfold packBegin
  split_ifs with hg
  · exact { hs with
      pack := fun _ => ⟨Nat.succ_pos _, Nat.succ_pos _⟩
      scan := fun h => nomatch h.symm.trans hr
      fill := fun _ => rfl }
  · exact { hs with
      scan := fun h => nomatch h.symm.trans hr
      fill := fun _ => rfl
      packResults := fun x hx => by
        obtain hx | hx := List.mem_append.1 hx
        · exact hs.packResults x hx
        · rw [List.mem_singleton.1 hx]
          rfl }

theorem rleBegin_state_inv (hs : s.Inv) (hr : s.rle.state = .rlIdle) (hv : s.bmpValid = true) :
    (s.withRle (rleBegin s.rle)).Inv :=
  { hs with
    rle := rleBegin_inv s.rle
    scan := fun _ => hv
    offer := fun h => nomatch h
    held := by
      rw [State.withRle_recOut, hs.offer hr]
      exact List.nil_suffix }

theorem HostMove.inv (h : HostMove s t) (hs : s.Inv) : t.Inv := by
  cases h with
  | control v h => exact (hs.withLine _).withHost h
  | request h cmd hi hp => exact (hs.withHost h).withTx (txLatch_inv s.tx cmd hp)
  | attempt h hr => exact (hs.withRx (rxBegin_inv hs.rx)).withHost h
  | pack h width height hr hp => exact (packBegin_inv hs hr width height).withHost h
  | scan h hr hv => exact (rleBegin_state_inv hs hr hv).withHost h
  | take h => exact (takeRecord_inv hs).withHost h

theorem rxTaken_inv (hs : s.Inv) (item : RxItem) : (rxTaken item s).Inv :=
  { hs with
    rx := rxStep_inv hs.rx item
    rxResults := fun x hx => by
      obtain hx | hx := List.mem_append.1 hx
      · exact hs.rxResults x hx
      · exact rxOutcome_wf (rxStep_inv hs.rx item) x hx }

theorem pixelTaken_inv (hs : s.Inv) (hp : s.pack.state = .pkFill) (hx : pixelByte s.pack.x < Config.rowBytes) (red : Nat)
    (rest : List Nat) : (pixelTaken red rest s).Inv :=
  { hs with
    pack := packNext_inv (hs.pack hp)
    bmp := Memory.set_wf hs.bmp (bmpAddr_lt (hs.pack hp).2 hx) _
    fill := fun _ => hs.fill hp
    held := by
      show s.recOut <:+ _
      rw [hs.offer (hs.rle_idle hp)]
      exact List.nil_suffix }

theorem Move.inv {turn : Turn} (h : Move s turn t) (hs : s.Inv) : t.Inv := by
  cases h with
  | hold => exact hs
  | host h => exact h.inv hs
  | transmit hb => exact { hs with tx := txAdvance_inv hs.tx hb }
  | arrive => exact hs.withLine _
  | deliver => exact rxTaken_inv (hs.withLine _) _
  | timeout => exact rxTaken_inv hs _
  | pixel hp _ _ hx _ => exact pixelTaken_inv hs hp hx _ _
  | @lastPixel red rest hp _ _ hx hn =>
    have h := pixelTaken_inv hs hp hx red rest
    exact { h with
      scan := fun _ => rfl
      fill := fun hf => nomatch hf.symm.trans hn
      packResults := fun x hx => by
        obtain hx | hx := List.mem_append.1 hx
        · exact hs.packResults x hx
        · rw [List.mem_singleton.1 hx]
          rfl }
  | row _ ho => exact rleEndStep_inv hs ho
  | offer hr =>
    exact { hs with
      offer := fun h => nomatch h.symm.trans hr
      held := List.suffix_rfl
      offered := stepRecords_wf hs.rle hr }
  | ser hr hi hp => exact (takeRecord_inv hs).withTx (txLatch_inv s.tx _ hp)
  | powerOn => exact turnPowerOn_inv hs.rxResults hs.packResults

theorem State.Inv.withTurns (hs : s.Inv) (ts : List Turn) : (s.withTurns ts).Inv := { hs with }

/-- Settles O58: every move of every agent keeps the invariant. -/
theorem stepKeepsInvariant : Obligations.StepKeepsInvariant := by
  intro s t hs h
  obtain ⟨-, rfl⟩ | ⟨turn, ts, -, h⟩ := step_move h
  · exact hs
  · exact h.inv (hs.withTurns ts)

/-! ### No fault -/

theorem exec_not_fault (i : Instr) (s : State) (f : Fault) : exec i s ≠ .fault f := by
  rw [exec_eq_txRequest]
  exact txRequest_not_fault _ _ s f

theorem hostOffer_not_fault (i : Instr) (next : List HostOp) (s : State) (f : Fault) : hostOffer i next s ≠ .fault f := by
  obtain ⟨-, h⟩ | ⟨-, h⟩ := hostOffer_cases i next s
  · exact h ▸ exec_not_fault i _ f
  · exact h ▸ exec_not_fault i _ f

theorem hostSend_not_fault (words : List Byte) (rest : List HostOp) (s : State) (f : Fault) :
    hostSend words rest s ≠ .fault f := by
  unfold hostSend
  split
  · simp
  · exact hostOffer_not_fault _ _ s f

theorem hostPackStart_not_fault (width height : Nat) (next : List HostOp) (s : State) (f : Fault) :
    hostPackStart width height next s ≠ .fault f := by
  unfold hostPackStart
  split_ifs <;> simp

theorem hostRleStart_not_fault (next : List HostOp) (s : State) (f : Fault) : hostRleStart next s ≠ .fault f := by
  unfold hostRleStart
  split_ifs <;> simp

/-- The host forms no address. -/
theorem turnHost_not_fault (s : State) (f : Fault) : turnHost s ≠ .fault f := by
  unfold turnHost
  split
  case h_4 => exact hostSend_not_fault _ _ s f
  case h_5 => exact hostOffer_not_fault _ _ s f
  case h_10 | h_11 => exact hostPackStart_not_fault _ _ _ s f
  case h_13 | h_14 => exact hostRleStart_not_fault _ s f
  all_goals simp

/-- TXF has a payload byte at its index (10_state.md R28). -/
theorem turnTakeTx_not_fault (hs : s.Inv) (f : Fault) : turnTakeTx s ≠ .fault f := by
  unfold turnTakeTx
  split_ifs with hi
  · simp
  · obtain ⟨b, hb⟩ := txOffer_of_inv hs.tx (fun h => hi (.inr h))
    simp [hb]

/-- RXF's count is inside the buffer (20_memory.md R51). -/
theorem rxTake_not_fault (hs : s.Inv) (item : RxItem) (f : Fault) : rxTake item s ≠ .fault f := by
  unfold rxTake
  split_ifs with hr hc
  · simp
  · exact absurd (Rxf.cnt_lt hs.rx hc.1) (Nat.not_lt.2 hc.2.2)
  · simp

theorem turnDeliver_not_fault (hs : s.Inv) (f : Fault) : turnDeliver s ≠ .fault f := by
  unfold turnDeliver
  split_ifs
  · simp
  · split
    · simp
    · exact rxTake_not_fault (hs.withLine _) _ f

theorem turnTimeout_not_fault (hs : s.Inv) (f : Fault) : turnTimeout s ≠ .fault f := by
  unfold turnTimeout
  split_ifs
  · simp
  · split
    · exact rxTake_not_fault hs _ f
    · simp

theorem turnArrive_not_fault (b : Byte) (s : State) (f : Fault) : turnArrive b s ≠ .fault f := by
  unfold turnArrive
  split
  · simp
  · split_ifs <;> simp

theorem bmpRead_inside {y i : Nat} (hy : y < Config.rows) (hi : i < Config.rowBytes) (s : State) :
    bmpRead s y i = some (Memory.get s.bmp (bmpAddr y i)) := if_pos ⟨hy, hi⟩

theorem bmpWrite_inside {y i : Nat} (hy : y < Config.rows) (hi : i < Config.rowBytes) (v : Byte) (s : State) :
    bmpWrite s y i v = some (s.withBmp (Memory.set s.bmp (bmpAddr y i) v)) := if_pos ⟨hy, hi⟩

/-- In `PkFill`, inside the image, a pixel is taken; the last one ends the pack. -/
theorem turnPixel_fill {red : Nat} {rest : List Nat} (hp : s.pack.state = .pkFill) (hx : s.pack.x < Config.cols)
    (hy : s.pack.y < Config.rows) (hpix : s.pixels = red :: rest) :
    turnPixel s = .next (if (packNext s.pack).state = .pkIdle
      then packAnswer .ok ((pixelTaken red rest s).withBmpValid true) else pixelTaken red rest s) := by
  have hbyte : pixelByte s.pack.x < Config.rowBytes := by
    simp only [pixelByte, Config.cols, Config.rowBytes] at *
    omega
  simp only [turnPixel, hp, hpix, packPixel, State.withPixels_pack, bmpRead_inside hy hbyte, bmpWrite_inside hy hbyte]
  exact (apply_ite Host.Outcome.next _ _ _).symm

/-- PACK's position is inside the image, so its byte is inside the store (20_memory.md R50). -/
theorem turnPixel_not_fault (hs : s.Inv) (f : Fault) : turnPixel s ≠ .fault f := by
  by_cases h : s.pack.state = .pkIdle ∨ s.pixels = []
  · simp [turnPixel_hold h]
  · obtain ⟨hp, hne⟩ := not_or.1 h
    have hp : s.pack.state = .pkFill := by cases hst : s.pack.state <;> simp_all
    obtain ⟨red, rest, hpix⟩ := List.exists_cons_of_ne_nil hne
    simp [turnPixel_fill hp (hs.pack hp).1 (hs.pack hp).2 hpix]

/-- RLE's row is at most 240. -/
theorem turnScan_not_fault (hs : s.Inv) (f : Fault) : turnScan s ≠ .fault f := by
  unfold turnScan
  split
  · simp
  · next hr =>
    have hle := (hs.rle hr).1
    split_ifs with h1 h2
    · simp
    · exact absurd hle (Nat.not_le.2 h2)
    · simp
    · simp

theorem turnSer_not_fault (s : State) (f : Fault) : turnSer s ≠ .fault f := by
  unfold turnSer
  split
  · simp
  · split_ifs
    · exact txRequest_not_fault _ _ _ f
    · simp

theorem runTurn_not_fault (hs : s.Inv) (turn : Turn) (f : Fault) : runTurn turn s ≠ .fault f := by
  cases turn with
  | host => exact turnHost_not_fault s f
  | takeTx => exact turnTakeTx_not_fault hs f
  | arrive b => exact turnArrive_not_fault b s f
  | deliver => exact turnDeliver_not_fault hs f
  | timeout => exact turnTimeout_not_fault hs f
  | pixel => exact turnPixel_not_fault hs f
  | scan => exact turnScan_not_fault hs f
  | ser => exact turnSer_not_fault s f
  | powerOn => simp [runTurn]

/-- Settles O59: no agent's turn faults in the invariant. -/
theorem noStepFromInvariantFaults : Obligations.NoStepFromInvariantFaults := by
  intro s f hs
  obtain h | ⟨turn, ts, h⟩ := step_cases s
  · simp [h]
  · rw [h]
    exact runTurn_not_fault (hs.withTurns ts) turn f

end

end Sys2Proof.Machine
end

section
/-! The family of 41_framer_rx.md: the transport's deliveries, whole attempts, noise, and the end of an attempt. -/

namespace Sys2Proof.Machine

/-! ### The step's function in `Started` and `ReadLen` (R120, R122) -/

/-- Settles O21: the branches of `rxStarted` differ in `rx.state` alone, and the second one emits the pulse. -/
theorem startedResynchronises : Obligations.StartedResynchronises := by
  intro r b h
  rw [rxStep_byte_of_started b h]
  refine ⟨?_, by simp only [rxEvents, h]⟩
  unfold rxStarted
  split_ifs
  · rfl
  · rfl

/-- Settles O23: the step in `ReadLen` is `rxReadLen`. -/
theorem readLenTakesLength : Obligations.ReadLenTakesLength := fun _ b h => rxStep_byte_of_readLen b h

/-! ### The transport's deliveries (R116, R128) -/

section
variable {s : State}

theorem resting_eq_false {st : RxState} (h : st.active = true) : st.resting = false := by
  simpa [RxState.active] using h

theorem rxTake_active {item : RxItem} (ha : s.rx.state.resting = false)
    (hc : s.rx.state = .readPayload → item ≠ .timeout → s.rx.cnt < Config.maxLen) :
    rxTake item s = .next (rxTaken item s) := by
  have hfault : ¬(s.rx.state = .readPayload ∧ item ≠ .timeout ∧ Config.maxLen ≤ s.rx.cnt) :=
    fun ⟨h1, h2, h3⟩ => Nat.not_lt.2 h3 (hc h1 h2)
  rw [rxTake, if_neg (by simp [ha]), if_neg hfault]
  rfl

theorem turnDeliver_active {b : Byte} {rest : List Byte} (ho : s.line.isOpen = true) (ha : s.rx.state.resting = false)
    (hf : s.line.fifo = b :: rest) (hc : s.rx.state = .readPayload → s.rx.cnt < Config.maxLen) :
    turnDeliver s = .next (rxTaken (.byte b) (s.withLine { s.line with fifo := rest })) := by
  simp only [turnDeliver, ho, ha, hf]
  exact rxTake_active ha (fun h _ => hc h)

theorem turnTimeout_active (ho : s.line.isOpen = true) (ha : s.rx.state.resting = false) (hf : s.line.fifo = []) :
    turnTimeout s = .next (rxTaken .timeout s) := by
  simp only [turnTimeout, ho, ha, hf]
  exact rxTake_active ha (fun _ h => absurd rfl h)

/-- With a byte waiting no timeout is delivered. -/
theorem turnTimeout_waiting (hf : s.line.fifo ≠ []) : turnTimeout s = .next s := by
  unfold turnTimeout
  split_ifs
  · rfl
  · split
    · contradiction
    · rfl

theorem rxStep_timeout {r : Rxf} (h : r.state.resting = false) : rxStep .timeout r = rxFail .transportTimeout r := by
  cases hs : r.state <;> simp_all [rxStep, RxState.resting]

theorem rxEvents_timeout (r : Rxf) : rxEvents .timeout r = [] := by
  unfold rxEvents
  split
  · contradiction
  · rfl

end

/-- Settles O26: with the transport open, a byte waiting and RXF active, the turn takes that byte. -/
theorem deliveryTakesOneByte : Obligations.DeliveryTakesOneByte := by
  intro s ts b rest hts ho hf ha hc
  rw [step_cons hts]
  exact turnDeliver_active (s := s.withTurns ts) ho (resting_eq_false ha) hf hc

/-- Settles O27: an active state answers a timeout with its failure, and a waiting byte keeps the timeout off. -/
theorem timeoutFailsAttempt : Obligations.TimeoutFailsAttempt := by
  intro s ts hts ho ha
  have hr := resting_eq_false ha
  rw [step_cons hts]
  refine ⟨fun hf => ?_, fun hf => turnTimeout_waiting (s := s.withTurns ts) hf⟩
  refine (turnTimeout_active (s := s.withTurns ts) ho hr hf).trans ?_
  simp only [rxTaken, State.withTurns_rx, State.withTurns_out, rxStep_timeout hr, rxEvents_timeout, List.append_nil]
  rfl

/-- Settles O28: the transport's turns look at the state first, and so does the offer of `rx_start`. -/
theorem attemptBeginsOnlyFromRest : Obligations.AttemptBeginsOnlyFromRest := by
  intro s ts
  refine ⟨fun hr hts => ?_, fun rest hts hp => ?_⟩
  · obtain hts | hts := hts
    · rw [step_cons hts]
      exact turnDeliver_resting (s := s.withTurns ts) hr
    · rw [step_cons hts]
      exact turnTimeout_resting (s := s.withTurns ts) hr
  · have hturn : turnHost (s.withTurns ts) = .next (hostRxStart rest (s.withTurns ts)) := by
      simp only [turnHost, State.withTurns_host, hp]
    rw [step_host hts, hturn]
    exact apply_ite Host.Outcome.next _ _ _

/-! ### Noise (R131) -/

/-- Settles O30, by the recursion of `cleanNoise`: each byte, or each 0x55 with the byte after it, leads back to `Idle`. -/
theorem cleanNoiseIsIgnored : Obligations.CleanNoiseIsIgnored := by
  intro r noise items hr hn
  have hself : { r with state := .idle } = r := by rw [← hr]
  have hidle {b : Byte} (hb : b ≠ Config.pre) : rxStep (.byte b) r = r := by
    rw [rxStep_byte_of_idle b hr, rxIdle, if_neg hb, hself]
  have hactive : r.state.resting = false := by rw [hr]; rfl
  induction noise using cleanNoise.induct with
  | case1 => rfl
  | case2 a => exact rxRun_cons_of_active _ (hidle (by simpa [cleanNoise] using hn)) hactive
  | case3 b rest ih =>
    obtain ⟨hb, hrest⟩ : b ≠ Config.pre ∧ cleanNoise rest = true := by simpa [cleanNoise] using hn
    have hpre : rxStep (.byte Config.pre) r = { r with state := .started } := by
      rw [rxStep_byte_of_idle _ hr, rxIdle, if_pos rfl]
    have hback : rxStep (.byte b) { r with state := .started } = r := by
      rw [rxStep_byte_of_started b rfl, rxStarted, if_neg hb]
      exact hself
    exact (rxRun_cons_of_active _ hpre rfl).trans ((rxRun_cons_of_active _ hback hactive).trans (ih hrest))
  | case4 a b rest ha ih =>
    have hrest : cleanNoise (b :: rest) = true := by
      rw [cleanNoise, if_neg ha] at hn
      exact hn
    exact (rxRun_cons_of_active _ (hidle ha) hactive).trans (ih hrest)

/-! ### What an attempt depends on (R135, R136) -/

/-- Two register files agree on what the attempt has read so far. -/
def Rxf.Agree (q r : Rxf) : Prop :=
  q.buf.length = 255 ∧ r.buf.length = 255 ∧ q.state = r.state ∧ q.result = r.result ∧
  match q.state with
  | .rest | .idle | .started | .readCmd | .failed => True
  | .readLen => q.cmd = r.cmd ∧ q.acc = r.acc
  | .readPayload => q.cmd = r.cmd ∧ q.acc = r.acc ∧ q.len = r.len ∧ q.cnt = r.cnt ∧ q.cnt < q.len.toNat ∧
      q.buf.take q.cnt = r.buf.take r.cnt
  | .readChecksum | .readTrailer1 | .readTrailer2 | .done => q.cmd = r.cmd ∧ q.acc = r.acc ∧ rxPayload q = rxPayload r

theorem Rxf.Agree.outcome {q r : Rxf} (h : q.Agree r) : rxOutcome q = rxOutcome r := by
  obtain ⟨-, -, hs, hres, h⟩ := h
  unfold rxOutcome
  rw [← hs, ← hres]
  split
  · next hd _ =>
    simp only [hd] at h
    obtain ⟨hcmd, -, hpay⟩ := h
    rw [hcmd, hpay]
  · rfl
  · rfl

theorem Rxf.Agree.fail {q r : Rxf} (h : q.Agree r) (kind : ErrorKind) : (rxFail kind q).Agree (rxFail kind r) :=
  ⟨h.1, h.2.1, rfl, rfl, trivial⟩

/-- The first bytes of a buffer with one byte more. -/
theorem take_set_succ {buf : List Byte} {k : Nat} (h : k < buf.length) (b : Byte) :
    (buf.set k b).take (k + 1) = buf.take k ++ [b] := by
  rw [List.take_add_one, List.take_set_of_le (Nat.le_refl k), List.getElem?_set_self h]
  rfl

theorem rxStep_resting {r : Rxf} (h : r.state.resting = true) (item : RxItem) : rxStep item r = r := by
  cases hs : r.state <;> simp_all [rxStep, RxState.resting]

theorem Rxf.Agree.readPayload {q r : Rxf} (h : q.Agree r) (hs : q.state = .readPayload) (b : Byte) :
    (rxReadPayload b q).Agree (rxReadPayload b r) := by
  obtain ⟨hq, hr, -, hres, h⟩ := h
  simp only [hs] at h
  obtain ⟨hcmd, hacc, hlen, hcnt, hlt, hbuf⟩ := h
  have hfit := q.len.isLt
  have htake : (q.buf.set q.cnt b).take (q.cnt + 1) = (r.buf.set r.cnt b).take (r.cnt + 1) := by
    rw [take_set_succ (by omega), take_set_succ (by omega), hbuf]
  have hacc' : q.acc ^^^ b = r.acc ^^^ b := by rw [hacc]
  unfold rxReadPayload
  rw [← hlen, ← hcnt]
  by_cases hlast : q.cnt + 1 = q.len.toNat
  · simp only [if_pos hlast]
    refine ⟨by simpa using hq, by simpa using hr, rfl, hres, hcmd, hacc', ?_⟩
    rw [← hcnt, hlast] at htake
    exact htake.trans (by simp only [rxPayload, hlen])
  · simp only [if_neg hlast]
    exact ⟨by simpa using hq, by simpa using hr, rfl, hres, hcmd, hacc', rfl, rfl, by simp only; omega,
      by rwa [← hcnt] at htake⟩

theorem Rxf.Agree.step {q r : Rxf} (h : q.Agree r) (item : RxItem) : (rxStep item q).Agree (rxStep item r) := by
  have hs := h.2.2.1
  by_cases hrest : q.state.resting = true
  · rw [rxStep_resting hrest, rxStep_resting (hs ▸ hrest)]
    exact h
  have ha : q.state.resting = false := by simpa using hrest
  cases item with
  | timeout =>
    rw [rxStep_timeout ha, rxStep_timeout (hs ▸ ha)]
    exact h.fail _
  | byte b =>
    have hp := h.readPayload (b := b)
    have hfail := h.fail
    obtain ⟨hq, hr, -, hres, hregs⟩ := h
    cases hst : q.state with
    | rest | done | failed => simp [hst, RxState.resting] at ha
    | idle =>
      rw [rxStep_byte_of_idle b hst, rxStep_byte_of_idle b (hs ▸ hst)]
      unfold rxIdle
      split_ifs
      · exact ⟨hq, hr, rfl, hres, trivial⟩
      · exact ⟨hq, hr, rfl, hres, trivial⟩
    | started =>
      rw [rxStep_byte_of_started b hst, rxStep_byte_of_started b (hs ▸ hst)]
      unfold rxStarted
      split_ifs
      · exact ⟨hq, hr, rfl, hres, trivial⟩
      · exact ⟨hq, hr, rfl, hres, trivial⟩
    | readCmd =>
      rw [rxStep_byte_of_readCmd b hst, rxStep_byte_of_readCmd b (hs ▸ hst)]
      exact ⟨hq, hr, rfl, hres, rfl, rfl⟩
    | readLen =>
      simp only [hst] at hregs
      obtain ⟨hcmd, hacc⟩ := hregs
      have hacc : q.acc ^^^ b = r.acc ^^^ b := by rw [hacc]
      rw [rxStep_byte_of_readLen b hst, rxStep_byte_of_readLen b (hs ▸ hst)]
      unfold rxReadLen
      by_cases hb : b = 0
      · simp only [if_pos hb]
        exact ⟨hq, hr, rfl, hres, hcmd, hacc, by simp [rxPayload, hb]⟩
      · simp only [if_neg hb]
        exact ⟨hq, hr, rfl, hres, hcmd, hacc, rfl, rfl, Nat.pos_of_ne_zero fun e => hb (BitVec.eq_of_toNat_eq e), rfl⟩
    | readPayload =>
      rw [rxStep_byte_of_readPayload b hst, rxStep_byte_of_readPayload b (hs ▸ hst)]
      exact hp hst
    | readChecksum =>
      simp only [hst] at hregs
      rw [rxStep_byte_of_readChecksum b hst, rxStep_byte_of_readChecksum b (hs ▸ hst)]
      have hacc := hregs.2.1
      by_cases hb : b = q.acc
      · rw [rxReadChecksum_of_eq hb, rxReadChecksum_of_eq (hb.trans hacc)]
        exact ⟨hq, hr, rfl, hres, hregs⟩
      · rw [rxReadChecksum_of_ne hb, rxReadChecksum_of_ne (hacc ▸ hb)]
        exact hfail _
    | readTrailer1 =>
      simp only [hst] at hregs
      rw [rxStep_byte_of_readTrailer1 b hst, rxStep_byte_of_readTrailer1 b (hs ▸ hst)]
      unfold rxReadTrailer1
      split_ifs
      · exact ⟨hq, hr, rfl, hres, hregs⟩
      · exact hfail _
    | readTrailer2 =>
      simp only [hst] at hregs
      rw [rxStep_byte_of_readTrailer2 b hst, rxStep_byte_of_readTrailer2 b (hs ▸ hst)]
      unfold rxReadTrailer2
      split_ifs
      · exact ⟨hq, hr, rfl, rfl, hregs⟩
      · exact hfail _

theorem Rxf.Agree.run {q r : Rxf} (h : q.Agree r) (items : List RxItem) :
    (rxRun q items).map (fun p => (rxOutcome p.1, p.2)) = (rxRun r items).map (fun p => (rxOutcome p.1, p.2)) := by
  induction items generalizing q r with
  | nil => rfl
  | cons item items ih =>
    have hstep := h.step item
    have hs := hstep.2.2.1
    simp only [rxRun, hs]
    split_ifs
    · simp [hstep.outcome]
    · exact ih hstep

/-- Settles O32: the registers two attempts begin with agree where it matters, and every item keeps that. -/
theorem attemptsAreIndependent : Obligations.AttemptsAreIndependent := fun q r items hq hr =>
  Rxf.Agree.run (q := rxBegin q) (r := rxBegin r) ⟨hq, hr, rfl, rfl, trivial⟩ items

end Sys2Proof.Machine
end

section
/-! The family of 41_framer_rx.md, on the machine: an attempt that is given a whole frame (R130), and the end of an attempt
(R134). -/

namespace Sys2Proof.Machine

/-! ### Bytes that RXF takes on its way through a frame -/

/-- RXF takes these bytes one after the other without a pulse and without coming to rest, and then has these registers. -/
inductive Rxf.Takes : Rxf → List Byte → Rxf → Prop where
  | nil (r : Rxf) : Rxf.Takes r [] r
  | cons {r t : Rxf} {b : Byte} {bs : List Byte} (ha : r.state.resting = false)
      (hc : r.state = .readPayload → r.cnt < Config.maxLen) (he : rxEvents (.byte b) r = [])
      (hn : (rxStep (.byte b) r).state.resting = false) (h : Rxf.Takes (rxStep (.byte b) r) bs t) :
      Rxf.Takes r (b :: bs) t

theorem Rxf.Takes.append {q r t : Rxf} {bs cs : List Byte} (h : q.Takes bs r) (h' : r.Takes cs t) :
    q.Takes (bs ++ cs) t := by
  induction h with
  | nil => exact h'
  | cons ha hc he hn _ ih => exact .cons ha hc he hn (ih h')

/-- An active state reports no result. -/
theorem rxOutcome_active {r : Rxf} (h : r.state.resting = false) : rxOutcome r = [] := by
  unfold rxOutcome
  split
  · next hs _ => simp [hs, RxState.resting] at h
  · next hs _ => simp [hs, RxState.resting] at h
  · rfl

/-- A delivery of a byte that raises no pulse: the registers, the FIFO and the streams after it. -/
theorem step_deliver {s : State} {ts : List Turn} {b : Byte} {rest : List Byte} (hts : s.turns = .deliver :: ts)
    (ho : s.line.isOpen = true) (hf : s.line.fifo = b :: rest) (ha : s.rx.state.resting = false)
    (hc : s.rx.state = .readPayload → s.rx.cnt < Config.maxLen) (he : rxEvents (.byte b) s.rx = []) :
    step s = .next { s with
      rx := rxStep (.byte b) s.rx
      turns := ts
      line := { s.line with fifo := rest }
      out := { s.out with
        rx := s.out.rx ++ [.byte b], rxResults := s.out.rxResults ++ rxOutcome (rxStep (.byte b) s.rx) } } := by
  rw [step_cons hts]
  refine (turnDeliver_active (s := s.withTurns ts) ho ha hf hc).trans ?_
  simp only [rxTaken, State.withLine_rx, State.withTurns_rx, he, List.append_nil]
  rfl

/-- One delivery for each byte: the bytes move from the FIFO to stream RX, and nothing else changes outside RXF. -/
theorem runSteps_takes {r t : Rxf} {bs : List Byte} (h : r.Takes bs t) {s : State} {ts : List Turn} {later : List Byte}
    (hrx : s.rx = r) (ho : s.line.isOpen = true) (hf : s.line.fifo = bs ++ later)
    (hts : s.turns = List.replicate bs.length .deliver ++ ts) :
    runSteps bs.length s = .next { s with
      rx := t, turns := ts, line := { s.line with fifo := later }
      out := { s.out with rx := s.out.rx ++ byteItems bs } } := by
  induction h generalizing s with
  | nil r =>
    subst hrx
    obtain rfl : s.turns = ts := by simpa using hts
    obtain rfl : s.line.fifo = later := by simpa using hf
    simp [runSteps_zero, byteItems]
  | @cons r t b bs ha hc he hn h ih =>
    subst hrx
    have hts : s.turns = .deliver :: (List.replicate bs.length .deliver ++ ts) := hts
    rw [List.length_cons, runSteps_succ (step_deliver hts ho hf ha hc he), ih]
    · simp [rxOutcome_active hn, byteItems]
    · rfl
    · exact ho
    · rfl
    · rfl

/-! ### A frame, byte by byte (R119 to R126) -/

/-- What an attempt knows after a frame's payload: it waits for the checksum of the pair it has read. -/
structure Rxf.HasRead (cmd : Byte) (payload : List Byte) (r : Rxf) : Prop where
  state : r.state = .readChecksum
  opcode : r.cmd = cmd
  acc : r.acc = csum cmd (lenByte payload) payload
  payload : rxPayload r = payload

theorem rxEvents_byte {r : Rxf} (b : Byte) (h : r.state ≠ .started) : rxEvents (.byte b) r = [] := by
  unfold rxEvents
  split
  · contradiction
  · rfl

/-- From `ReadPayload` the bytes still due are stored behind those that are there. -/
theorem takes_readPayload {r : Rxf} {rest : List Byte} (hs : r.state = .readPayload) (hbuf : r.buf.length = Config.maxLen)
    (hlen : r.cnt + rest.length = r.len.toNat) (hne : rest ≠ []) :
    ∃ t, r.Takes rest t ∧ t.state = .readChecksum ∧ t.cmd = r.cmd ∧ t.acc = xorAll r.acc rest ∧
      rxPayload t = r.buf.take r.cnt ++ rest := by
  induction rest generalizing r with
  | nil => exact absurd rfl hne
  | cons b rest ih =>
    have hmax := r.len.isLt
    rw [List.length_cons] at hlen
    have hcnt : r.cnt < Config.maxLen := by simp only [Config.maxLen]; omega
    have hstep := rxStep_byte_of_readPayload b hs
    have htake : (rxReadPayload b r).buf.take (r.cnt + 1) = r.buf.take r.cnt ++ [b] :=
      take_set_succ (hbuf ▸ hcnt) b
    have hcons {t : Rxf} (hn : (rxReadPayload b r).state.resting = false) (h : (rxReadPayload b r).Takes rest t) :
        r.Takes (b :: rest) t :=
      .cons (by rw [hs]; rfl) (fun _ => hcnt) (rxEvents_byte b (by simp [hs])) (hstep ▸ hn) (hstep ▸ h)
    by_cases hlast : rest = []
    · subst hlast
      have hlen : r.cnt + 1 = r.len.toNat := hlen
      have hstate : (rxReadPayload b r).state = .readChecksum := if_pos hlen
      refine ⟨rxReadPayload b r, hcons (by rw [hstate]; rfl) (.nil _), hstate, rfl, rfl, ?_⟩
      rw [← htake, hlen]
      rfl
    · have hpos := List.length_pos_iff.2 hlast
      have hstate : (rxReadPayload b r).state = .readPayload := if_neg (by omega)
      obtain ⟨t, ht, hts, hcmd, hacc, hpay⟩ := ih hstate (by simpa [rxReadPayload] using hbuf)
        (by show r.cnt + 1 + _ = r.len.toNat; omega) hlast
      refine ⟨t, hcons (by rw [hstate]; rfl) ht, hts, hcmd, hacc, hpay.trans ?_⟩
      show (rxReadPayload b r).buf.take (r.cnt + 1) ++ rest = _
      rw [htake, List.append_assoc]
      rfl

/-- From `ReadLen` the length byte and the payload; with length 0 the checksum is next. -/
theorem takes_readLen {r : Rxf} {payload : List Byte} (hs : r.state = .readLen) (hacc : r.acc = r.cmd)
    (hbuf : r.buf.length = Config.maxLen) (hlen : payload.length ≤ Config.maxLen) :
    ∃ t, r.Takes (lenByte payload :: payload) t ∧ t.HasRead r.cmd payload := by
  have hstep := rxStep_byte_of_readLen (lenByte payload) hs
  have hcons {t : Rxf} (hn : (rxReadLen (lenByte payload) r).state.resting = false)
      (h : (rxReadLen (lenByte payload) r).Takes payload t) : r.Takes (lenByte payload :: payload) t :=
    .cons (by rw [hs]; rfl) (by simp [hs]) (rxEvents_byte _ (by simp [hs])) (hstep ▸ hn) (hstep ▸ h)
  by_cases hnil : payload = []
  · subst hnil
    exact ⟨_, hcons rfl (.nil _), rfl, rfl, congrArg (· ^^^ lenByte []) hacc, rfl⟩
  · have hstate : (rxReadLen (lenByte payload) r).state = .readPayload := if_neg (mt (lenByte_eq_zero hlen).1 hnil)
    obtain ⟨t, ht, hts, hcmd, htacc, hpay⟩ := takes_readPayload (r := rxReadLen (lenByte payload) r) hstate hbuf
      ((Nat.zero_add _).trans (lenByte_toNat hlen).symm) hnil
    refine ⟨t, hcons (by rw [hstate]; rfl) ht, hts, hcmd, htacc.trans ?_, hpay⟩
    show xorAll (r.acc ^^^ lenByte payload) payload = _
    rw [hacc]
    rfl

/-- From `Idle` a request leads to `ReadChecksum` with the pair in the registers. -/
theorem takes_request {r : Rxf} (cmd : Byte) {payload : List Byte} (hs : r.state = .idle)
    (hbuf : r.buf.length = Config.maxLen) (hlen : payload.length ≤ Config.maxLen) :
    ∃ t, r.Takes (requestLayout cmd (lenByte payload) payload) t ∧ t.HasRead cmd payload := by
  have hidle : rxStep (.byte Config.pre) r = { r with state := .started } :=
    (rxStep_byte_of_idle _ hs).trans (if_pos rfl)
  obtain ⟨t, ht, hread⟩ := takes_readLen (r := rxReadCmd cmd { r with state := .readCmd }) rfl rfl hbuf hlen
  refine ⟨t, .cons (by rw [hs]; rfl) (by simp [hs]) (rxEvents_byte _ (by simp [hs])) (by rw [hidle]; rfl) ?_, hread⟩
  rw [hidle]
  exact .cons rfl (fun h => nomatch h) rfl rfl (.cons rfl (fun h => nomatch h) rfl rfl ht)

/-- The checksum and the first trailer byte lead to `ReadTrailer2`. -/
theorem Rxf.HasRead.takes_checksum {r : Rxf} {cmd : Byte} {payload : List Byte} (h : r.HasRead cmd payload) :
    r.Takes [csum cmd (lenByte payload) payload, Config.trl] { r with state := .readTrailer2 } := by
  have hs := h.state
  have hstep : rxStep (.byte (csum cmd (lenByte payload) payload)) r = { r with state := .readTrailer1 } := by
    rw [rxStep_byte_of_readChecksum _ hs, rxReadChecksum_of_eq h.acc.symm]
  refine .cons (by rw [hs]; rfl) (by simp [hs]) (rxEvents_byte _ (by simp [hs])) (by rw [hstep]; rfl) ?_
  rw [hstep]
  exact .cons rfl (fun h => nomatch h) rfl rfl (.nil _)

/-- An attempt in `Idle` that is delivered a whole frame ends in `Done` and reports the pair: the bytes up to the last lead
to `ReadTrailer2`, and the last one ends the attempt. -/
theorem runSteps_receive {s : State} {cmd : Byte} {payload later : List Byte}
    (hlen : payload.length ≤ Config.maxLen) (ho : s.line.isOpen = true) (hs : s.rx.state = .idle)
    (hbuf : s.rx.buf.length = Config.maxLen) (hf : s.line.fifo = frameLayout cmd (lenByte payload) payload ++ later) :
    ∃ t : Rxf, t.state = .done ∧ t.result = .ok ∧ ∀ ts : List Turn,
      runSteps (payload.length + 7) (s.withTurns (List.replicate (payload.length + 7) .deliver ++ ts)) = .next { s with
        rx := t
        turns := ts
        line := { s.line with fifo := later }
        out := { s.out with
          rx := s.out.rx ++ byteItems (frameLayout cmd (lenByte payload) payload)
          rxResults := s.out.rxResults ++ [.ok cmd payload] } } := by
  obtain ⟨t, htakes, hread⟩ := takes_request (r := s.rx) cmd hs hbuf hlen
  have hall := htakes.append hread.takes_checksum
  have hcount : (requestLayout cmd (lenByte payload) payload ++ [csum cmd (lenByte payload) payload, Config.trl]).length
      = payload.length + 6 := by simp
  have hrun (ts : List Turn) := runSteps_takes hall
    (s := s.withTurns (List.replicate (payload.length + 7) Turn.deliver ++ ts)) (ts := .deliver :: ts)
    (later := Config.trl :: later) rfl ho (by simp [hf, frameLayout])
    (by rw [State.withTurns_turns, hcount, List.replicate_succ', List.append_assoc]; rfl)
  simp only [hcount] at hrun
  have hlast : rxStep (.byte Config.trl) { t with state := .readTrailer2 } = { t with result := .ok, state := .done } :=
    (rxStep_byte_of_readTrailer2 _ rfl).trans (rxReadTrailer2_of_eq rfl)
  have hout : rxOutcome { t with result := .ok, state := .done } = [.ok cmd payload] := by
    rw [← hread.opcode, ← hread.payload]
    rfl
  refine ⟨{ t with result := .ok, state := .done }, rfl, rfl, fun ts => ?_⟩
  rw [runSteps_add (hrun ts) 1, runSteps_one (step_deliver (ts := ts) (b := Config.trl) (rest := later) _ _ _ _ _ _)]
  · simp only [hlast, hout]
    simp [frameLayout, byteItems]
  · rfl
  · exact ho
  · rfl
  · rfl
  · exact fun h => nomatch h
  · rfl

/-- Settles O29: `rx_start` begins the attempt, and the frame's bytes end it. -/
theorem receiverDecodesEncodedFrame : Obligations.ReceiverDecodesEncodedFrame := by
  intro s ts rest cmd payload frame later hframe ho hr hbuf hp hf hts
  obtain ⟨hlen, rfl⟩ := encodeFrame_eq_some.1 hframe
  have hbegin := (attemptBeginsOnlyFromRest s _).2 rest hts hp
  rw [if_pos hr] at hbegin
  obtain ⟨t, hdone, hok, hrun⟩ := runSteps_receive (s := { s with
      rx := rxBegin s.rx, turns := List.replicate (payload.length + 7) .deliver ++ ts
      host := { s.host with prog := rest } }) hlen ho rfl hbuf hf
  exact ⟨_, (runSteps_succ hbegin _).trans (hrun ts), hdone, hok, rfl, rfl⟩

end Sys2Proof.Machine
end

section
/-! The family of 41_framer_rx.md, R134: an attempt that has reached `ReadCmd` ends, and one in `Idle` need not. -/

namespace Sys2Proof.Machine

/-! ### The items an attempt still needs at most -/

/-- From `ReadCmd` on, the most items the attempt can still take. -/
def Rxf.due (r : Rxf) : Nat :=
  match r.state with
  | .readCmd => 260
  | .readLen => 259
  | .readPayload => r.len.toNat - r.cnt + 3
  | .readChecksum => 3
  | .readTrailer1 => 2
  | .readTrailer2 => 1
  | .rest | .idle | .started | .done | .failed => 0

/-- RXF is inside a frame, with a payload byte still due in `ReadPayload`. -/
def Rxf.InFrame (r : Rxf) : Prop := r.state.inFrame = true ∧ (r.state = .readPayload → r.cnt < r.len.toNat)

theorem Rxf.InFrame.active {r : Rxf} (h : r.InFrame) : r.state.resting = false := by
  have h := h.1
  cases hs : r.state <;> simp_all [RxState.inFrame, RxState.resting]

theorem Rxf.InFrame.due_pos {r : Rxf} (h : r.InFrame) : 0 < r.due := by
  have h := h.1
  unfold Rxf.due
  cases hs : r.state <;> simp_all [RxState.inFrame]

/-- Inside a frame every item ends the attempt or leaves fewer to come. -/
theorem Rxf.InFrame.step {r : Rxf} (h : r.InFrame) (item : RxItem) :
    (rxStep item r).state.resting = true ∨ ((rxStep item r).InFrame ∧ (rxStep item r).due < r.due) := by
  have ha := h.active
  obtain ⟨hin, hcnt⟩ := h
  cases item with
  | timeout =>
    rw [rxStep_timeout ha]
    exact .inl rfl
  | byte b =>
    cases hs : r.state with
    | rest | idle | started | done | failed => simp [hs, RxState.inFrame] at hin
    | readCmd =>
      rw [rxStep_byte_of_readCmd b hs]
      exact .inr ⟨⟨rfl, fun h => nomatch h⟩, by simp [Rxf.due, rxReadCmd, hs]⟩
    | readLen =>
      rw [rxStep_byte_of_readLen b hs]
      have hb := b.isLt
      by_cases h0 : b = 0
      · have hst : (rxReadLen b r).state = .readChecksum := if_pos h0
        exact .inr ⟨⟨by rw [hst]; rfl, by simp [hst]⟩, by simp [Rxf.due, hst, hs]⟩
      · have hst : (rxReadLen b r).state = .readPayload := if_neg h0
        have hpos : 0 < b.toNat := Nat.pos_of_ne_zero fun e => h0 (BitVec.eq_of_toNat_eq e)
        refine .inr ⟨⟨by rw [hst]; rfl, fun _ => hpos⟩, ?_⟩
        simp only [Rxf.due, hst, hs]
        show b.toNat - 0 + 3 < 259
        omega
    | readPayload =>
      rw [rxStep_byte_of_readPayload b hs]
      have hlt := hcnt hs
      by_cases hlast : r.cnt + 1 = r.len.toNat
      · have hst : (rxReadPayload b r).state = .readChecksum := if_pos hlast
        refine .inr ⟨⟨by rw [hst]; rfl, by simp [hst]⟩, ?_⟩
        simp only [Rxf.due, hst, hs]
        omega
      · have hst : (rxReadPayload b r).state = .readPayload := if_neg hlast
        refine .inr ⟨⟨by rw [hst]; rfl, fun _ => ?_⟩, ?_⟩
        · show r.cnt + 1 < r.len.toNat
          omega
        · simp only [Rxf.due, hst, hs]
          show r.len.toNat - (r.cnt + 1) + 3 < r.len.toNat - r.cnt + 3
          omega
    | readChecksum =>
      rw [rxStep_byte_of_readChecksum b hs]
      by_cases hb : b = r.acc
      · rw [rxReadChecksum_of_eq hb]
        exact .inr ⟨⟨rfl, fun h => nomatch h⟩, by simp [Rxf.due, hs]⟩
      · rw [rxReadChecksum_of_ne hb]
        exact .inl rfl
    | readTrailer1 =>
      rw [rxStep_byte_of_readTrailer1 b hs]
      by_cases hb : b = Config.trl
      · rw [rxReadTrailer1_of_eq hb]
        exact .inr ⟨⟨rfl, fun h => nomatch h⟩, by simp [Rxf.due, hs]⟩
      · rw [rxReadTrailer1_of_ne hb]
        exact .inl rfl
    | readTrailer2 =>
      rw [rxStep_byte_of_readTrailer2 b hs]
      refine .inl ?_
      unfold rxReadTrailer2
      split_ifs
      · rfl
      · rfl

/-- An attempt inside a frame ends within the items that are due. -/
theorem rxRun_inFrame {r : Rxf} (h : r.InFrame) {items : List RxItem} (hlen : r.due ≤ items.length) :
    ∃ r' rest, rxRun r items = some (r', rest) ∧ r'.state.resting = true ∧ items.length ≤ rest.length + r.due := by
  induction items generalizing r with
  | nil => exact absurd hlen (Nat.not_le.2 h.due_pos)
  | cons item items ih =>
    have hpos := h.due_pos
    rw [List.length_cons] at hlen ⊢
    obtain hrest | ⟨hin, hdue⟩ := h.step item
    · exact ⟨rxStep item r, items, by simp [rxRun, hrest], hrest, by omega⟩
    · obtain ⟨r', rest, hrun, hr', hle⟩ := ih hin (by omega)
      exact ⟨r', rest, (rxRun_cons_of_active items rfl hin.active).trans hrun, hr', by omega⟩

/-! ### In a run of the machine -/

section
variable {s t : State}

/-- What one move may do to RXF inside a frame: nothing, end the attempt, or leave fewer items to come. -/
theorem Move.inFrame {turn : Turn} (h : Move s turn t) (hin : s.rx.InFrame) :
    (t.rx = s.rx ∧ t.out.rx = s.out.rx) ∨ t.rx.state.resting = true ∨ (t.rx.InFrame ∧ t.rx.due < s.rx.due) := by
  cases h with
  | deliver => exact .inr (hin.step _)
  | timeout => exact .inr (hin.step _)
  | powerOn => exact .inr (.inl rfl)
  | host h =>
    cases h with
    | attempt h hr => exact absurd hr (by simp [hin.active])
    | pack => exact .inl ⟨by simp, by simp [packBegin_out]⟩
    | take => exact .inl ⟨by simp, by simp⟩
    | control | request | scan => exact .inl ⟨rfl, rfl⟩
  | ser => exact .inl ⟨by simp, by simp⟩
  | hold | transmit | arrive | pixel | lastPixel | row | offer => exact .inl ⟨rfl, rfl⟩

theorem freeRun_inv {run : Nat → State} (hfree : FreeRun run) (h0 : (run 0).Inv) (k : Nat) : (run k).Inv := by
  induction k with
  | zero => exact h0
  | succ k ih =>
    obtain ⟨turn, ts, h⟩ := hfree k
    exact (runTurn_move h).inv (ih.withTurns ts)

theorem Rxf.Inv.inFrame {r : Rxf} (h : r.Inv) (hin : r.state.inFrame = true) : r.InFrame := by
  refine ⟨hin, fun hs => ?_⟩
  have h := h.2
  simp only [hs] at h
  exact h.2.1

/-- In a free run, from an attempt inside a frame, until the first item is taken nothing of RXF changes. -/
theorem freeRun_waits {run : Nat → State} (hfree : FreeRun run) {k : Nat} (hin : (run k).rx.InFrame) (n : Nat) :
    ((run (k + n)).rx = (run k).rx ∧ (run (k + n)).out.rx = (run k).out.rx)
      ∨ ∃ j, k < j ∧ ((run j).rx.state.resting = true ∨ ((run j).rx.InFrame ∧ (run j).rx.due < (run k).rx.due)) := by
  induction n with
  | zero => exact .inl ⟨rfl, rfl⟩
  | succ n ih =>
    obtain ⟨hrx, hout⟩ | hdone := ih
    · obtain ⟨turn, ts, h⟩ := hfree (k + n)
      have hin' : ((run (k + n)).withTurns ts).rx.InFrame := by rw [State.withTurns_rx, hrx]; exact hin
      obtain ⟨hrx', hout'⟩ | hrest | ⟨hnext, hdue⟩ := (runTurn_move h).inFrame hin'
      · exact .inl ⟨hrx'.trans hrx, hout'.trans hout⟩
      · exact .inr ⟨k + n + 1, by omega, .inl hrest⟩
      · rw [State.withTurns_rx, hrx] at hdue
        exact .inr ⟨k + n + 1, by omega, .inr ⟨hnext, hdue⟩⟩
    · exact .inr hdone

/-- Under the progress assumption an attempt inside a frame comes to rest: each item it is promised leaves fewer to come. -/
theorem freeRun_rests {run : Nat → State} (hfree : FreeRun run) (hprog : Progress run) {k : Nat}
    (hin : (run k).rx.InFrame) : ∃ j, k < j ∧ (run j).rx.state.resting = true := by
  induction hd : (run k).rx.due using Nat.strong_induction_on generalizing k with
  | _ d ih =>
    subst hd
    obtain ⟨j, hkj, hread⟩ := hprog.reads k (by rw [RxState.active, hin.active]; rfl)
    obtain ⟨n, rfl⟩ := Nat.exists_eq_add_of_le (Nat.le_of_lt hkj)
    obtain ⟨hrx, hout⟩ | ⟨i, hki, hrest | ⟨hin', hdue⟩⟩ := freeRun_waits hfree hin n
    · simp [hrx, hout, RxState.active, hin.active] at hread
    · exact ⟨i, hki, hrest⟩
    · obtain ⟨j, hij, hj⟩ := ih _ hdue hin' rfl
      exact ⟨j, Nat.lt_trans hki hij, hj⟩

/-! ### An attempt that never ends -/

/-- After `n` bytes of noise, each discarded in `Idle`. -/
def huntAt (s : State) (n : Nat) : State :=
  { s with
    turns := [], cycle := [.arrive 0, .deliver], out := { s.out with rx := s.out.rx ++ List.replicate n (.byte 0) } }

/-- Then one more has arrived. -/
def huntArrived (s : State) (n : Nat) : State := { huntAt s n with turns := [.deliver], line := ⟨[0], true⟩ }

/-- The run in which byte after byte arrives and is discarded. -/
def huntRun (s : State) (k : Nat) : State := if k % 2 = 0 then huntAt s (k / 2) else huntArrived s (k / 2)

theorem step_huntAt (hl : s.line = ⟨[], true⟩) (hd : s.par.fifoDepth = none) (n : Nat) :
    step (huntAt s n) = .next (huntArrived s n) := by
  rw [step_cycle (t := .arrive 0) (ts := [.deliver]) rfl rfl]
  simp [runTurn, turnArrive, huntAt, huntArrived, State.withTurns, State.withLine, hd, hl]

theorem step_huntArrived (hl : s.line = ⟨[], true⟩) (hs : s.rx.state = .idle) (n : Nat) :
    step (huntArrived s n) = .next (huntAt s (n + 1)) := by
  have hidle : rxStep (.byte 0) s.rx = s.rx := by
    rw [rxStep_byte_of_idle 0 hs, rxIdle, if_neg (by decide), ← hs]
  have hactive : s.rx.state.resting = false := by rw [hs]; rfl
  have hrx : (huntArrived s n).rx = s.rx := rfl
  rw [step_deliver (s := huntArrived s n) (ts := []) (b := 0) (rest := []) rfl rfl rfl hactive (by simp [hrx, hs])
    (rxEvents_byte_of_idle 0 hs), hrx, hidle, rxOutcome_active hactive]
  simp [huntArrived, huntAt, List.replicate_succ', hl]

theorem huntRun_isRun (hl : s.line = ⟨[], true⟩) (hd : s.par.fifoDepth = none) (hs : s.rx.state = .idle) :
    IsRun (huntRun s) := by
  intro k
  obtain hk | hk := Nat.mod_two_eq_zero_or_one k
  · have h1 : (k + 1) % 2 = 1 := by omega
    have h2 : (k + 1) / 2 = k / 2 := by omega
    simp only [huntRun, hk, h1, h2]
    exact step_huntAt hl hd _
  · have h1 : (k + 1) % 2 = 0 := by omega
    have h2 : (k + 1) / 2 = k / 2 + 1 := by omega
    simp only [huntRun, hk, h1, h2]
    exact step_huntArrived hl hs _

theorem huntRun_keeps (s : State) (k : Nat) : (huntRun s k).rx = s.rx ∧ (huntRun s k).tx = s.tx ∧
    (huntRun s k).pack = s.pack ∧ (huntRun s k).out.rx.length = s.out.rx.length + k / 2 := by
  unfold huntRun
  split_ifs
  · exact ⟨rfl, rfl, rfl, by simp [huntAt]⟩
  · exact ⟨rfl, rfl, rfl, by simp [huntArrived, huntAt]⟩

theorem huntRun_progress (ht : s.tx.state = .txIdle) (hp : s.pack.state = .pkIdle) : Progress (huntRun s) where
  reads k _ := by
    refine ⟨k + 2, by omega, .inl ?_⟩
    rw [(huntRun_keeps s k).2.2.2, (huntRun_keeps s (k + 2)).2.2.2]
    omega
  bytes k h := absurd ((huntRun_keeps s k).2.1 ▸ ht) h
  pixels k h := by
    rw [(huntRun_keeps s k).2.2.1, hp] at h
    exact nomatch h

/-- Settles O33: inside a frame the items still due go down with each item; in `Idle` noise may arrive for ever. -/
theorem attemptEndsAfterReadCmd : Obligations.AttemptEndsAfterReadCmd := by
  refine ⟨fun r items hs hlen => ?_, fun run k hfree hprog h0 hin => ?_, fun s hs hl hd ht hp => ?_⟩
  · have hdue : r.due = 260 := by simp only [Rxf.due, hs]
    rw [← hdue] at hlen ⊢
    exact rxRun_inFrame ⟨by rw [hs]; rfl, by simp [hs]⟩ hlen
  · exact freeRun_rests hfree hprog ((freeRun_inv hfree h0 k).rx.inFrame hin)
  · refine ⟨[.arrive 0, .deliver], huntRun s, ?_, huntRun_isRun hl hd hs, huntRun_progress ht hp, fun k => ?_⟩
    · simp [huntRun, huntAt]
    · rw [(huntRun_keeps s k).1, hs]
      rfl

end

end Sys2Proof.Machine
end

section
/-! The family of 42_packer.md: the start of a pack (R151), one pixel (R155), and a whole pack (R157). -/

namespace Sys2Proof.Machine

/-! ### The start of a pack (R151) -/

@[simp] theorem goodSize_iff (width height : Nat) : goodSize width height = true ↔ width = 400 ∧ height = 240 := by
  simp [goodSize, Config.cols, Config.rows]

theorem turnHost_packStart {s : State} {width height : Nat} {rest : List HostOp}
    (h : s.host.prog = .packStart width height :: rest) : turnHost s = hostPackStart width height rest s := by
  simp only [turnHost, h]

theorem PackState.eq_pkFill {st : PackState} (h : st ≠ .pkIdle) : st = .pkFill := by
  cases st with
  | pkIdle => exact absurd rfl h
  | pkFill => rfl

section
variable {s : State} (width height : Nat) (next : List HostOp)

theorem hostPackStart_held (hr : s.rle.state = .rlIdle) (hp : s.pack.state = .pkFill) :
    hostPackStart width height next s = .next s := by
  simp [hostPackStart, hr, hp]

theorem hostPackStart_taken (hr : s.rle.state = .rlIdle) (hp : s.pack.state = .pkIdle) :
    hostPackStart width height next s = .next (hostPop next (packBegin width height s)) := by
  simp [hostPackStart, hr, hp]

end

/-- Settles O35: with RLE idle a start is held while PACK fills and else taken; the size decides how it begins. -/
theorem packStartChecksSize : Obligations.PackStartChecksSize := by
  intro s ts rest w h hts hp hr
  rw [step_host hts, turnHost_packStart (s := s.withTurns ts) hp]
  cases hs : s.pack.state with
  | pkFill =>
    rw [if_pos rfl]
    exact hostPackStart_held (s := s.withTurns ts) w h rest hr hs
  | pkIdle =>
    rw [if_neg (by decide), hostPackStart_taken (s := s.withTurns ts) w h rest hr hs]
    by_cases hg : w = 400 ∧ h = 240
    · rw [packBegin, if_pos ((goodSize_iff w h).2 hg), if_pos hg]
      rfl
    · rw [packBegin, if_neg (mt (goodSize_iff w h).1 hg), if_neg hg]
      rfl

/-! ### One pixel (R155) -/

theorem packNext_idle_iff {p : Pack} (hs : p.state = .pkFill) (hx : p.x < 400) (hy : p.y < 240) :
    (packNext p).state = .pkIdle ↔ p.x = 399 ∧ p.y = 239 := by
  unfold packNext
  split_ifs with h1 h2
  · simp [hs, Nat.ne_of_lt h1]
  · simp [hs, Nat.ne_of_lt h2]
  · simp only [true_iff]
    omega

section
variable {s : State} (red : Nat)

/-- The address of the byte that PACK's position is in. -/
def packAddr (p : Pack) : Nat := bmpAddr p.y (pixelByte p.x)

theorem get_pixelStore_same (hm : Memory.wf s.bmp = true) :
    Memory.get (pixelStore red s) (packAddr s.pack) = packByte red s.pack.x (Memory.get s.bmp (packAddr s.pack)) :=
  Memory.get_set_same ((Memory.wf_iff _).1 hm).1 _ _

theorem get_pixelStore_other {a : Nat} (h : a ≠ packAddr s.pack) :
    Memory.get (pixelStore red s) a = Memory.get s.bmp a := Memory.get_set_other _ h _

theorem pixelStore_wf (hm : Memory.wf s.bmp = true) (hx : s.pack.x < Config.cols) (hy : s.pack.y < Config.rows) :
    Memory.wf (pixelStore red s) = true := by
  refine Memory.set_wf hm (bmpAddr_lt hy ?_) _
  simp only [pixelByte, Config.cols, Config.rowBytes] at *
  omega

theorem packByte_eq (x : Nat) (old : Byte) : packByte red x old =
    (if x % 8 = 0 then 0 else old) + (if red = 0 then BitVec.ofNat 8 (2 ^ (7 - x % 8)) else 0) := by
  simp only [packByte, inkWeight, isInk_iff, pixelBit]

end

section
variable {s : State} {red : Nat} {rest : List Nat}

theorem turnPixel_more (hp : s.pack.state = .pkFill) (hx : s.pack.x < Config.cols) (hy : s.pack.y < Config.rows)
    (hpix : s.pixels = red :: rest) (hn : ¬(s.pack.x = 399 ∧ s.pack.y = 239)) :
    turnPixel s = .next (pixelTaken red rest s) := by
  rw [turnPixel_fill hp hx hy hpix, if_neg (mt (packNext_idle_iff hp hx hy).1 hn)]

theorem turnPixel_last (hp : s.pack.state = .pkFill) (hx : s.pack.x = 399) (hy : s.pack.y = 239)
    (hpix : s.pixels = red :: rest) :
    turnPixel s = .next (packAnswer .ok ((pixelTaken red rest s).withBmpValid true)) := by
  have hx' : s.pack.x < Config.cols := by rw [hx]; decide
  have hy' : s.pack.y < Config.rows := by rw [hy]; decide
  rw [turnPixel_fill hp hx' hy' hpix, if_pos ((packNext_idle_iff hp hx' hy').2 ⟨hx, hy⟩)]

end

/-- Settles O36: the last pixel or one before it, and the store after it. -/
theorem pixelSetsItsBit : Obligations.PixelSetsItsBit := by
  refine ⟨fun s ts red rest hts hs hx hy hpix hm => ?_, fun s ts hts h => ?_⟩
  · rw [step_cons hts]
    have hsame := (get_pixelStore_same red hm).trans (packByte_eq red _ _)
    have hother : ∀ a, a ≠ 50 * s.pack.y + s.pack.x / 8 → Memory.get (pixelStore red s) a = Memory.get s.bmp a :=
      fun a ha => get_pixelStore_other red ha
    by_cases hend : s.pack.x = 399 ∧ s.pack.y = 239
    · exact ⟨_, turnPixel_last (s := s.withTurns ts) hs hend.1 hend.2 hpix, hsame, hother, rfl, (if_pos hend).symm,
        (if_pos hend).symm, rfl⟩
    · exact ⟨_, turnPixel_more (s := s.withTurns ts) hs hx hy hpix hend, hsame, hother, rfl, (if_neg hend).symm,
        (if_neg hend).symm, rfl⟩
  · rw [step_cons hts]
    exact turnPixel_hold (s := s.withTurns ts) h

/-! ### A whole pack (R157) -/

/-- The byte after its first `n` pixels. -/
def packPart (n : Nat) (reds : List Nat) : Byte :=
  ((reds.take n).zipIdx.map (fun p => inkWeight p.1 p.2)).foldl (fun a b => a + b) 0

theorem packPart_eight (reds : List Nat) : packPart 8 reds = packEight reds := rfl

theorem packPart_succ {n red : Nat} {reds : List Nat} (h : reds[n]? = some red) :
    packPart (n + 1) reds = packPart n reds + inkWeight red n := by
  have hn : n < reds.length := (List.getElem?_eq_some_iff.1 h).1
  simp [packPart, List.take_add_one, h, List.zipIdx_append, Nat.min_eq_left (Nat.le_of_lt hn)]

/-- A column's weight depends on its place in its byte. -/
theorem inkWeight_mod (red x : Nat) : inkWeight red (x % 8) = inkWeight red x := by
  simp [inkWeight, pixelBit]

/-- The store after the first `k` pixels: every byte begun holds the weights of its pixels so far. -/
def Packed (reds : List Nat) (k : Nat) (m : List Host.Cell) : Prop :=
  ∀ a, 8 * a < k → Memory.get m a = packPart (min 8 (k - 8 * a)) (reds.drop (8 * a))

/-- PACK's position after `k` pixels. -/
def packAt (k : Nat) : Pack := ⟨.pkFill, k % 400, k / 400⟩

theorem packAddr_packAt (k : Nat) : packAddr (packAt k) = k / 8 := by
  simp only [packAddr, packAt, bmpAddr, pixelByte, Config.rowBytes]
  omega

theorem packNext_packAt {k : Nat} (h : k < 95999) : packNext (packAt k) = packAt (k + 1) := by
  unfold packNext packAt
  split_ifs with h1 h2
  · simp only [Pack.mk.injEq, true_and]
    simp only at h1
    omega
  · simp only [Pack.mk.injEq, true_and]
    simp only at h1
    omega
  · simp only at h1 h2
    omega

/-- One pixel more in the store. -/
theorem Packed.pixelStore {s : State} {reds : List Nat} {k red : Nat} (h : Packed reds k s.bmp) (hp : s.pack = packAt k)
    (hred : reds[k]? = some red) (hm : Memory.wf s.bmp = true) : Packed reds (k + 1) (pixelStore red s) := by
  intro a ha
  have haddr : packAddr s.pack = k / 8 := by rw [hp, packAddr_packAt]
  by_cases hak : a = k / 8
  · have hmin : min 8 (k + 1 - 8 * a) = k % 8 + 1 := by omega
    have hred' : (reds.drop (8 * a))[k % 8]? = some red := by
      rw [List.getElem?_drop, hak, Nat.div_add_mod]
      exact hred
    have hx : s.pack.x % 8 = k % 8 := by
      rw [hp]
      show k % 400 % 8 = _
      omega
    have hold : (if s.pack.x % 8 = 0 then 0 else Memory.get s.bmp a) = packPart (k % 8) (reds.drop (8 * a)) := by
      rw [hx]
      split_ifs with h0
      · rw [h0]
        rfl
      · rw [h a (by omega)]
        congr 1
        omega
    rw [hmin, packPart_succ hred', ← hold, ← hx, inkWeight_mod, hak, ← haddr, get_pixelStore_same red hm]
    rfl
  · rw [get_pixelStore_other red (haddr ▸ hak), h a (by omega)]
    congr 1
    omega

/-- The state of a pack after `k` pixels, with this store. -/
def packedState (s : State) (k : Nat) (m : List Host.Cell) (pixels : List Nat) (ts : List Turn) : State :=
  { s with bmp := m, pack := packAt k, pixels := pixels, turns := ts }

/-- Before the last pixel a pack goes on, one pixel in each turn; the store does not depend on the turns that follow. -/
theorem runSteps_pixels {s : State} {reds later : List Nat} (hp : s.pack = packAt 0) (hm : Memory.wf s.bmp = true)
    (hpix : s.pixels = reds ++ later) {k : Nat} (hk : k ≤ 95999) (hlen : k < reds.length) :
    ∃ m, Memory.wf m = true ∧ Packed reds k m ∧ ∀ ts : List Turn,
      runSteps k (s.withTurns (List.replicate k .pixel ++ ts)) = .next (packedState s k m (reds.drop k ++ later) ts) := by
  induction k with
  | zero =>
    refine ⟨s.bmp, hm, fun a ha => absurd ha (Nat.not_lt_zero _), fun ts => ?_⟩
    rw [List.drop_zero, ← hpix, packedState, ← hp]
    rfl
  | succ k ih =>
    obtain ⟨m, hwf, hpacked, hrun⟩ := ih (by omega) (by omega)
    have hred : reds[k]? = some reds[k] := List.getElem?_eq_getElem _
    have hdrop : reds.drop k ++ later = reds[k] :: (reds.drop (k + 1) ++ later) := by
      rw [List.drop_eq_getElem_cons (by omega)]
      rfl
    have hx : (packAt k).x < Config.cols := Nat.mod_lt k (by decide)
    have hy : (packAt k).y < Config.rows := by simp only [packAt, Config.rows]; omega
    have hend : ¬((packAt k).x = 399 ∧ (packAt k).y = 239) := by simp only [packAt]; omega
    have hnext := hpacked.pixelStore (s := packedState s k m (reds.drop k ++ later) []) rfl hred hwf
    refine ⟨_, pixelStore_wf reds[k] (s := packedState s k m (reds.drop k ++ later) []) hwf hx hy, hnext, fun ts => ?_⟩
    have hstep := (step_cons (s := packedState s k m (reds.drop k ++ later) (.pixel :: ts)) rfl).trans
      (turnPixel_more (s := packedState s k m (reds.drop k ++ later) ts) rfl hx hy hdrop hend)
    rw [List.replicate_succ', List.append_assoc, List.singleton_append, runSteps_add (hrun (.pixel :: ts)) 1,
      runSteps_one hstep, pixelTaken]
    show Host.Outcome.next ((State.withBmp _ _).withPack (packNext (packAt k))) = _
    rw [packNext_packAt (by omega)]
    rfl

/-- A whole pack: 95999 pixels lead to the last one, which ends it. -/
theorem runSteps_pack {s : State} {reds later : List Nat} (hlen : reds.length = 96000) (hp : s.pack = packAt 0)
    (hm : Memory.wf s.bmp = true) (hpix : s.pixels = reds ++ later) :
    ∃ (m : List Host.Cell) (p : Pack), p.state = .pkIdle ∧
      (∀ k, k < 12000 → Memory.get m k = (packGroups bmpSize reds).getD k 0) ∧ ∀ ts : List Turn,
      runSteps 96000 (s.withTurns (List.replicate 96000 .pixel ++ ts)) = .next { s with
        bmp := m, pack := p, bmpValid := true, pixels := later, turns := ts
        out := { s.out with packResults := s.out.packResults ++ [.ok] } } := by
  obtain ⟨m, hwf, hpacked, hrun⟩ := runSteps_pixels hp hm hpix (le_refl 95999) (by omega)
  have hred : reds[95999]? = some reds[95999] := List.getElem?_eq_getElem _
  have hdrop : reds.drop 95999 ++ later = reds[95999] :: later := by
    rw [List.drop_eq_getElem_cons (by omega), List.drop_eq_nil_of_le (by omega)]
    rfl
  have hnext := hpacked.pixelStore (s := packedState s 95999 m (reds.drop 95999 ++ later) []) rfl hred hwf
  refine ⟨pixelStore reds[95999] (packedState s 95999 m (reds.drop 95999 ++ later) []), packNext (packAt 95999), rfl,
    fun k hk => ?_, fun ts => ?_⟩
  · have hk' : k < bmpSize := hk
    rw [packGroups_getD hk', ← packPart_eight]
    refine (hnext k (by omega)).trans ?_
    congr 1
    omega
  · have hstep := (step_cons (s := packedState s 95999 m (reds.drop 95999 ++ later) (.pixel :: ts)) rfl).trans
      (turnPixel_last (s := packedState s 95999 m (reds.drop 95999 ++ later) ts) rfl rfl rfl hdrop)
    rw [List.replicate_succ', List.append_assoc, List.singleton_append]
    exact (runSteps_add (hrun (.pixel :: ts)) 1).trans (runSteps_one hstep)

/-- Settles O38: the pack ends with its last pixel. -/
theorem packRunFillsBitmap : Obligations.PackRunFillsBitmap := by
  intro s ts reds later hlen hp hm hpix hts
  obtain ⟨m, p, hidle, hget, hrun⟩ := runSteps_pack hlen hp hm hpix
  have hs : s.withTurns (List.replicate 96000 .pixel ++ ts) = s := by
    rw [← hts]
    rfl
  exact ⟨_, (congrArg (runSteps 96000) hs).symm.trans (hrun ts), hidle, hget, rfl⟩

end Sys2Proof.Machine
end

section
/-! The families of 43_rle.md and 44_commands.md: the starts (R176), one step of the scan, and SER (R185). -/

namespace Sys2Proof.Machine

/-! ### The starts and the refusals (43_rle.md R176, 70_reset_and_hazards.md R279) -/

section
variable {s : State} {rest : List HostOp}

theorem turnHost_rleStart (h : s.host.prog = .rleStart :: rest) : turnHost s = hostRleStart rest s := by
  simp only [turnHost, h]

theorem turnHost_takeRecord (h : s.host.prog = .takeRecord :: rest) : turnHost s = .next (hostTakeRecord rest s) := by
  simp only [turnHost, h]

theorem turnArrive_full {b : Byte} {depth : Depth} (hd : s.par.fifoDepth = some depth)
    (hl : depth.val ≤ s.line.fifo.length) : turnArrive b s = .refused .rxFifoOverflow := by
  simp [turnArrive, hd, Nat.not_lt.2 hl]

end

/-- Settles O40: each start or arrival meets its own test. -/
theorem startsOnUndefinedStoreAreRefused : Obligations.StartsOnUndefinedStoreAreRefused := by
  intro s ts
  refine ⟨fun rest hts hp => ?_, fun rest w h hts hp hr => ?_, fun b depth hts hd hl => ?_⟩
  · rw [step_host hts, turnHost_rleStart (s := s.withTurns ts) hp]
    rfl
  · rw [step_host hts, turnHost_packStart (s := s.withTurns ts) hp]
    exact if_pos hr
  · rw [step_cons hts]
    exact turnArrive_full (s := s.withTurns ts) hd hl

/-! ### One step of the scan (43_rle.md R176) -/

section
variable {m : List Host.Cell} {r : Rle}

theorem stepRecords_blank (hr : r.r < 240) (hb : rowBlank (bmpRow m r.r) = true) : stepRecords m r = [] := by
  rw [stepRecords, if_pos hr, rleRecords, if_pos hb]

theorem stepRecords_ink (hr : r.r < 240) (hb : rowBlank (bmpRow m r.r) = false) :
    stepRecords m r = openRun r ++ [pixelRowRecord r.r (bmpRow m r.r)] := by
  rw [stepRecords, if_pos hr, rleRecords, if_neg (by simp [hb])]

theorem stepRecords_end (hr : r.r = 240) : stepRecords m r = openRun r := by
  rw [stepRecords, if_neg (by simp [hr])]

theorem rleAfterStep_row (hs : r.state = .rlScan) (hr : r.r < 240) :
    rleAfterStep m r = rleExamine (bmpRow m r.r) r := by
  simp only [rleAfterStep, hs]
  exact if_pos hr

theorem rleAfterStep_end (hs : r.state = .rlScan) (hr : r.r = 240) :
    rleAfterStep m r = { r with runOpen := false, state := .rlIdle } := by
  simp only [rleAfterStep, hs]
  exact if_neg (by simp [hr])

theorem donePulses_row (hr : r.r < 240) : donePulses r = 0 := if_neg fun h => Nat.not_le.2 hr h.2

theorem donePulses_end (hs : r.state = .rlScan) (hr : r.r = 240) : donePulses r = 1 := if_pos ⟨hs, hr.ge⟩

theorem rleExamine_ink {row : List Byte} (hb : rowBlank row = false) (r : Rle) :
    rleExamine row r = { r with runOpen := false, r := r.r + 1 } := if_neg (by simp [hb])

theorem rleExamine_opens {row : List Byte} (hb : rowBlank row = true) (ho : r.runOpen = false) :
    rleExamine row r = { r with runOpen := true, runStart := r.r, runCount := 1, r := r.r + 1 } := by
  simp [rleExamine, hb, ho]

theorem rleExamine_extends {row : List Byte} (hb : rowBlank row = true) (ho : r.runOpen = true) :
    rleExamine row r = { r with runCount := r.runCount + 1, r := r.r + 1 } := by
  simp [rleExamine, hb, ho]

end

section
variable {s : State}

/-- A step that emits nothing ends at once. -/
theorem turnScan_silent (hs : s.rle.state = .rlScan) (ho : s.recOut = []) (hr : s.rle.r ≤ 240)
    (hn : stepRecords s.bmp s.rle = []) : turnScan s = .next (rleEndStep s) := by
  simp [turnScan, hs, ho, Nat.not_lt.2 hr, hn]

/-- A step that emits records offers them. -/
theorem turnScan_offers (hs : s.rle.state = .rlScan) (ho : s.recOut = []) (hr : s.rle.r ≤ 240)
    (hn : stepRecords s.bmp s.rle ≠ []) : turnScan s = .next (s.withRecOut (stepRecords s.bmp s.rle)) := by
  simp [turnScan, hs, ho, Nat.not_lt.2 hr, hn]

theorem turnScan_held (hs : s.rle.state = .rlScan) (ho : s.recOut ≠ []) : turnScan s = .next s := by
  simp [turnScan, hs, ho]

/-- The end of the step at a row. -/
theorem rleEndStep_row (hs : s.rle.state = .rlScan) (hr : s.rle.r < 240) {r : Rle}
    (hrow : rleExamine (bmpRow s.bmp s.rle.r) s.rle = r) : rleEndStep s = s.withRle r := by
  rw [rleEndStep, rleAfterStep_row hs hr, donePulses_row hr, hrow]
  rfl

/-- The end of the step after the last row. -/
theorem rleEndStep_end (hs : s.rle.state = .rlScan) (hr : s.rle.r = 240) :
    rleEndStep s = (s.withRle { s.rle with runOpen := false, state := .rlIdle }).withOut
      { s.out with rleDones := s.out.rleDones + 1 } := by
  rw [rleEndStep, rleAfterStep_end hs hr, donePulses_end hs hr]

theorem hostTakeRecord_of_cons {record : Record} {rest : List Record} (h : s.recOut = record :: rest)
    (prog : List HostOp) : hostTakeRecord prog s = hostPop prog (takeRecord s) := by
  simp [hostTakeRecord, h]

end

/-- Settles O41: the step's records decide whether it ends at once, and its end is the row's or the bitmap's. -/
theorem scanStep : Obligations.ScanStep := by
  rintro s ts _ hs rfl
  refine ⟨fun hts ho => ⟨fun hr hb hopen => ?_, fun hr hb hopen => ?_, fun hr hb => ?_, fun hr hopen => ?_,
    fun hr hopen => ?_⟩, fun hts ho => ?_, fun record rest prog hts hp ho => ?_⟩
  · rw [step_cons hts]
    refine (turnScan_silent (s := s.withTurns ts) hs ho hr.le (stepRecords_blank hr hb)).trans ?_
    rw [rleEndStep_row (s := s.withTurns ts) hs hr (rleExamine_opens hb hopen)]
    rfl
  · rw [step_cons hts]
    refine (turnScan_silent (s := s.withTurns ts) hs ho hr.le (stepRecords_blank hr hb)).trans ?_
    rw [rleEndStep_row (s := s.withTurns ts) hs hr (rleExamine_extends hb hopen)]
    rfl
  · have hrec := stepRecords_ink hr hb
    rw [step_cons hts]
    refine (turnScan_offers (s := s.withTurns ts) hs ho hr.le (by simp [hrec])).trans ?_
    simp only [State.withTurns_bmp, State.withTurns_rle, hrec]
    rfl
  · have hrec := stepRecords_end (m := s.bmp) hr
    rw [step_cons hts]
    refine (turnScan_offers (s := s.withTurns ts) hs ho hr.le (by simp [hrec, openRun, hopen])).trans ?_
    simp only [State.withTurns_bmp, State.withTurns_rle, hrec]
    rfl
  · have hrec : stepRecords s.bmp s.rle = [] := (stepRecords_end hr).trans (by simp [openRun, hopen])
    rw [step_cons hts]
    refine (turnScan_silent (s := s.withTurns ts) hs ho hr.le hrec).trans ?_
    rw [rleEndStep_end (s := s.withTurns ts) hs hr, ← hopen]
    rfl
  · rw [step_cons hts]
    exact turnScan_held (s := s.withTurns ts) hs ho
  · have hstep : step s = .next (hostPop prog (takeRecord (s.withTurns ts))) := by
      rw [step_host hts, turnHost_takeRecord (s := s.withTurns ts) hp,
        hostTakeRecord_of_cons (s := s.withTurns ts) ho]
    refine ⟨fun hne => ?_, fun hnil hr hb => ?_, fun hnil hr => ?_⟩
    · rw [hstep, takeRecord_more (s := s.withTurns ts) ho hne]
      rfl
    · subst hnil
      rw [hstep, takeRecord_last (s := s.withTurns ts) ho]
      have hend := rleEndStep_row (s := ((s.withTurns ts).withRecOut []).withOut
        { s.out with records := s.out.records ++ [record] }) hs hr (rleExamine_ink hb _)
      exact congrArg (fun u => Host.Outcome.next (hostPop prog u)) hend
    · subst hnil
      rw [hstep, takeRecord_last (s := s.withTurns ts) ho]
      have hend := rleEndStep_end (s := ((s.withTurns ts).withRecOut []).withOut
        { s.out with records := s.out.records ++ [record] }) hs hr
      exact congrArg (fun u => Host.Outcome.next (hostPop prog u)) hend

/-! ### SER (44_commands.md R185) -/

/-- The pair of a well-formed record is accepted. -/
theorem serialise_length_le {record : Record} (h : record.wf = true) : (serialise record).2.length ≤ Config.maxLen := by
  cases record with
  | blankRun start count => simp [serialise, blankRowsPayload, Config.maxLen]
  | pixelRow row bits rep packed =>
    have hlen : packed.length = 50 := by
      simp only [Record.wf, Bool.and_eq_true, beq_iff_eq] at h
      exact h.2
    simp [serialise, pixelRowPayload, pixelRowHeader, hlen, Config.maxLen]

theorem turnSer_idle {s : State} {record : Record} {rest : List Record} (ho : s.recOut = record :: rest)
    (hi : s.tx.state = .txIdle) : turnSer s = txRequest (serialise record).1 (serialise record).2 (takeRecord s) := by
  simp only [turnSer, ho]
  exact if_pos hi

theorem turnSer_held {s : State} (hi : s.tx.state ≠ .txIdle) : turnSer s = .next s := by
  unfold turnSer
  split
  · rfl
  · exact if_neg hi

/-- Settles O45: an idle TXF accepts the pair, and the record that leaves may be the last of its step or not. -/
theorem serialiserSendsRecord : Obligations.SerialiserSendsRecord := by
  refine ⟨fun _ _ => rfl, fun _ _ _ _ => rfl, fun s ts record rest hts ho hwf => ?_⟩
  rw [step_cons hts]
  by_cases hi : s.tx.state = .txIdle
  · have hser := turnSer_idle (s := s.withTurns ts) ho hi
    rw [if_pos hi]
    refine hser.trans ((txRequest_idle (by simpa using hi) _ (serialise_length_le hwf)).trans ?_)
    by_cases hnil : rest = []
    · subst hnil
      rw [takeRecord_last (s := s.withTurns ts) ho, if_pos rfl, if_pos rfl]
      rfl
    · rw [takeRecord_more (s := s.withTurns ts) ho hnil, if_neg hnil, if_neg hnil]
      rfl
  · rw [if_neg hi]
    exact turnSer_held (s := s.withTurns ts) hi

end Sys2Proof.Machine
end

section
/-! The family of 43_rle.md: the records of a bitmap (R171 to R173) and the commands they become (44_commands.md R185). -/

namespace Sys2Proof.Machine

/-! ### The records of the loop (R165) -/

/-- The open run, if there is one, is not empty and covers the rows just before row `r`. -/
def RunCovers (r : Nat) : Option (Nat × Nat) → Prop
  | none => True
  | some (start, count) => 1 ≤ count ∧ start + count = r

/-- The first row that the loop has not closed: the open run's, or row `r`. -/
def runStart (r : Nat) : Option (Nat × Nat) → Nat
  | none => r
  | some (start, _) => start

section
variable {r : Nat} {run : Option (Nat × Nat)}

theorem RunCovers.extendRun (h : RunCovers r run) : RunCovers (r + 1) (some (extendRun r run)) := by
  cases run with
  | none => exact ⟨le_refl 1, rfl⟩
  | some p => exact ⟨Nat.le_add_left 1 _, congrArg (· + 1) h.2⟩

theorem runStart_extendRun (r : Nat) (run : Option (Nat × Nat)) :
    runStart (r + 1) (some (extendRun r run)) = runStart r run := by
  cases run <;> rfl

theorem RunCovers.runStart_le (h : RunCovers r run) : runStart r run ≤ r := by
  cases run with
  | none => exact le_refl r
  | some p =>
    have h := h.2
    simp only [runStart]
    omega

theorem row_blankRunRecord {start : Nat} (h : start ≤ Config.rows) (count : Nat) :
    (blankRunRecord start count).row = start := by
  simp only [blankRunRecord, Record.row, BitVec.toNat_ofNat, Config.rows] at *
  omega

theorem row_pixelRowRecord (h : r ≤ Config.rows) (row : List Byte) : (pixelRowRecord r row).row = r := by
  simp only [pixelRowRecord, Record.row, BitVec.toNat_ofNat, Config.rows] at *
  omega

/-- The record that closes a run: it begins where the run does, before row `r`, and is well formed. -/
theorem RunCovers.runRecords (h : RunCovers r run) (hr : r ≤ Config.rows) :
    ∀ x ∈ runRecords run, x.row = runStart r run ∧ x.row < r ∧ x.wf = true := by
  intro x hx
  cases run with
  | none => exact nomatch hx
  | some p =>
    obtain ⟨start, count⟩ := p
    obtain ⟨hcount, hend⟩ : 1 ≤ count ∧ start + count = r := h
    obtain rfl := List.mem_singleton.1 hx
    rw [row_blankRunRecord (by omega)]
    exact ⟨rfl, by omega, blankRunRecord_wf hcount (by omega)⟩

theorem runRecords_length_le (run : Option (Nat × Nat)) : (runRecords run).length ≤ 1 := by
  cases run with
  | none => exact Nat.zero_le 1
  | some p => exact le_refl 1

/-- What holds of the records the loop emits from row `r` on. -/
structure RecordsFrom (r : Nat) (run : Option (Nat × Nat)) (count : Nat) (records : List Record) : Prop where
  rising : records.Pairwise (fun a b => a.row < b.row)
  first : ∀ x ∈ records, runStart r run ≤ x.row
  head : run ≠ none ∨ count ≠ 0 → records.head?.map Record.row = some (runStart r run)
  wf : ∀ x ∈ records, x.wf = true
  maximal : records.IsChain (fun a b => ¬(a.isBlank = true ∧ b.isBlank = true))
  length : records.length ≤ count + (runRecords run).length

theorem recordsFrom_nil (h : RunCovers r run) (hr : r ≤ Config.rows) : RecordsFrom r run 0 (runRecords run) := by
  have hrec := h.runRecords hr
  cases run with
  | none => exact ⟨.nil, by simp [Machine.runRecords], by simp, by simp [Machine.runRecords], .nil, le_refl _⟩
  | some p =>
    obtain ⟨hrow, -, hwf⟩ := hrec _ (List.mem_singleton.2 rfl)
    refine ⟨List.pairwise_singleton _ _, ?_, fun _ => congrArg some hrow, ?_, .singleton _, le_refl _⟩
    · intro x hx
      rw [List.mem_singleton.1 hx, hrow]
    · intro x hx
      rwa [List.mem_singleton.1 hx]

/-- A blank row changes no record, only where they begin. -/
theorem RecordsFrom.of_extendRun {count : Nat} {records : List Record}
    (h : RecordsFrom (r + 1) (some (extendRun r run)) count records) : RecordsFrom r run (count + 1) records where
  rising := h.rising
  first x hx := runStart_extendRun r run ▸ h.first x hx
  head _ := runStart_extendRun r run ▸ h.head (.inl (Option.some_ne_none _))
  wf := h.wf
  maximal := h.maximal
  length := by
    have hlen : (Machine.runRecords (some (extendRun r run))).length = 1 := rfl
    have := h.length
    omega

/-- A row that is not blank closes the run and adds its own record. -/
theorem RecordsFrom.ink {count : Nat} {records : List Record} {row : List Byte} (hcov : RunCovers r run)
    (hr : r < Config.rows) (hl : row.length = Config.rowBytes) (hb : rowBlank row = false)
    (h : RecordsFrom (r + 1) none count records) :
    RecordsFrom r run (count + 1) (Machine.runRecords run ++ pixelRowRecord r row :: records) := by
  have hrun := hcov.runRecords hr.le
  have hrow : (pixelRowRecord r row).row = r := row_pixelRowRecord hr.le row
  have hlater : ∀ x ∈ records, r < x.row := h.first
  refine ⟨?_, ?_, ?_, ?_, ?_, ?_⟩
  · refine List.pairwise_append.2 ⟨?_, List.pairwise_cons.2 ⟨fun x hx => hrow.trans_lt (hlater x hx), h.rising⟩, ?_⟩
    · cases run <;> simp [Machine.runRecords]
    · intro x hx y hy
      obtain ⟨-, hlt, -⟩ := hrun x hx
      obtain rfl | hy := List.mem_cons.1 hy
      · rwa [hrow]
      · exact hlt.trans (hlater y hy)
  · intro x hx
    obtain hx | hx := List.mem_append.1 hx
    · exact (hrun x hx).1.ge
    · obtain rfl | hx := List.mem_cons.1 hx
      · exact hcov.runStart_le.trans_eq hrow.symm
      · exact hcov.runStart_le.trans (hlater x hx).le
  · intro _
    cases run with
    | none => exact congrArg some hrow
    | some p => exact congrArg some (hrun _ (List.mem_singleton.2 rfl)).1
  · intro x hx
    obtain hx | hx := List.mem_append.1 hx
    · exact (hrun x hx).2.2
    · obtain rfl | hx := List.mem_cons.1 hx
      · exact pixelRowRecord_wf hr hl hb
      · exact h.wf x hx
  · have hpixel : (pixelRowRecord r row).isBlank = false := rfl
    have htail : (pixelRowRecord r row :: records).IsChain (fun a b => ¬(a.isBlank = true ∧ b.isBlank = true)) := by
      refine List.isChain_cons.2 ⟨fun y _ => by simp [hpixel], h.maximal⟩
    cases run with
    | none => exact htail
    | some p => exact List.isChain_cons_cons.2 ⟨by simp [hpixel], htail⟩
  · have := h.length
    simp only [List.length_append, List.length_cons, Machine.runRecords, List.length_nil] at this ⊢
    omega

theorem recordsFrom_compressFrom {rows : List (List Byte)} (hlen : ∀ row ∈ rows, row.length = Config.rowBytes)
    (h : RunCovers r run) (hr : r + rows.length ≤ Config.rows) :
    RecordsFrom r run rows.length (compressFrom r run rows) := by
  induction rows generalizing r run with
  | nil =>
    rw [compressFrom_nil]
    exact recordsFrom_nil h hr
  | cons row rows ih =>
    obtain ⟨hrow, hrest⟩ := List.forall_mem_cons.1 hlen
    rw [List.length_cons] at hr ⊢
    cases hb : rowBlank row with
    | true =>
      rw [compressFrom_cons_blank hb]
      exact (ih hrest h.extendRun (by omega)).of_extendRun
    | false =>
      rw [compressFrom_cons_ink hb]
      exact .ink h (by omega) hrow hb (ih hrest (run := none) trivial (by omega))

theorem recordsFrom_compress {rows : List (List Byte)} (hcount : rows.length = 240)
    (hlen : ∀ row ∈ rows, row.length = 50) :
    RecordsFrom 0 none 240 (compress rows) :=
  hcount ▸ recordsFrom_compressFrom hlen (run := none) trivial (by simp [hcount, Config.rows])

end

/-- Settles O43: the loop's records from row 0 with no run open. -/
theorem recordsAreOrderedAndMaximal : Obligations.RecordsAreOrderedAndMaximal := by
  intro rows hcount hlen
  have h := recordsFrom_compress hcount hlen
  have hhead := h.head (.inr (by decide))
  refine ⟨h.rising, hhead, h.wf, fun k a b ha hb => ?_, ?_, h.length⟩
  · obtain ⟨hk, rfl⟩ := List.getElem?_eq_some_iff.1 hb
    obtain ⟨-, rfl⟩ := List.getElem?_eq_some_iff.1 ha
    exact h.maximal.getElem k hk
  · rcases hc : compress rows with _ | ⟨x, xs⟩
    · simp [hc] at hhead
    · simp

/-! ### The commands of the row stream (44_commands.md R185, R192, R193) -/

/-- A well-formed record is sent as a well-formed command with operands in range. -/
theorem serialise_inProtocol {record : Record} (h : record.wf = true) :
    ∃ i : Instr, i.wf = true ∧ i.inProtocol = true ∧ (i.mnemonic = "blank-rows" ∨ i.mnemonic = "pixel-row") ∧
      serialise record = (i.cmd, i.payload) := by
  cases record with
  | blankRun start count =>
    refine ⟨.blankRows start count, rfl, ?_, .inl rfl, rfl⟩
    simp only [Record.wf, Config.rows, decide_eq_true_eq] at h
    simp only [Instr.inProtocol, decide_eq_true_eq]
    omega
  | pixelRow row bits rep packed =>
    simp only [Record.wf, Config.rows, Config.cols, Bool.and_eq_true, decide_eq_true_eq] at h
    obtain ⟨⟨⟨hrow, -, hpos, hmax⟩, hrep⟩, hlen⟩ := h
    refine ⟨.pixelRow row bits rep packed, hlen, ?_, .inr rfl, rfl⟩
    simp only [Instr.inProtocol, Bool.and_eq_true, decide_eq_true_eq]
    exact ⟨⟨⟨by omega, hpos, hmax⟩, hrep⟩, hlen⟩

/-- Settles O46: every record of a bitmap is well formed. -/
theorem rowStreamIsInProtocol : Obligations.RowStreamIsInProtocol := fun _ hcount hlen r hr =>
  serialise_inProtocol ((recordsFrom_compress hcount hlen).wf r hr)

end Sys2Proof.Machine
end

section
/-! The family of 43_rle.md, R177: a whole scan whose records the host takes as they are offered. -/

namespace Sys2Proof.Machine

/-! ### The host takes what is offered -/

section
variable {s : State} {ts : List Turn} {prog : List HostOp}

/-- With nothing offered the host waits. -/
theorem step_take_held (hts : s.turns = .host :: ts) (hp : s.host.prog = .takeRecord :: prog) (ho : s.recOut = []) :
    step s = .next (s.withTurns ts) := by
  rw [step_host hts, turnHost_takeRecord (s := s.withTurns ts) hp]
  simp [hostTakeRecord, ho]

/-- A record is taken. -/
theorem step_take (hts : s.turns = .host :: ts) (hp : s.host.prog = .takeRecord :: prog) (ho : s.recOut ≠ []) :
    step s = .next (hostPop prog (takeRecord (s.withTurns ts))) := by
  obtain ⟨record, rest, ho⟩ := List.exists_cons_of_ne_nil ho
  rw [step_host hts, turnHost_takeRecord (s := s.withTurns ts) hp, hostTakeRecord_of_cons (s := s.withTurns ts) ho]

theorem runSteps_take_held {n : Nat} (hts : s.turns = List.replicate n .host ++ ts)
    (hp : s.host.prog = .takeRecord :: prog) (ho : s.recOut = []) : runSteps n s = .next (s.withTurns ts) := by
  induction n generalizing s with
  | zero =>
    obtain rfl : s.turns = ts := by simpa using hts
    rfl
  | succ n ih =>
    rw [runSteps_succ (step_take_held (ts := List.replicate n .host ++ ts) hts hp ho)]
    exact ih (s := s.withTurns (List.replicate n .host ++ ts)) rfl hp ho

/-- The state when RLE's step has ended and its records have been taken. -/
def scanned (records : List Record) (prog : List HostOp) (ts : List Turn) (s : State) : State :=
  { s with
    rle := rleAfterStep s.bmp s.rle, recOut := [], turns := ts, host := { s.host with prog := prog }
    out := { s.out with records := s.out.records ++ records, rleDones := s.out.rleDones + donePulses s.rle } }

/-- The host takes the offered records one by one; with the last RLE's step ends, and then the host waits. -/
theorem runSteps_take {records : List Record} {n extra : Nat} (hne : records ≠ []) (hn : records.length ≤ n)
    (hts : s.turns = List.replicate n .host ++ ts)
    (hp : s.host.prog = List.replicate (records.length + (extra + 1)) .takeRecord ++ prog) (ho : s.recOut = records) :
    runSteps n s = .next (scanned records (List.replicate (extra + 1) .takeRecord ++ prog) ts s) := by
  induction records generalizing s n with
  | nil => exact absurd rfl hne
  | cons record rest ih =>
    obtain ⟨n, rfl⟩ : ∃ k, n = k + 1 := ⟨n - 1, by simp only [List.length_cons] at hn; omega⟩
    have hn' : rest.length ≤ n := Nat.le_of_succ_le_succ hn
    have hp' : s.host.prog = .takeRecord :: (List.replicate (rest.length + (extra + 1)) .takeRecord ++ prog) := by
      rw [hp, List.length_cons, Nat.succ_add, List.replicate_succ]
      rfl
    rw [runSteps_succ (step_take (ts := List.replicate n .host ++ ts) hts hp' (by simp [ho]))]
    rcases rest with _ | ⟨x, rest⟩
    · have hlast := takeRecord_last (s := s.withTurns (List.replicate n .host ++ ts)) ho
      have hp'' : List.replicate (([] : List Record).length + (extra + 1)) HostOp.takeRecord ++ prog =
          .takeRecord :: (List.replicate extra .takeRecord ++ prog) := by
        rw [List.length_nil, Nat.zero_add, List.replicate_succ]
        rfl
      rw [hlast, hp'', runSteps_take_held (ts := ts) (prog := List.replicate extra .takeRecord ++ prog) rfl rfl rfl]
      rfl
    · have hmore := takeRecord_more (s := s.withTurns (List.replicate n .host ++ ts)) ho (List.cons_ne_nil x rest)
      rw [hmore, ih (List.cons_ne_nil x rest) hn' rfl rfl rfl]
      simp [scanned, hostPop, State.withProg, State.withHost, State.withOut, State.withRecOut, State.withTurns]

/-! ### One step of the scan with its records taken (R176) -/

theorem runSteps_scan {n extra : Nat} (hs : s.rle.state = .rlScan) (hr : s.rle.r ≤ 240) (ho : s.recOut = [])
    (hn : (stepRecords s.bmp s.rle).length ≤ n) (hts : s.turns = .scan :: (List.replicate n .host ++ ts))
    (hp : s.host.prog =
      List.replicate ((stepRecords s.bmp s.rle).length + (extra + 1)) .takeRecord ++ prog) :
    runSteps (n + 1) s =
      .next (scanned (stepRecords s.bmp s.rle) (List.replicate (extra + 1) .takeRecord ++ prog) ts s) := by
  by_cases hnil : stepRecords s.bmp s.rle = []
  · have hstep := (step_cons hts).trans
      (turnScan_silent (s := s.withTurns (List.replicate n Turn.host ++ ts)) hs ho hr hnil)
    rw [hnil, List.length_nil, Nat.zero_add] at hp
    have hp' : (rleEndStep (s.withTurns (List.replicate n Turn.host ++ ts))).host.prog =
        .takeRecord :: (List.replicate extra .takeRecord ++ prog) := hp
    rw [runSteps_succ hstep, runSteps_take_held rfl hp' ho, hnil]
    simp [scanned, rleEndStep, State.withOut, State.withRle, State.withTurns, ← hp, ← ho]
  · have hstep := (step_cons hts).trans
      (turnScan_offers (s := s.withTurns (List.replicate n Turn.host ++ ts)) hs ho hr hnil)
    rw [runSteps_succ hstep]
    exact runSteps_take
      (s := (s.withTurns (List.replicate n Turn.host ++ ts)).withRecOut (stepRecords s.bmp s.rle)) hnil hn rfl hp rfl

end

/-! ### The loop of `compress`, step by step (R165) -/

/-- RLE's open run as the loop of `compress` holds it. -/
def Rle.run (r : Rle) : Option (Nat × Nat) := if r.runOpen then some (r.runStart, r.runCount) else none

theorem runRecords_run (r : Rle) : runRecords r.run = openRun r := by
  unfold Rle.run openRun
  split_ifs
  · rfl
  · rfl

theorem stepRecords_length_le (m : List Host.Cell) (r : Rle) : (stepRecords m r).length ≤ 2 := by
  have ho : (openRun r).length ≤ 1 := runRecords_run r ▸ runRecords_length_le r.run
  unfold stepRecords rleRecords
  split_ifs
  · exact Nat.zero_le 2
  · rw [List.length_append, List.length_singleton]
    omega
  · omega

/-- A step emits what the loop emits at that row, and leaves the run that the loop goes on with. -/
theorem compressFrom_step {m : List Host.Cell} {r : Rle} (hs : r.state = .rlScan) (hr : r.r < 240)
    (rows : List (List Byte)) :
    compressFrom r.r r.run (bmpRow m r.r :: rows) =
      stepRecords m r ++ compressFrom (rleAfterStep m r).r (rleAfterStep m r).run rows := by
  rw [rleAfterStep_row hs hr]
  cases hb : rowBlank (bmpRow m r.r) with
  | true =>
    rw [compressFrom_cons_blank hb, stepRecords_blank hr hb]
    cases ho : r.runOpen with
    | true =>
      rw [rleExamine_extends hb ho]
      simp [Rle.run, ho, extendRun]
    | false =>
      rw [rleExamine_opens hb ho]
      simp [Rle.run, ho, extendRun]
  | false =>
    rw [compressFrom_cons_ink hb, stepRecords_ink hr hb, runRecords_run, rleExamine_ink hb]
    simp [Rle.run]

/-! ### The whole scan -/

/-- The rows from number `r` on. -/
def rowsFrom (m : List Host.Cell) (r n : Nat) : List (List Byte) := (List.range' r n).map (bmpRow m)

theorem rowsFrom_succ (m : List Host.Cell) (r n : Nat) : rowsFrom m r (n + 1) = bmpRow m r :: rowsFrom m (r + 1) n := by
  rw [rowsFrom, List.range'_succ, List.map_cons, rowsFrom]

theorem bmpRows_eq (m : List Host.Cell) : bmpRows m = rowsFrom m 0 240 := by
  rw [bmpRows, rowsFrom, List.range_eq_range']

theorem rleAfterStep_next {m : List Host.Cell} {r : Rle} (hs : r.state = .rlScan) (hr : r.r < 240) :
    (rleAfterStep m r).state = .rlScan ∧ (rleAfterStep m r).r = r.r + 1 := by
  rw [rleAfterStep_row hs hr]
  unfold rleExamine
  split_ifs
  · exact ⟨hs, rfl⟩
  · exact ⟨hs, rfl⟩
  · exact ⟨hs, rfl⟩

/-- The turns of a scan of `n` rows: one of RLE's and two of the host's for each row, then one of each. -/
def scanTurns (n : Nat) (ts : List Turn) : List Turn :=
  (List.replicate n [Turn.scan, .host, .host]).flatten ++ [.scan, .host] ++ ts

theorem scanTurns_succ (n : Nat) (ts : List Turn) :
    scanTurns (n + 1) ts = .scan :: (List.replicate 2 .host ++ scanTurns n ts) := rfl

/-- From any row on, the records taken are those of the loop, and the scan ends with one `rle_done`. -/
theorem runSteps_scanFrom {n extra : Nat} {s : State} {ts : List Turn} {prog : List HostOp} {records : List Record}
    (hs : s.rle.state = .rlScan) (hr : s.rle.r + n = 240) (ho : s.recOut = [])
    (hrec : compressFrom s.rle.r s.rle.run (rowsFrom s.bmp s.rle.r n) = records) (hts : s.turns = scanTurns n ts)
    (hp : s.host.prog = List.replicate (records.length + (extra + 1)) .takeRecord ++ prog) :
    ∃ r : Rle, r.state = .rlIdle ∧ runSteps (3 * n + 2) s = .next { s with
      rle := r
      turns := ts
      host := { s.host with prog := List.replicate (extra + 1) .takeRecord ++ prog }
      out := { s.out with records := s.out.records ++ records, rleDones := s.out.rleDones + 1 } } := by
  induction n generalizing s records with
  | zero =>
    have hstep : stepRecords s.bmp s.rle = records := by
      rw [stepRecords_end hr, ← hrec, ← runRecords_run]
      exact (compressFrom_nil _ _).symm
    have hlen : (stepRecords s.bmp s.rle).length ≤ 1 := by
      rw [stepRecords_end hr, ← runRecords_run]
      exact runRecords_length_le _
    refine ⟨_, ?_, (runSteps_scan hs hr.le ho hlen hts (hstep ▸ hp)).trans
      (congrArg Host.Outcome.next (a₂ := { s with
        rle := rleAfterStep s.bmp s.rle
        turns := ts
        host := { s.host with prog := List.replicate (extra + 1) HostOp.takeRecord ++ prog }
        out := { s.out with records := s.out.records ++ records, rleDones := s.out.rleDones + 1 } }) ?_)⟩
    · rw [rleAfterStep_end hs hr]
    · rw [scanned, donePulses_end hs hr, hstep, ← ho]
  | succ n ih =>
    have hlt : s.rle.r < 240 := by omega
    obtain ⟨hnext, hrow⟩ := rleAfterStep_next (m := s.bmp) hs hlt
    rw [rowsFrom_succ, compressFrom_step hs hlt, ← hrow] at hrec
    generalize hlater : compressFrom _ _ (rowsFrom s.bmp (rleAfterStep s.bmp s.rle).r n) = later at hrec
    subst hrec
    rw [List.length_append] at hp
    have hscan := runSteps_scan (n := 2) (extra := later.length + extra) (ts := scanTurns n ts) (prog := prog)
      hs hlt.le ho (stepRecords_length_le _ _) hts (by rw [hp]; congr 2; omega)
    obtain ⟨r, hidle, hrun⟩ := ih (s := scanned (stepRecords s.bmp s.rle)
        (List.replicate (later.length + extra + 1) HostOp.takeRecord ++ prog) (scanTurns n ts) s) (records := later)
      hnext (by show (rleAfterStep s.bmp s.rle).r + n = 240; omega) rfl hlater rfl rfl
    refine ⟨r, hidle, ?_⟩
    rw [show 3 * (n + 1) + 2 = (2 + 1) + (3 * n + 2) by omega, runSteps_add hscan, hrun]
    simp [scanned, donePulses_row hlt, ho]

/-- Settles O44: the loop of `compress` from row 0 with no run open. -/
theorem scanRunIsCompress : Obligations.ScanRunIsCompress := by
  intro s ts prog hs hr hopen ho hp hts
  have hrun : compressFrom s.rle.r s.rle.run (rowsFrom s.bmp s.rle.r 240) = compress (bmpRows s.bmp) := by
    rw [hr, bmpRows_eq, Rle.run, hopen]
    rfl
  have hlen : (compress (bmpRows s.bmp)).length ≤ 240 :=
    (recordsFrom_compress (by simp [bmpRows]) (by simp [bmpRows, bmpRow_length])).length
  obtain ⟨extra, hextra⟩ := Nat.exists_eq_add_of_le hlen
  obtain ⟨r, hidle, h⟩ := runSteps_scanFrom (extra := extra) hs (by omega) ho hrun hts
    (by rw [hp, ← Nat.add_assoc, ← hextra])
  rw [show 241 - (compress (bmpRows s.bmp)).length = extra + 1 by omega]
  exact ⟨_, h, hidle, rfl⟩

end Sys2Proof.Machine
end

section
/-! The family of 45_session.md: the host's operations, and the program of a session. -/

namespace Sys2Proof.Machine

/-! ### The host's turn, by the operation at the head of its program -/

section
variable {s : State} {rest : List HostOp}

theorem turnHost_txWait (h : s.host.prog = .txWait :: rest) : turnHost s = .next (hostTxWait rest s) := by
  simp only [turnHost, h]

theorem turnHost_finish (h : s.host.prog = .finish :: rest) : turnHost s = .next (hostFinish rest s) := by
  simp only [turnHost, h]

theorem turnHost_await {e : Expect} (h : s.host.prog = .await e :: rest) : turnHost s = .next (hostAwait e rest s) := by
  simp only [turnHost, h]

theorem turnHost_awaiting {e : Expect} {seen : Nat} (h : s.host.prog = .awaiting e seen :: rest) :
    turnHost s = .next (hostAwaiting e seen rest s) := by
  simp only [turnHost, h]

theorem turnHost_session {w h : Nat} (hp : s.host.prog = .session w h :: rest) :
    turnHost s = .next (hostBegin (sessionProgram s.par w h) rest s) := by
  simp only [turnHost, hp]

theorem turnHost_openPort (h : s.host.prog = .openPort :: rest) : turnHost s = .next (hostSetOpen true rest s) := by
  simp only [turnHost, h]

theorem turnHost_closePort (h : s.host.prog = .closePort :: rest) : turnHost s = .next (hostSetOpen false rest s) := by
  simp only [turnHost, h]

theorem turnHost_enter {phase : Phase} (h : s.host.prog = .enter phase :: rest) :
    turnHost s = .next (hostEnter phase rest s) := by
  simp only [turnHost, h]

theorem turnHost_pack {w h : Nat} (hp : s.host.prog = .pack w h :: rest) :
    turnHost s = hostPackStart w h (.packing s.out.packResults.length :: rest) s := by
  simp only [turnHost, hp]

theorem turnHost_packing {seen : Nat} (h : s.host.prog = .packing seen :: rest) :
    turnHost s = .next (hostPacking seen rest s) := by
  simp only [turnHost, h]

end

/-! ### Waiting for TXF and RXF (R221, R222) -/

section
variable {s : State} {rest : List HostOp}

theorem hostTxWait_eq (rest : List HostOp) (s : State) :
    hostTxWait rest s = if s.tx.state = .txIdle ∧ s.tx.cut = false then hostPop rest s else s := by
  obtain ⟨h, heq⟩ | ⟨h, heq⟩ := hostTxWait_cases rest s
  · rw [heq, if_pos ((handedOver_iff _).1 h)]
  · rw [heq, if_neg (mt (handedOver_iff _).2 (by simp [h]))]

theorem hostFinish_eq (rest : List HostOp) (s : State) :
    hostFinish rest s = if s.tx.state = .txIdle ∧ s.tx.cut = false then hostEnd .complete rest s else s := by
  obtain ⟨h, heq⟩ | ⟨h, heq⟩ := hostFinish_cases rest s
  · rw [heq, if_pos ((handedOver_iff _).1 h)]
  · rw [heq, if_neg (mt (handedOver_iff _).2 (by simp [h]))]

/-- While a frame is in progress the run is not over. -/
theorem sessionOver_of_sending (h : s.tx.state ≠ .txIdle) : s.sessionOver = false := by
  simp [State.sessionOver, State.runOver, h]

/-- With all units at rest and S10's frame handed over whole the session is over. -/
theorem sessionOver_finish (hp : s.host.prog = .finish :: rest) (htx : s.tx.handedOver = true)
    (hrx : s.rx.state.resting = true) (hpack : s.pack.state = .pkIdle) (hrle : s.rle.state = .rlIdle)
    (ho : s.recOut = []) : s.sessionOver = true := by
  have hrun : s.runOver = true := by
    simp [State.runOver, ((handedOver_iff _).1 htx).1, hrx, hpack, hrle, ho, hp]
  have hend : s.sessionEnd.isSome = true := by
    rw [State.sessionEnd, dueEnd_finish hp, if_pos htx]
    cases s.host.ended <;> rfl
  rw [State.sessionOver, hrun, hend]
  rfl

/-- Settles O48: each wait goes on at its condition, and the last trailer byte leaves TXF idle and its frame uncut. -/
theorem awaitWaitsForSender : Obligations.AwaitWaitsForSender := by
  refine ⟨fun s ts rest hts hp => ?_, fun s ts rest hts hp => ?_,
    fun s ts rest hts ho hinv hs hp hrx hpack hrle hrec => ?_, fun s ts rest e hts hp => ?_⟩
  · rw [step_host hts, turnHost_txWait (s := s.withTurns ts) hp, hostTxWait_eq]
    exact apply_ite Host.Outcome.next _ _ _
  · rw [step_host hts, turnHost_finish (s := s.withTurns ts) hp, hostFinish_eq]
    exact apply_ite Host.Outcome.next _ _ _
  · have hlast : txAdvance Config.trl s.tx = { s.tx with state := .txIdle } := by simp only [txAdvance, hs]
    have hcut : s.tx.cut = false := by
      simp only [Txf.Inv, hs] at hinv
      exact hinv.1.2.2
    have hstep := step_takeTx (b := Config.trl) hts ho (by simp only [txOffer, hs])
    refine ⟨sessionOver_of_sending (by simp [hs]), _, hstep, ?_⟩
    exact sessionOver_finish hp ((handedOver_iff _).2 ⟨congrArg Txf.state hlast, (congrArg Txf.cut hlast).trans hcut⟩)
      hrx hpack hrle hrec
  · rw [step_host hts, turnHost_await (s := s.withTurns ts) hp]
    exact apply_ite Host.Outcome.next _ _ _

end

/-! ### What the host does with a result (R212, R220, R222 to R225) -/

section
variable {s : State} {rest : List HostOp} {ts : List Turn} {e : Expect} {seen : Nat}

/-- The host's registers after a response has been read. -/
def HostSide.read (e : Expect) (payload : List Byte) (rest : List HostOp) (h : HostSide) : HostSide :=
  match e with
  | .any => { h with prog := rest }
  | .ack => { h with prog := rest, ack := ackByte payload }
  | .status => { h with prog := rest, status := statusFields payload }

/-- On `Ok` the host reads the response and goes on. -/
theorem step_awaiting_ok {cmd : Byte} {payload : List Byte} (hts : s.turns = .host :: ts)
    (hp : s.host.prog = .awaiting e seen :: rest) (hr : s.out.rxResults[seen]? = some (.ok cmd payload)) :
    step s = .next { s with turns := ts, host := s.host.read e payload rest } := by
  rw [step_host hts, turnHost_awaiting (s := s.withTurns ts) hp, hostAwaiting]
  simp only [State.withTurns_out, hr]
  cases e <;> rfl

/-- Settles O49: the failure is in the channel, and ON_ERROR decides. -/
theorem failedAwaitFollowsOnError : Obligations.FailedAwaitFollowsOnError := by
  intro s ts rest e seen kind hts hp hr
  have hstep : step s = .next (hostAwaiting e seen rest (s.withTurns ts)) := by
    rw [step_host hts, turnHost_awaiting (s := s.withTurns ts) hp]
  refine ⟨fun hc => ?_, fun ha => ⟨?_, ?_⟩⟩
  · simp only [hstep, hostAwaiting, State.withTurns_out, State.withTurns_par, hr, hc]
    rfl
  · rw [State.sessionEnd, dueEnd_awaiting hp hr ha]
    cases s.host.ended <;> rfl
  · simp only [hstep, hostAwaiting, State.withTurns_out, State.withTurns_par, hr, ha]
    rfl

theorem fromBe16_toNat (h l : Byte) : (fromBe16 h l).toNat = 256 * h.toNat + l.toNat := by
  rw [fromBe16, BitVec.toNat_ofNat, Nat.mod_eq_of_lt (by omega)]

theorem statusFields_eq_none {payload : List Byte} (h : payload.length ≠ 10) : statusFields payload = none := by
  unfold statusFields
  split
  · exact absurd rfl h
  · rfl

theorem ackByte_eq_none {payload : List Byte} (h : payload.length ≠ 1) : ackByte payload = none := by
  unfold ackByte
  split
  · exact absurd rfl h
  · rfl

/-- Settles O50: the five fields are those of `statusFields`. -/
theorem statusPollReadsFiveFields : Obligations.StatusPollReadsFiveFields := by
  intro s ts rest seen cmd payload hts hp hr
  refine ⟨statusFields payload, step_awaiting_ok hts hp hr, statusFields_eq_none, ?_⟩
  rintro p0 p1 p2 p3 p4 p5 p6 p7 p8 p9 rfl
  simp only [statusFields, Option.map_some, fromBe16_toNat]

/-- Settles O51: the byte is that of `ackByte`. -/
theorem ackByteIsData : Obligations.AckByteIsData := by
  intro s ts rest seen cmd payload hts hp hr
  refine ⟨ackByte payload, step_awaiting_ok hts hp hr, ackByte_eq_none, ?_⟩
  rintro b rfl
  rfl

end

/-! ### The precheck (R211) -/

theorem packBegin_badSize {w h : Nat} (hsize : ¬(w = 400 ∧ h = 240)) (s : State) :
    packBegin w h s = { s with
      bmpValid := false
      out := { s.out with packResults := s.out.packResults ++ [.fail .imageDimensionError] } } := by
  unfold packBegin
  rw [if_neg (mt (goodSize_iff w h).1 hsize)]
  rfl

theorem hostPacking_fail {s : State} {seen : Nat} {kind : ErrorKind} (h : s.out.packResults[seen]? = some (.fail kind))
    (rest : List HostOp) : hostPacking seen rest s = hostStop .imageDimensionError s := by
  simp only [hostPacking, h]

/-! ### The program of the session (R210 to R221) -/

/-- Steps S2 to S9 of the session: what stands between the precheck and S10's frame. -/
def sessionBody (par : Params) : List HostOp :=
  [.enter .setup, .offer (.setDensity par.density.val), .await .ack, .offer (.setLabelType par.labelType.val), .await .ack,
   .enter .printStart, .offer (.printStart (BitVec.ofNat 16 Config.pageCount) 0 0 0 0 0), .await .any]
  ++ pageProgram ++ [.enter .statusPoll] ++ (List.replicate 100 pollProgram).flatten ++ [.enter .printEnd]

/-- Steps S2 to S10 of the session. -/
def sessionAfterPack (par : Params) : List HostOp :=
  sessionBody par ++ [.offer (.printEnd Config.one), .finish, .closePort]

theorem sessionProgram_eq (par : Params) (w h : Nat) :
    sessionProgram par w h = .openPort :: .enter .precheck :: .pack w h :: sessionAfterPack par := by
  simp [sessionProgram, sessionAfterPack, sessionBody, Config.pageCount, Config.statusPollBound, -List.reduceReplicate]

/-! ### From the session's beginning to its pack -/

section
variable {s : State} {ts : List Turn} {rest : List HostOp}

theorem step_session {w h : Nat} (hp : s.host.prog = .session w h :: rest) (hts : s.turns = .host :: ts) :
    step s = .next { s with
      turns := ts, host := { s.host with prog := sessionProgram s.par w h ++ rest, ended := none } } :=
  (step_host hts).trans (turnHost_session (s := s.withTurns ts) hp)

theorem step_setOpen {v : Bool} (hp : s.host.prog = (if v then .openPort else .closePort) :: rest)
    (hts : s.turns = .host :: ts) :
    step s = .next { s with
      turns := ts, line := { s.line with isOpen := v }, host := { s.host with prog := rest } } := by
  cases v with
  | true => exact (step_host hts).trans (turnHost_openPort (s := s.withTurns ts) hp)
  | false => exact (step_host hts).trans (turnHost_closePort (s := s.withTurns ts) hp)

theorem step_enter {phase : Phase} (hp : s.host.prog = .enter phase :: rest) (hts : s.turns = .host :: ts) :
    step s = .next { s with turns := ts, host := { s.host with prog := rest, phase := phase } } :=
  (step_host hts).trans (turnHost_enter (s := s.withTurns ts) hp)

/-- Where the host goes on does not matter to PACK. -/
theorem packBegin_withProg (w h : Nat) (prog : List HostOp) (s : State) :
    packBegin w h (s.withProg prog) = (packBegin w h s).withProg prog := by
  unfold packBegin
  split_ifs
  · rfl
  · rfl

theorem step_pack {w h : Nat} (hrle : s.rle.state = .rlIdle) (hpack : s.pack.state = .pkIdle)
    (hp : s.host.prog = .pack w h :: rest) (hts : s.turns = .host :: ts) :
    step s = .next (packBegin w h { s with
      turns := ts, host := { s.host with prog := .packing s.out.packResults.length :: rest } }) := by
  rw [step_host hts, turnHost_pack (s := s.withTurns ts) hp,
    hostPackStart_taken (s := s.withTurns ts) w h _ hrle hpack, hostPop, ← packBegin_withProg]
  rfl

theorem step_packing_fail {seen : Nat} {kind : ErrorKind} (hp : s.host.prog = .packing seen :: rest)
    (hr : s.out.packResults[seen]? = some (.fail kind)) (hts : s.turns = .host :: ts) :
    step s = .next { s with
      turns := ts, host := { s.host with prog := [.closePort], ended := some .imageDimensionError } } := by
  rw [step_host hts, turnHost_packing (s := s.withTurns ts) hp, hostPacking_fail (s := s.withTurns ts) hr]
  rfl

theorem runSteps_cons {k : Nat} {s t u : State} (h : step s = .next t) (hrun : runSteps k t = .next u) :
    runSteps (k + 1) s = .next u := (runSteps_succ h k).trans hrun

/-- The host waits for `pack_result`, with the rest of the session and `rest` before it. -/
def inPrecheck (rest : List HostOp) (ts : List Turn) (s : State) : State :=
  { s with
    turns := ts, line := { s.line with isOpen := true }
    host := { s.host with
      prog := .packing s.out.packResults.length :: (sessionAfterPack s.par ++ rest), phase := .precheck, ended := none } }

/-- The first four turns of a session: it begins, the transport is acquired, the precheck entered, and `pack_start` taken. -/
theorem runSteps_precheck {w h : Nat} (hrle : s.rle.state = .rlIdle) (hpack : s.pack.state = .pkIdle)
    (hp : s.host.prog = .session w h :: rest) (hts : s.turns = List.replicate 4 .host ++ ts) :
    runSteps 4 s = .next (packBegin w h (inPrecheck rest ts s)) := by
  have hbegin := step_session (ts := List.replicate 3 Turn.host ++ ts) hp hts
  rw [sessionProgram_eq, List.cons_append, List.cons_append, List.cons_append] at hbegin
  rw [inPrecheck]
  generalize sessionAfterPack s.par ++ rest = program at hbegin ⊢
  exact runSteps_cons hbegin (runSteps_cons (step_setOpen (v := true) rfl rfl) (runSteps_cons (step_enter rfl rfl)
    (runSteps_one (step_pack hrle hpack rfl rfl))))

end

/-- Settles O52: the first four turns end with the failure on `pack_result`; the host stops, and releases the transport. -/
theorem wrongImageEndsSession : Obligations.WrongImageEndsSession := by
  intro s ts rest w h hsize hrle hpack hp hts
  have hfour := runSteps_precheck (ts := List.replicate 2 Turn.host ++ ts) hrle hpack hp hts
  rw [packBegin_badSize hsize, inPrecheck] at hfour
  generalize sessionAfterPack s.par ++ rest = program at hfour
  have hfail : (s.out.packResults ++ [PackResult.fail .imageDimensionError])[s.out.packResults.length]? =
      some (.fail .imageDimensionError) := by simp
  refine ⟨⟨_, hfour, ?_⟩, (runSteps_add hfour 2).trans ?_⟩
  · exact Option.none_or.trans (dueEnd_packing rfl hfail)
  · exact runSteps_cons (step_packing_fail rfl hfail rfl) (runSteps_one (step_setOpen (v := false) rfl rfl))

/-! ### The shape of the program -/

theorem pack_not_mem_sessionAfterPack (par : Params) (w h : Nat) : .pack w h ∉ sessionAfterPack par := by
  simp [sessionAfterPack, sessionBody, pageProgram, pollProgram, -List.reduceReplicate]

/-- The row stream is in the page's part of the program, and nowhere else. -/
theorem count_stream_sessionAfterPack (par : Params) : (sessionAfterPack par).count .stream = 1 := by
  have hpage : pageProgram.count .stream = 1 := by decide
  rw [sessionAfterPack, sessionBody]
  simp only [List.count_append, hpage]
  rw [List.count_eq_zero_of_not_mem (by simp), List.count_eq_zero_of_not_mem (by simp),
    List.count_eq_zero_of_not_mem (by simp [pollProgram, -List.reduceReplicate]), List.count_eq_zero_of_not_mem (by simp),
    List.count_eq_zero_of_not_mem (by simp)]

/-- Settles O53: the program is a fixed list but for the parameters, of which no count depends. -/
theorem sessionProgramShape : Obligations.SessionProgramShape := by
  intro par w h
  rw [sessionProgram_eq]
  refine ⟨?_, ?_, ?_, ?_, ?_⟩
  · simp [sessionAfterPack, sessionBody, pageProgram, pollProgram, List.filterMap_flatten, -List.reduceReplicate]
  · simp [sessionAfterPack, sessionBody, pageProgram, pollProgram, List.countP_flatten, -List.reduceReplicate]
  · simp [sessionAfterPack, sessionBody, pageProgram, pollProgram, List.countP_flatten, -List.reduceReplicate]
  · rw [List.count_cons_of_ne (by simp), List.count_cons_of_ne (by simp), List.count_cons_self,
      List.count_eq_zero_of_not_mem (pack_not_mem_sessionAfterPack par w h)]
  · rw [List.count_cons_of_ne (by simp), List.count_cons_of_ne (by simp), List.count_cons_of_ne (by simp),
      count_stream_sessionAfterPack]

/-- The requests the host offers itself. -/
theorem offer_mem_sessionProgram {par : Params} {w h : Nat} {i : Instr} (hi : .offer i ∈ sessionProgram par w h) :
    i ∈ [.setDensity par.density.val, .setLabelType par.labelType.val, .printStart 1 0 0 0 0 0, .pageStart Config.one,
      .setPageSize 240 400 Config.copies, .pageEnd Config.one, .statusPoll, .printEnd Config.one] := by
  simpa [sessionProgram_eq, sessionAfterPack, sessionBody, pageProgram, pollProgram, Config.pageCount,
    -List.reduceReplicate] using hi

/-- Settles O54: each request of the program is one of eight, and O1 gives its words. -/
theorem sessionRequestsAreInProtocol : Obligations.SessionRequestsAreInProtocol := by
  intro par w h i hi
  have hcmd : i.wf = true ∧ i.inProtocol = true := by
    have hmem := offer_mem_sessionProgram hi
    simp only [List.mem_cons, List.not_mem_nil, or_false] at hmem
    obtain rfl | rfl | rfl | rfl | rfl | rfl | rfl | rfl := hmem
    · exact ⟨rfl, decide_eq_true par.density.property⟩
    · exact ⟨rfl, decide_eq_true par.labelType.property⟩
    all_goals exact ⟨rfl, rfl⟩
  obtain ⟨words, henc, hdec⟩ := decodeOfEncode i [] hcmd.1
  exact ⟨hcmd.1, hcmd.2, words, henc, by simpa using hdec⟩

end Sys2Proof.Machine
end

section
/-! The family of 45_session.md, R231: what a schedule of one's choice can bring about, one unit at a time. -/

namespace Sys2Proof.Machine

/-! ### Runs under a chosen schedule -/

/-- Some turns, whatever comes after them, lead from `s` to `t`. -/
def Drives (s t : State) : Prop :=
  ∃ turns : List Turn, ∀ ts, runSteps turns.length (s.withTurns (turns ++ ts)) = .next (t.withTurns ts)

section
variable {s t u : State}

theorem Drives.refl (s : State) : Drives s s := ⟨[], fun _ => rfl⟩

theorem Drives.trans (h : Drives s t) (h' : Drives t u) : Drives s u := by
  obtain ⟨ts₁, h⟩ := h
  obtain ⟨ts₂, h'⟩ := h'
  refine ⟨ts₁ ++ ts₂, fun ts => ?_⟩
  rw [List.length_append, List.append_assoc, runSteps_add (h _), h']

theorem Drives.turn {turn : Turn} (h : ∀ ts, step (s.withTurns (turn :: ts)) = .next (t.withTurns ts)) : Drives s t :=
  ⟨[turn], fun ts => runSteps_one (h ts)⟩

theorem runSteps_inv {k : Nat} (h : runSteps k s = .next t) (hs : s.Inv) : t.Inv := by
  induction k generalizing s with
  | zero =>
    cases h
    exact hs
  | succ k ih =>
    obtain ⟨u, hstep, hrun⟩ := coreRun_succ_cases Sys2Proof.core h
    exact ih hrun (stepKeepsInvariant s u hs hstep)

theorem Drives.inv (h : Drives s t) (hs : s.Inv) : t.Inv := by
  obtain ⟨turns, h⟩ := h
  exact (runSteps_inv (h []) (hs.withTurns _)).withTurns t.turns

end

section
variable {s : State} {rest : List HostOp}

/-! ### TXF sends -/

/-- A latched request is sent whole, and TXF is idle again with nothing cut. -/
theorem Drives.frame {before : Txf} {cmd : Byte} {p : List Byte} (hp : p.length ≤ Config.maxLen)
    (htx : s.tx = txLatch before cmd p) (ho : s.line.isOpen = true) :
    ∃ u : Txf, u.state = .txIdle ∧ u.cut = false ∧
      Drives s { s with tx := u, out := { s.out with tx := s.out.tx ++ frameLayout cmd (lenByte p) p } } := by
  refine ⟨{ txLatch before cmd p with state := .txIdle, idx := p.length, acc := csum cmd (lenByte p) p }, rfl, rfl,
    List.replicate (frameLayout cmd (lenByte p) p).length .takeTx, fun ts => ?_⟩
  rw [List.length_replicate]
  exact runSteps_emits (s := s.withTurns (_ ++ ts)) (txLatch_emits before cmd hp) htx ho rfl

theorem Drives.offer {i : Instr} (hp : s.host.prog = .offer i :: rest) (hi : s.tx.state = .txIdle) (hwf : i.wf = true) :
    Drives s { s with tx := txLatch s.tx i.cmd i.payload, host := { s.host with prog := rest } } :=
  .turn (turn := .host) fun ts => by
    rw [step_host rfl, turnHost_offer (s := (s.withTurns (.host :: ts)).withTurns ts) hp, hostOffer, if_pos (by exact hi)]
    exact exec_idle (s := hostPop rest (s.withTurns ts)) hi hwf

/-! ### RXF receives -/

theorem turnArrive_unbounded {b : Byte} (hd : s.par.fifoDepth = none) :
    turnArrive b s = .next (s.withLine { s.line with fifo := s.line.fifo ++ [b] }) := by
  simp only [turnArrive, hd]

/-- Bytes arrive at an unbounded FIFO. -/
theorem Drives.arrive (hd : s.par.fifoDepth = none) (bs : List Byte) :
    Drives s { s with line := { s.line with fifo := s.line.fifo ++ bs } } := by
  induction bs generalizing s with
  | nil => simpa using Drives.refl s
  | cons b bs ih =>
    have hone : Drives s { s with line := { s.line with fifo := s.line.fifo ++ [b] } } :=
      .turn (turn := .arrive b) fun ts => by
        rw [step_cons (s := s.withTurns (.arrive b :: ts)) rfl]
        exact turnArrive_unbounded (s := s.withTurns ts) hd
    simpa using hone.trans (ih (s := { s with line := { s.line with fifo := s.line.fifo ++ [b] } }) hd)

/-- The attempt of an `await` begins. -/
theorem Drives.await {e : Expect} (hp : s.host.prog = .await e :: rest) (hi : s.tx.state = .txIdle)
    (hr : s.rx.state.resting = true) :
    Drives s { s with
      rx := { s.rx with result := .none, state := .idle }
      host := { s.host with prog := .awaiting e s.out.rxResults.length :: rest } } :=
  .turn (turn := .host) fun ts =>
    (awaitWaitsForSender.2.2.2 (s.withTurns (.host :: ts)) ts rest e rfl hp).trans (if_pos ⟨hi, hr⟩)

/-- A frame that waits in the FIFO is decoded. -/
theorem Drives.receive {cmd : Byte} {payload : List Byte} (hlen : payload.length ≤ Config.maxLen)
    (ho : s.line.isOpen = true) (hs : s.rx.state = .idle) (hbuf : s.rx.buf.length = Config.maxLen)
    (hf : s.line.fifo = frameLayout cmd (lenByte payload) payload) :
    ∃ r : Rxf, r.state = .done ∧ Drives s { s with
      rx := r
      line := { s.line with fifo := [] }
      out := { s.out with
        rx := s.out.rx ++ byteItems (frameLayout cmd (lenByte payload) payload)
        rxResults := s.out.rxResults ++ [.ok cmd payload] } } := by
  have hf' : s.line.fifo = frameLayout cmd (lenByte payload) payload ++ [] := by rw [hf, List.append_nil]
  obtain ⟨r, hdone, -, hrun⟩ := runSteps_receive hlen ho hs hbuf hf'
  refine ⟨r, hdone, List.replicate (payload.length + 7) .deliver, fun ts => ?_⟩
  rw [List.length_replicate]
  exact hrun ts

theorem Drives.awaiting {e : Expect} {seen : Nat} {cmd : Byte} {payload : List Byte}
    (hp : s.host.prog = .awaiting e seen :: rest) (hr : s.out.rxResults[seen]? = some (.ok cmd payload)) :
    Drives s { s with host := s.host.read e payload rest } :=
  .turn (turn := .host) fun ts => step_awaiting_ok (s := s.withTurns (.host :: ts)) rfl hp hr

/-! ### RLE scans a white store, and SER sends its one record -/

theorem turnHost_stream (h : s.host.prog = .stream :: rest) :
    turnHost s = hostRleStart (.streaming s.out.rleDones :: rest) s := by
  simp only [turnHost, h]

theorem turnHost_streaming {seen : Nat} (h : s.host.prog = .streaming seen :: rest) :
    turnHost s = .next (hostStreaming seen rest s) := by
  simp only [turnHost, h]

theorem hostRleStart_taken (hr : s.rle.state = .rlIdle) (hv : s.bmpValid = true) (next : List HostOp) :
    hostRleStart next s = .next (hostPop next (s.withRle (rleBegin s.rle))) := by
  simp [hostRleStart, hr, hv]

theorem Drives.stream (hp : s.host.prog = .stream :: rest) (hr : s.rle.state = .rlIdle) (hv : s.bmpValid = true) :
    Drives s { s with
      rle := { s.rle with r := 0, runOpen := false, state := .rlScan }
      host := { s.host with prog := .streaming s.out.rleDones :: rest } } :=
  .turn (turn := .host) fun ts => by
    rw [step_host rfl, turnHost_stream (s := (s.withTurns (.host :: ts)).withTurns ts) hp]
    exact hostRleStart_taken (s := s.withTurns ts) hr hv _

theorem Drives.streaming {seen : Nat} (hp : s.host.prog = .streaming seen :: rest) (hd : seen < s.out.rleDones) :
    Drives s { s with host := { s.host with prog := rest } } :=
  .turn (turn := .host) fun ts => by
    rw [step_host rfl, turnHost_streaming (s := (s.withTurns (.host :: ts)).withTurns ts) hp, hostStreaming,
      if_pos (by exact hd)]
    rfl

/-- Every row of the store is blank. -/
def White (m : List Host.Cell) : Prop := ∀ y, y < 240 → rowBlank (bmpRow m y) = true

/-- RLE's registers after `n + 1` blank rows. -/
def blankRun (n : Nat) : Rle := ⟨.rlScan, n + 1, true, 0, n + 1⟩

theorem Drives.scan_blank {r : Rle} (hw : White s.bmp) (hs : s.rle.state = .rlScan) (hr : s.rle.r < 240)
    (ho : s.recOut = []) (hrow : rleExamine (bmpRow s.bmp s.rle.r) s.rle = r) : Drives s { s with rle := r } :=
  .turn (turn := .scan) fun ts => by
    rw [step_cons rfl]
    refine (turnScan_silent (s := s.withTurns ts) hs ho hr.le (stepRecords_blank hr (hw _ hr))).trans ?_
    rw [rleEndStep_row (s := s.withTurns ts) hs hr hrow]
    rfl

theorem Drives.scan_white (hw : White s.bmp) (hs : s.rle.state = .rlScan) (hr : s.rle.r = 0)
    (hopen : s.rle.runOpen = false) (ho : s.recOut = []) {n : Nat} (hn : n < 240) :
    Drives s { s with rle := blankRun n } := by
  induction n with
  | zero =>
    refine .scan_blank hw hs (by omega) ho ?_
    rw [rleExamine_opens (hw _ (by omega)) hopen, hs, hr]
    rfl
  | succ n ih =>
    refine (ih (by omega)).trans (.scan_blank (s := { s with rle := blankRun n }) hw rfl hn ho ?_)
    exact rleExamine_extends (hw _ hn) rfl

/-- After the last row the open run is offered, SER takes it, and the scan ends. -/
theorem Drives.last_record (hr : s.rle = blankRun 239) (ho : s.recOut = []) (hi : s.tx.state = .txIdle) :
    Drives s { s with
      tx := txLatch s.tx 0x84 [0x00, 0x00, 0xF0]
      rle := { blankRun 239 with runOpen := false, state := .rlIdle }
      out := { s.out with
        records := s.out.records ++ [.blankRun 0 240], rleDones := s.out.rleDones + 1 } } := by
  have hrec : stepRecords s.bmp s.rle = [.blankRun 0 240] := by
    rw [hr]
    rfl
  have hoffer : Drives s { s with recOut := [.blankRun 0 240] } := .turn (turn := .scan) fun ts => by
    rw [step_cons rfl]
    refine (turnScan_offers (s := s.withTurns ts) (by exact hr ▸ rfl) ho (by exact hr ▸ le_refl 240)
      (by simp [hrec])).trans ?_
    simp only [State.withTurns_bmp, State.withTurns_rle, hrec]
    rfl
  refine hoffer.trans (.turn (turn := .ser) fun ts => ?_)
  refine (serialiserSendsRecord.2.2 _ ts (.blankRun 0 240) [] rfl rfl rfl).trans ?_
  rw [if_pos (by exact hi), if_pos rfl, if_pos rfl]
  have hafter : rleAfterStep s.bmp s.rle = { blankRun 239 with runOpen := false, state := .rlIdle } := by
    rw [hr]
    rfl
  have hdone : donePulses s.rle = 1 := by
    rw [hr]
    rfl
  simp only [State.withTurns_bmp, State.withTurns_rle, State.withTurns_out, hafter, hdone, ← ho]
  rfl

end

end Sys2Proof.Machine
end

section
/-! The family of 45_session.md, R231: a session on an all-white image. -/

namespace Sys2Proof.Machine

/-! ### The frames of several requests -/

/-- The frames of requests that fit, one after the other. -/
def wireOf (reqs : List (Byte × List Byte)) : List Byte := reqs.flatMap fun f => frameLayout f.1 (lenByte f.2) f.2

theorem wireOf_append (xs ys : List (Byte × List Byte)) : wireOf (xs ++ ys) = wireOf xs ++ wireOf ys :=
  List.flatMap_append

theorem encodeFrames_eq_wireOf {reqs : List (Byte × List Byte)} (h : ∀ f ∈ reqs, f.2.length ≤ Config.maxLen) :
    encodeFrames reqs = some (wireOf reqs) := by
  induction reqs with
  | nil => rfl
  | cons f fs ih =>
    obtain ⟨hf, hfs⟩ := List.forall_mem_cons.1 h
    simp only [encodeFrames, encodeFrame_eq_some.2 ⟨hf, rfl⟩, ih hfs]
    rfl

/-! ### Between two operations of the session -/

/-- All units rest, the transport is open with nothing waiting, and the store holds a white image. -/
structure Ready (s : State) : Prop where
  inv : s.Inv
  tx : s.tx.state = .txIdle
  rx : s.rx.state.resting = true
  pack : s.pack.state = .pkIdle
  rle : s.rle.state = .rlIdle
  isOpen : s.line.isOpen = true
  fifo : s.line.fifo = []
  unbounded : s.par.fifoDepth = none
  valid : s.bmpValid = true
  white : White s.bmp

/-- What the session has done between two states: the requests it has sent and the answers it has received. -/
structure Carried (s t : State) (rest : List HostOp) (reqs answers : List (Byte × List Byte)) : Prop where
  prog : t.host.prog = rest
  par : t.par = s.par
  wire : t.out.tx = s.out.tx ++ wireOf reqs
  results : t.out.rxResults = s.out.rxResults ++ answers.map (fun a => .ok a.1 a.2)

/-- Some schedule runs these operations to their end, sends these requests and receives these answers. -/
def Carries (ops : List HostOp) (reqs answers : List (Byte × List Byte)) : Prop :=
  ∀ (s : State) (rest : List HostOp), Ready s → s.host.prog = ops ++ rest →
    ∃ t, Drives s t ∧ Ready t ∧ Carried s t rest reqs answers

theorem Carried.trans {s t u : State} {mid rest : List HostOp} {reqs reqs' answers answers' : List (Byte × List Byte)}
    (h : Carried s t mid reqs answers) (h' : Carried t u rest reqs' answers') :
    Carried s u rest (reqs ++ reqs') (answers ++ answers') where
  prog := h'.prog
  par := h'.par.trans h.par
  wire := by rw [h'.wire, h.wire, wireOf_append, List.append_assoc]
  results := by rw [h'.results, h.results, List.map_append, List.append_assoc]

theorem carries_nil : Carries [] [] [] := fun s _ hready hp =>
  ⟨s, .refl s, hready, hp, rfl, (List.append_nil _).symm, (List.append_nil _).symm⟩

theorem Carries.append {ops ops' : List HostOp} {reqs reqs' answers answers' : List (Byte × List Byte)}
    (h : Carries ops reqs answers) (h' : Carries ops' reqs' answers') :
    Carries (ops ++ ops') (reqs ++ reqs') (answers ++ answers') := by
  intro s rest hready hp
  obtain ⟨t, hst, ht, hcarried⟩ := h s (ops' ++ rest) hready (by rw [hp, List.append_assoc])
  obtain ⟨u, htu, hu, hcarried'⟩ := h' t rest ht hcarried.prog
  exact ⟨u, hst.trans htu, hu, hcarried.trans hcarried'⟩

/-! ### One operation -/

/-- A turn that changes nothing but the host's own registers. -/
theorem Carries.of_host {op : HostOp} (side : List HostOp → HostSide → HostSide)
    (hprog : ∀ rest h, (side rest h).prog = rest)
    (h : ∀ (s : State) rest, s.host.prog = op :: rest → turnHost s = .next (s.withHost (side rest s.host))) :
    Carries [op] [] [] := by
  intro s rest hready hp
  have hdrives : Drives s { s with host := side rest s.host } := .turn (turn := .host) fun ts => by
    rw [step_host rfl]
    exact h (s.withTurns ts) rest hp
  exact ⟨_, hdrives, { hready with inv := hdrives.inv hready.inv }, hprog _ _, rfl, (List.append_nil _).symm,
    (List.append_nil _).symm⟩

theorem carries_enter (phase : Phase) : Carries [.enter phase] [] [] :=
  .of_host (fun rest h => { h with prog := rest, phase := phase }) (fun _ _ => rfl) fun _ _ => turnHost_enter

theorem turnHost_pause {s : State} {rest : List HostOp} (h : s.host.prog = .pause :: rest) :
    turnHost s = .next (hostPop rest s) := by
  simp only [turnHost, h]

theorem carries_pause : Carries [.pause] [] [] :=
  .of_host (fun rest h => { h with prog := rest }) (fun _ _ => rfl) fun _ _ => turnHost_pause

/-- An offered request is sent whole. -/
theorem Ready.offer {s : State} {rest : List HostOp} {i : Instr} (hready : Ready s)
    (hp : s.host.prog = .offer i :: rest) (hwf : i.wf = true) :
    ∃ t, Drives s t ∧ Ready t ∧ Carried s t rest [(i.cmd, i.payload)] [] ∧ t.tx.cut = false := by
  have hoffer := Drives.offer hp hready.tx hwf
  obtain ⟨u, hidle, hcut, hframe⟩ := Drives.frame (s := { s with
    tx := txLatch s.tx i.cmd i.payload, host := { s.host with prog := rest } })
    (Instr.payload_length_le hwf) rfl hready.isOpen
  have hdrives := hoffer.trans hframe
  exact ⟨_, hdrives, { hready with inv := hdrives.inv hready.inv, tx := hidle },
    ⟨rfl, rfl, by simp [wireOf], (List.append_nil _).symm⟩, hcut⟩

theorem carries_offer {i : Instr} (hwf : i.wf = true) : Carries [.offer i] [(i.cmd, i.payload)] [] := by
  intro s rest hready hp
  obtain ⟨t, hdrives, ht, hcarried, -⟩ := hready.offer hp hwf
  exact ⟨t, hdrives, ht, hcarried⟩

theorem HostSide.read_prog (e : Expect) (payload : List Byte) (rest : List HostOp) (h : HostSide) :
    (h.read e payload rest).prog = rest := by
  cases e <;> rfl

/-- The answer arrives after the attempt has begun, and is decoded and taken. -/
theorem carries_await (e : Expect) {cmd : Byte} {payload : List Byte} (hlen : payload.length ≤ Config.maxLen) :
    Carries [.await e] [] [(cmd, payload)] := by
  intro s rest hready hp
  have hbegin := (Drives.await (rest := rest) hp hready.tx hready.rx).trans
    (.arrive (by exact hready.unbounded) (frameLayout cmd (lenByte payload) payload))
  obtain ⟨r, hdone, hreceive⟩ := Drives.receive (cmd := cmd) (payload := payload) (s := { s with
    rx := { s.rx with result := .none, state := .idle }
    host := { s.host with prog := .awaiting e s.out.rxResults.length :: rest }
    line := { s.line with fifo := s.line.fifo ++ frameLayout cmd (lenByte payload) payload } })
    hlen hready.isOpen rfl hready.inv.rx.1 (by simp [hready.fifo])
  have hdrives := (hbegin.trans hreceive).trans (.awaiting rfl (cmd := cmd) (payload := payload) (by simp))
  refine ⟨_, hdrives, { hready with inv := hdrives.inv hready.inv, rx := ?_, fifo := rfl }, ?_⟩
  · simp [hdone, RxState.resting]
  · exact ⟨HostSide.read_prog .., rfl, (List.append_nil _).symm, rfl⟩

/-- The white image's one record is sent. -/
theorem carries_stream : Carries [.stream] [(0x84, [0x00, 0x00, 0xF0])] [] := by
  intro s rest hready hp
  have ho := hready.inv.offer hready.rle
  have hscan := (Drives.stream (rest := rest) hp hready.rle hready.valid).trans
    (.scan_white (n := 239) (by exact hready.white) rfl rfl rfl (by exact ho) (by decide))
  have hrecord := hscan.trans (.last_record rfl (by exact ho) (by exact hready.tx))
  obtain ⟨u, hidle, -, hframe⟩ := Drives.frame (before := s.tx) (cmd := 0x84) (p := [0x00, 0x00, 0xF0]) (s := { s with
    tx := txLatch s.tx 0x84 [0x00, 0x00, 0xF0]
    rle := { blankRun 239 with runOpen := false, state := .rlIdle }
    out := { s.out with records := s.out.records ++ [.blankRun 0 240], rleDones := s.out.rleDones + 1 }
    host := { s.host with prog := .streaming s.out.rleDones :: rest } }) (by decide) rfl hready.isOpen
  have hdrives := (hrecord.trans hframe).trans (.streaming rfl (Nat.lt_succ_self _))
  exact ⟨_, hdrives, { hready with inv := hdrives.inv hready.inv, tx := hidle, rle := rfl },
    ⟨rfl, rfl, by simp [wireOf], (List.append_nil _).symm⟩⟩

/-! ### Steps S2 to S10 -/

/-- The requests an operation of the session has sent: its own, or the white image's one record. -/
def HostOp.sends : HostOp → List (Byte × List Byte)
  | .offer i => [(i.cmd, i.payload)]
  | .stream => [(0x84, [0x00, 0x00, 0xF0])]
  | _ => []

/-- The operations between the precheck and the end of the session. -/
def HostOp.isStep : HostOp → Bool
  | .offer i => i.wf
  | .await _ | .stream | .enter _ | .pause => true
  | _ => false

def HostOp.awaits : HostOp → Bool
  | .await _ => true
  | _ => false

/-- Steps of the session run to their end, with one answer for each `await`. -/
theorem carries_steps {ops : List HostOp} {answers : List (Byte × List Byte)} (hops : ops.all HostOp.isStep = true)
    (hcount : answers.length = ops.countP HostOp.awaits) (hlen : ∀ a ∈ answers, a.2.length ≤ Config.maxLen) :
    Carries ops (ops.flatMap HostOp.sends) answers := by
  induction ops generalizing answers with
  | nil =>
    obtain rfl := List.length_eq_zero_iff.1 hcount
    exact carries_nil
  | cons op ops ih =>
    obtain ⟨hop, hrest⟩ := (Bool.and_eq_true _ _).mp hops
    cases op with
    | offer i => exact (carries_offer hop).append (ih hrest hcount hlen)
    | stream => exact carries_stream.append (ih hrest hcount hlen)
    | enter phase => exact (carries_enter phase).append (ih hrest hcount hlen)
    | pause => exact carries_pause.append (ih hrest hcount hlen)
    | await e =>
      rw [List.countP_cons_of_pos (p := HostOp.awaits) rfl] at hcount
      obtain ⟨a, answers, rfl⟩ := List.exists_cons_of_length_eq_add_one hcount
      obtain ⟨ha, hanswers⟩ := List.forall_mem_cons.1 hlen
      exact (carries_await e ha).append (ih hrest (Nat.succ.inj hcount) hanswers)
    | _ => cases hop

theorem sessionBody_isStep (par : Params) : (sessionBody par).all HostOp.isStep = true := by
  simp [sessionBody, pageProgram, pollProgram, HostOp.isStep, Instr.wf, -List.reduceReplicate]

theorem sessionBody_awaits (par : Params) : (sessionBody par).countP HostOp.awaits = 108 := by
  simp [sessionBody, pageProgram, pollProgram, HostOp.awaits, List.countP_cons, List.countP_flatten, -List.reduceReplicate]

theorem polls_sends (n : Nat) :
    (List.replicate n pollProgram).flatten.flatMap HostOp.sends = List.replicate n (Config.cmdStatusPoll, []) := by
  induction n with
  | zero => rfl
  | succ n ih =>
    rw [List.replicate_succ, List.flatten_cons, List.flatMap_append, ih]
    rfl

theorem sessionBody_sends (par : Params) :
    (sessionBody par).flatMap HostOp.sends ++ [(Config.cmdPrintEnd, [1])] =
      sessionRequests par [(0x84, [0x00, 0x00, 0xF0])] := by
  rw [sessionBody, List.flatMap_append, List.flatMap_append, polls_sends, sessionRequests]
  rfl

theorem sessionRequests_fit (par : Params) :
    ∀ f ∈ sessionRequests par [(0x84, [0x00, 0x00, 0xF0])], f.2.length ≤ Config.maxLen := by
  simp [sessionRequests, or_imp, forall_and, Config.maxLen, -List.reduceReplicate]

/-! ### The precheck on a white image -/

theorem packGroups_eq_zero {reds : List Nat} (h : ∀ red ∈ reds, red ≠ 0) {n k : Nat} (hk : k < n) :
    (packGroups n reds).getD k 0 = 0 := by
  refine (byte_eq_zero_iff_forall_getLsbD _).2 fun j hj => ?_
  have hpixel : reds.getD (8 * k + (7 - j)) 1 ≠ 0 := by
    rw [List.getD_eq_getElem?_getD]
    rcases hget : reds[8 * k + (7 - j)]? with _ | red
    · simp
    · exact h red (List.mem_of_getElem? hget)
  have hbit := getLsbD_packGroups hk (j := 7 - j) (by omega) reds
  rw [show 7 - (7 - j) = j by omega] at hbit
  rw [hbit, Bool.eq_false_iff]
  exact mt (isInk_iff _).1 hpixel

theorem white_of_get_eq_zero {m : List Host.Cell} (h : ∀ k, k < 12000 → Memory.get m k = 0) : White m := by
  intro y hy
  rw [rowBlank_iff_forall_eq_zero]
  intro b hb
  obtain ⟨i, hi, rfl⟩ := List.mem_map.1 hb
  have hi' : i < 50 := List.mem_range.1 hi
  exact h _ (by simp only [bmpAddr, Config.rowBytes]; omega)

theorem packBegin_goodSize (s : State) :
    packBegin 400 240 s = { s with pack := packAt 0, bmpValid := false } := rfl

theorem Drives.precheck {s : State} {rest : List HostOp} (hrle : s.rle.state = .rlIdle) (hpack : s.pack.state = .pkIdle)
    (hp : s.host.prog = .session 400 240 :: rest) :
    Drives s { inPrecheck rest s.turns s with pack := packAt 0, bmpValid := false } :=
  ⟨List.replicate 4 .host, fun ts => by
    rw [List.length_replicate]
    refine (runSteps_precheck (s := s.withTurns (List.replicate 4 .host ++ ts)) hrle hpack hp rfl).trans ?_
    rw [packBegin_goodSize]
    rfl⟩

theorem Drives.pack {s : State} {reds : List Nat} (hlen : reds.length = 96000) (hp : s.pack = packAt 0)
    (hm : Memory.wf s.bmp = true) (hpix : s.pixels = reds) (hwhite : ∀ red ∈ reds, red ≠ 0) :
    ∃ (m : List Host.Cell) (p : Pack), p.state = .pkIdle ∧ White m ∧ Drives s { s with
      bmp := m, pack := p, bmpValid := true, pixels := []
      out := { s.out with packResults := s.out.packResults ++ [.ok] } } := by
  obtain ⟨m, p, hidle, hget, hrun⟩ := runSteps_pack hlen hp hm (hpix.trans (List.append_nil reds).symm)
  refine ⟨m, p, hidle, white_of_get_eq_zero fun k hk => ?_, List.replicate 96000 .pixel, fun ts => ?_⟩
  · exact (hget k hk).trans (packGroups_eq_zero (n := bmpSize) hwhite hk)
  · rw [List.length_replicate]
    exact hrun ts

theorem Drives.packing {s : State} {seen : Nat} {rest : List HostOp} (hp : s.host.prog = .packing seen :: rest)
    (hr : s.out.packResults[seen]? = some .ok) : Drives s { s with host := { s.host with prog := rest } } :=
  .turn (turn := .host) fun ts => by
    rw [step_host rfl, turnHost_packing (s := (s.withTurns (.host :: ts)).withTurns ts) hp]
    simp only [hostPacking, State.withTurns_out, hr]
    rfl

/-- Up to `pack_result` the session sends and receives nothing, and then the store holds the white image. -/
theorem session_precheck {s : State} {reds : List Nat} (hinv : s.Inv) (hover : s.runOver = true)
    (hp : s.host.prog = [.session 400 240]) (hf : s.line.fifo = []) (hd : s.par.fifoDepth = none)
    (hlen : reds.length = 96000) (hwhite : ∀ red ∈ reds, red ≠ 0) (hpix : s.pixels = reds) :
    ∃ t, Drives s t ∧ Ready t ∧ Carried s t (sessionAfterPack s.par) [] [] := by
  simp only [State.runOver, Bool.and_eq_true, beq_iff_eq] at hover
  obtain ⟨⟨⟨⟨⟨htx, hrx⟩, hpack⟩, hrle⟩, -⟩, -⟩ := hover
  have hpre := Drives.precheck hrle hpack hp
  obtain ⟨m, p, hidle, hm, hfill⟩ := Drives.pack (reds := reds) 
    (s := { inPrecheck [] s.turns s with pack := packAt 0, bmpValid := false }) hlen rfl hinv.bmp hpix hwhite
  have hdrives := (hpre.trans hfill).trans (.packing rfl (by simp [inPrecheck]))
  refine ⟨_, hdrives, ⟨hdrives.inv hinv, htx, hrx, hidle, hrle, rfl, hf, hd, rfl, hm⟩, ?_⟩
  exact ⟨List.append_nil _, rfl, (List.append_nil _).symm, (List.append_nil _).symm⟩

theorem Drives.closePort {s : State} {rest : List HostOp} (hp : s.host.prog = .closePort :: rest) :
    Drives s { s with line := { s.line with isOpen := false }, host := { s.host with prog := rest } } :=
  .turn (turn := .host) fun ts => step_setOpen (s := s.withTurns (.host :: ts)) (v := false) hp rfl

/-- After S10's frame the host notes the end and releases the transport. -/
theorem session_end {s : State} (hready : Ready s)
    (hp : s.host.prog = [.offer (.printEnd Config.one), .finish, .closePort]) :
    ∃ t, Drives s t ∧ Carried s t [] [(Config.cmdPrintEnd, [1])] [] ∧ t.sessionOver = true ∧
      t.host.ended = some .complete ∧ t.line.isOpen = false := by
  obtain ⟨u, hoffer, hu, hcarried, hcut⟩ := hready.offer hp rfl
  have hfinish : Drives u { u with host := { u.host with prog := [.closePort], ended := some .complete } } :=
    .turn (turn := .host) fun ts => by
      refine (awaitWaitsForSender.2.1 (u.withTurns (.host :: ts)) ts [.closePort] rfl hcarried.prog).trans ?_
      rw [if_pos (by exact ⟨hu.tx, hcut⟩)]
      rfl
  refine ⟨_, (hoffer.trans hfinish).trans (.closePort rfl), ⟨rfl, hcarried.par, hcarried.wire, hcarried.results⟩, ?_,
    rfl, rfl⟩
  simp [State.sessionOver, State.runOver, State.sessionEnd, hu.tx, hu.rx, hu.pack, hu.rle, hu.inv.offer hu.rle]

/-- Settles O55: precheck, the steps with their answers, and the end. -/
theorem allWhiteSessionRunsToEnd : Obligations.AllWhiteSessionRunsToEnd := by
  intro s reds answers hinv hover hp hf hd hlen hwhite hpix hcount hfit
  obtain ⟨t, hst, ht, hpre⟩ := session_precheck hinv hover hp hf hd hlen hwhite hpix
  obtain ⟨u, htu, hu, hbody⟩ := carries_steps (sessionBody_isStep s.par) (hcount.trans (sessionBody_awaits s.par).symm)
    hfit t _ ht hpre.prog
  obtain ⟨v, huv, hend, hsession, hended, hclosed⟩ := session_end hu hbody.prog
  obtain ⟨turns, hrun⟩ := (hst.trans htu).trans huv
  have hall := (hpre.trans hbody).trans hend
  rw [List.nil_append, List.nil_append, List.append_nil, sessionBody_sends] at hall
  refine ⟨turns, v.withTurns [], wireOf (sessionRequests s.par [(0x84, [0x00, 0x00, 0xF0])]), ?_, hall.prog, hsession,
    hended, hclosed, encodeFrames_eq_wireOf ?_, ?_, ?_⟩
  · simpa using! hrun []
  · exact sessionRequests_fit s.par
  · exact hall.wire
  · exact hall.results

end Sys2Proof.Machine
end
